-- ==== Sys2Proof/Word.lean ====
section
/-! DEFINITION. The word types of the block and the pixel record (spec 00_scope.md R7, R9). -/

namespace Sys2Proof

/-- `u8` (R7). -/
abbrev Byte := BitVec 8

/-- A host register word (R40). -/
abbrev Word32 := BitVec 32

/-- A transfer or pixel counter (R6, R30). -/
abbrev Word64 := BitVec 64

/-- A pixel: four unsigned 8-bit lanes (R9). Equality compares all four. -/
structure Pixel where
  r : Byte
  g : Byte
  b : Byte
  a : Byte
deriving DecidableEq, Repr, Inhabited

/-- The value of every cache slot at job start (R26). -/
def Pixel.zero : Pixel := ⟨0, 0, 0, 0⟩

/-- The previous-pixel state at job start (R22, R24). -/
def Pixel.start : Pixel := ⟨0, 0, 0, 255⟩

/-- `px32(p)`: R in bits [31:24], A in bits [7:0] (R9). -/
def Pixel.px32 (p : Pixel) : Word32 := p.r ++ p.g ++ p.b ++ p.a

end Sys2Proof
end

