-- ==== Sys2Proof/Syntax.lean ====
section
/-! DEFINITION. The six opcodes of the stream (spec/opcode_table.json, 30_encoding.md R88-R96), one constructor
a row, with their operands as R96 assembles them. -/

namespace Sys2Proof

/-- An opcode with its operands (R96). Deltas are the biased fields minus their bias, the run operand is the
repeat count. -/
inductive Instr where
  /-- RGB: red, green, blue (R94). -/
  | rgb (r g b : Byte)
  /-- RGBA: red, green, blue, alpha (R95). -/
  | rgba (r g b a : Byte)
  /-- INDEX: cache slot (R90). -/
  | index (slot : BitVec 6)
  /-- DIFF: the three deltas, each -2..1 (R91). -/
  | diff (dr dg db : Int)
  /-- LUMA: green delta -32..31, red and blue deltas less the green one, each -8..7 (R92). -/
  | luma (dg drdg dbdg : Int)
  /-- RUN: repeat count 1..62 (R93). -/
  | run (count : Nat)
deriving DecidableEq, Repr

end Sys2Proof
end

