-- ==== Sys2Proof/WellFormed.lean ====
section
/-! DEFINITION. Which opcodes have an encoding: the operand ranges of spec 30_encoding.md R96. -/

namespace Sys2Proof

/-- `lo ≤ x ≤ hi`. -/
def inRange (lo hi x : Int) : Bool := decide (lo ≤ x) && decide (x ≤ hi)

/-- The operand ranges of R96. Bytes and cache slots carry their range in their type. -/
def Instr.wf : Instr → Bool
  | .rgb _ _ _ => true
  | .rgba _ _ _ _ => true
  | .index _ => true
  | .diff dr dg db => inRange (-2) 1 dr && inRange (-2) 1 dg && inRange (-2) 1 db
  | .luma dg drdg dbdg => inRange (-32) 31 dg && inRange (-8) 7 drdg && inRange (-8) 7 dbdg
  | .run count => decide (1 ≤ count) && decide (count ≤ 62)

/-- An instruction is well formed when every operand is in the range of R96. -/
abbrev Instr.WellFormed (i : Instr) : Prop := i.wf = true

end Sys2Proof
end

