-- ==== Sys2Proof/Decode.lean ====
section
/-! DEFINITION. The opcode map, the decoder and the encoder of the stream's opcodes (spec 30_encoding.md
R85-R102). -/

namespace Sys2Proof

/-- The six opcode kinds (R89). -/
inductive Opcode where
  | rgb
  | rgba
  | index
  | diff
  | luma
  | run
deriving DecidableEq, Repr

/-- The 2-bit tag `b[7:6]` (R88). -/
def tag (b : Byte) : BitVec 2 := b.extractLsb' 6 2

/-- The opcode map, "this priority (first match wins)" (R89). -/
def opcodeOf (b : Byte) : Opcode :=
  if b = 0xFE then .rgb
  else if b = 0xFF then .rgba
  else if tag b = 0b00 then .index
  else if tag b = 0b01 then .diff
  else if tag b = 0b10 then .luma
  else .run

/-- Trailing bytes of each opcode (R89). -/
def Opcode.trailing : Opcode → Nat
  | .rgb => 3
  | .rgba => 4
  | .index => 0
  | .diff => 0
  | .luma => 1
  | .run => 0

/-- `Len(b)`: a function of the leading byte alone (R97). -/
def len (b : Byte) : Nat := 1 + (opcodeOf b).trailing

/-- The opcode with leading byte `b` and trailing bytes `arg`, its fields assembled as R96 says. It is asked
only with `arg.length = len b - 1`. -/
def decodeFields (b : Byte) (arg : List Byte) : Instr :=
  match opcodeOf b with
  | .rgb => .rgb (arg.getD 0 0) (arg.getD 1 0) (arg.getD 2 0)
  | .rgba => .rgba (arg.getD 0 0) (arg.getD 1 0) (arg.getD 2 0) (arg.getD 3 0)
  | .index => .index (b.extractLsb' 0 6)
  | .diff =>
    .diff ((b.extractLsb' 4 2).toNat - 2 : Int) ((b.extractLsb' 2 2).toNat - 2 : Int)
      ((b.extractLsb' 0 2).toNat - 2 : Int)
  | .luma =>
    .luma ((b.extractLsb' 0 6).toNat - 32 : Int) (((arg.getD 0 0).extractLsb' 4 4).toNat - 8 : Int)
      (((arg.getD 0 0).extractLsb' 0 4).toNat - 8 : Int)
  | .run => .run ((b.extractLsb' 0 6).toNat + 1)

/-- Why bytes are no opcode. No byte value is illegal (R99), so bytes can only be missing. -/
inductive DecodeError where
  /-- No leading byte. -/
  | noOpcode
  /-- Fewer trailing bytes than the leading byte asks for. -/
  | missingOperands
deriving DecidableEq, Repr

/-- Reads one opcode from the front of a byte list, and gives the bytes after it (R89, R97, R99). -/
def decode : List Byte → Except DecodeError (Instr × List Byte)
  | [] => .error .noOpcode
  | b :: rest =>
    if len b - 1 ≤ rest.length then
      .ok (decodeFields b (rest.take (len b - 1)), rest.drop (len b - 1))
    else .error .missingOperands

/-- The encoding functions of R102. -/
def encode : Instr → List Byte
  | .rgb r g b => [0xFE, r, g, b]
  | .rgba r g b a => [0xFF, r, g, b, a]
  | .index s => [0x00#8 ||| s.setWidth 8]
  | .diff dr dg db =>
    [0x40#8 ||| BitVec.ofInt 8 (dr + 2) <<< 4 ||| BitVec.ofInt 8 (dg + 2) <<< 2 ||| BitVec.ofInt 8 (db + 2)]
  | .luma dg drdg dbdg =>
    [0x80#8 ||| BitVec.ofInt 8 (dg + 32), BitVec.ofInt 8 (drdg + 8) <<< 4 ||| BitVec.ofInt 8 (dbdg + 8)]
  | .run count => [0xC0#8 ||| BitVec.ofNat 8 (count - 1)]

/-- `HeaderBytes(W, H, CH, CS)` (R85). -/
def headerBytes (W H : Word32) (CH CS : Byte) : List Byte :=
  [0x71, 0x6F, 0x69, 0x66,
   W.extractLsb' 24 8, W.extractLsb' 16 8, W.extractLsb' 8 8, W.extractLsb' 0 8,
   H.extractLsb' 24 8, H.extractLsb' 16 8, H.extractLsb' 8 8, H.extractLsb' 0 8,
   CH, CS]

/-- The magic "qoif" as a big-endian word (R85, R128). -/
def magicWord : Word32 := 0x716F6966

/-- `TrailerBytes` (R86). -/
def trailerBytes : List Byte := [0x00, 0x00, 0x00, 0x00, 0x00, 0x00, 0x00, 0x01]

/-- The longest opcode, in bytes (R97). -/
def maxLen : Nat := 5

/-- The bytes of an instruction whose bits are `w`, numbered as the opcode table numbers them: byte k is
bits 8k+7..8k, and every bit at `nbits` or above is 0. -/
def tableBytes (nbits w : Nat) : List Byte :=
  (List.range maxLen).map fun k => BitVec.ofNat 8 ((w % 2 ^ nbits) / 2 ^ (8 * k))

/-- The instruction the decoder reads from the table's numbering of its bits. -/
def decodeTableWord (nbits w : Nat) : Option Instr :=
  match decode (tableBytes nbits w) with
  | .ok (i, _) => some i
  | .error _ => none

end Sys2Proof
end

