-- ==== Sys2Proof/Config.lean ====
section
/-! DEFINITION. What an implementation of the block fixes, and the free values: the open parameters of
spec 00_scope.md R6 and the draws of the environment. The constants below have no body, so whatever is
proved holds for every value the spec allows (assumption log 1, 3, 9). -/

namespace Sys2Proof

/-- One answer of a byte source to `ReadByte()` that is not `End` (R62). -/
inductive SourceItem where
  | byte (b : Byte)
  | error
deriving DecidableEq, Repr, Inhabited

/-- One answer of a byte sink to `WriteByte` (`Accept` or `Error`) or to `Flush` (`Done` or `Error`) (R63). -/
inductive SinkAnswer where
  | ok
  | error
deriving DecidableEq, Repr, Inhabited

/-- The actions of the encoder's step table (R166). -/
inductive EncAction where
  | drain
  | serialize
  | select
  | endPixels
  | toFlush
  | flush
deriving DecidableEq, Repr, Inhabited

/-- The draw of the environment in state `D_RA` (R214). -/
inductive ReadAhead where
  | complete
  | read
deriving DecidableEq, Repr, Inhabited

/-- An engine's turn: which engine steps and the choice the rules leave it (R20, R166, R214). -/
inductive Turn where
  | enc (e : Nat) (a : EncAction)
  | dec (d : Nat) (ch : ReadAhead)
deriving DecidableEq, Repr, Inhabited

/-- The parameters of R6 that the engines read. -/
structure Params where
  maxDim : Nat
  outBuf : Nat
  raMax  : Nat
deriving DecidableEq, Repr

/-- The values R6 allows: `MAX_DIM` is one of two, the other two are any naturals. -/
def Params.Legal (c : Params) : Prop := c.maxDim = 2 ^ 31 - 1 ∨ c.maxDim = 2 ^ 32 - 1

/-- Which of the two values of `MAX_DIM` the implementation has (R6, D16). Uninterpreted: log 3. -/
opaque Config.maxDimIsU32 : Bool

/-- `OUT_BUF` (R6, D22). Uninterpreted: log 3. -/
opaque Config.outBuf : Nat

/-- `RA_MAX` (R6, D21). Uninterpreted: log 3. -/
opaque Config.raMax : Nat

/-- The implementation's parameters. -/
def Config.params : Params where
  maxDim := if Config.maxDimIsU32 then 2 ^ 32 - 1 else 2 ^ 31 - 1
  outBuf := Config.outBuf
  raMax  := Config.raMax

/-- FREE VALUE: the engine that moves, and its choice, where `State.agenda` names none (R20, R166, R214). Log 1. -/
opaque Config.freeTurn : Nat → Turn

/-- FREE VALUE: what stands at a decoder's byte source after an error: "the stream's read/write position is
unspecified" (R232). Log 9. -/
opaque Config.freeSource : Nat → List SourceItem

/-- FREE VALUE: the contents of a decoder's pixel sink after an error (R158, R232). Log 9. -/
opaque Config.freePixelSink : Nat → List (List Byte)

/-- FREE VALUE: the contents of an encoder's byte sink after an error (R232). Log 9. -/
opaque Config.freeSink : Nat → List Byte

end Sys2Proof
end

