-- ==== Sys2Proof/Machine/State.lean ====
section
/-! DEFINITION. Everything the spec gives the block, as plain data: the encoder and decoder engines with their
registers and ports (spec 10_state.md R20-R56, 20_memory.md R60-R65), the moves the agents make next, and the
state after power-on reset (R55). -/

namespace Sys2Proof.Machine

/-- The color cache: 64 slots of 32 bits (R26). The block's only addressed storage (R60). -/
abbrev Cache := Vector Pixel 64

/-- All slots (0,0,0,0) (R26, R115). -/
def Cache.initial : Cache := Vector.replicate 64 Pixel.zero

/-- The encoder's FSM state (R21). -/
inductive EState where
  | idle
  | ePix
  | eTrl
  | eFlush
  | done
  | err
deriving DecidableEq, Repr

/-- The decoder's FSM state (R23). -/
inductive DState where
  | idle
  | dHdr
  | dOp
  | dArg
  | dRun
  | dTrl
  | dRa
  | done
  | err
deriving DecidableEq, Repr

/-- The errors a job can end in: the rows of R225. -/
inductive JobError where
  | argReqChannels
  | argWidth
  | argHeight
  | argChannels
  | argColorspace
  | argPixelCount
  | formatMagic
  | formatWidth
  | formatHeight
  | formatChannels
  | formatColorspace
  | formatTrailer
  | truncatedHeader
  | truncatedOpcode
  | truncatedTrailer
  | ioSource
  | ioSink
deriving DecidableEq, Repr

/-- An encoder engine: its FSM state, host registers, datapath registers (R22) and ports. -/
structure Encoder where
  estate     : EState
  /-- ENC.WIDTH (R43). -/
  regWidth   : Word32
  /-- ENC.HEIGHT (R44). -/
  regHeight  : Word32
  /-- ENC.FORMAT.CHANNELS (R45). -/
  regChannels : Byte
  /-- ENC.FORMAT.COLORSPACE (R45). -/
  regColorspace : Byte
  W          : Word32
  H          : Word32
  CH         : Byte
  CS         : Byte
  N          : Word64
  i          : Word64
  prev       : Pixel
  run        : BitVec 6
  cache      : Cache
  /-- Serializer queue, head first (R167). -/
  q          : List Byte
  /-- Output FIFO, head first (R168). -/
  fifo       : List Byte
  outCount   : Word64
  errKind    : BitVec 4
  errDetail  : BitVec 8
  /-- The pixel source: the bytes of the pixel buffer not yet read (R64). -/
  pixels     : List Byte
  /-- The bytes the sink has accepted, in order (R63). -/
  sink       : List Byte
  /-- The sink's next answers; it accepts where none is listed (R63, log 7). -/
  sinkAnswers : List SinkAnswer
  /-- How many `Flush()` the sink answered `Done` (R63). -/
  flushes    : Nat
deriving DecidableEq, Repr

/-- A decoder engine: its FSM state, host register, datapath registers (R24) and ports. -/
structure Decoder where
  dstate     : DState
  /-- DEC.CONFIG.REQ_CHANNELS (R49). -/
  regReq     : Byte
  /-- DEC.CONFIG.STRICT (R49). -/
  regStrict  : Bool
  REQ        : Byte
  STRICT     : Bool
  /-- Header bytes consumed, 0..14. -/
  hk         : Nat
  hbuf       : Word32
  W          : Word32
  H          : Word32
  SCH        : Byte
  CS         : Byte
  OCH        : Byte
  N          : Word64
  i          : Word64
  prev       : Pixel
  rrem       : BitVec 6
  op         : Byte
  arg        : List Byte
  tbuf       : List Byte
  /-- Read-ahead bytes consumed, 0..`RA_MAX`. -/
  ra         : Nat
  cache      : Cache
  inCount    : Word64
  errKind    : BitVec 4
  errDetail  : BitVec 8
  /-- The byte source's next answers; `End` for ever after the last (R61, R62, log 6). -/
  source     : List SourceItem
  /-- The beats the pixel sink has received, in order (R65). -/
  pixelSink  : List (List Byte)
deriving DecidableEq, Repr

/-- An engine, named as a host access names it (R40, log 11). -/
inductive EngineId where
  | enc (e : Nat)
  | dec (d : Nat)
deriving DecidableEq, Repr

/-- A host access: the engine, the byte offset from its base address, and the size in bytes (R40, R69). -/
structure HostAddr where
  engine : EngineId
  offset : Nat
  size   : Nat
deriving DecidableEq, Repr

/-- One move of one agent (R20). The host's moves are the register accesses of R218 and the port
connections of R260-R262. -/
inductive Move where
  | turn (t : Turn)
  | hostWrite (a : HostAddr) (v : Word32)
  | hostRead (a : HostAddr)
  | connectSource (d : Nat) (items : List SourceItem)
  | connectPixelSink (d : Nat)
  | connectSink (e : Nat) (answers : List SinkAnswer)
  | connectPixels (e : Nat) (bytes : List Byte)
deriving DecidableEq, Repr

/-- The block and its environment. `agenda`, `draws`, `cur` and `hostData` are the model's own fields (log 1,
17, 20, 21). -/
structure State where
  /-- `ENC[0..N_ENC-1]`. -/
  enc      : List Encoder
  /-- `DEC[0..N_DEC-1]`. -/
  dec      : List Decoder
  /-- The decoder whose step is being taken: the engine an opcode acts on. -/
  cur      : Nat
  /-- The moves that come next, in order. -/
  agenda   : List Move
  /-- The argument of the next free value. -/
  draws    : Nat
  /-- The word the host's last register read returned. -/
  hostData : Word32
deriving DecidableEq, Repr

/-- What stops the machine: a move about an engine that is not there. -/
inductive Fault where
  /-- Raised by a host move that names an engine the block does not have (no register block stands at such an
  address, R245), and by an opcode's meaning where `cur` names no decoder. Safe: nothing goes on. -/
  | noSuchEngine
deriving DecidableEq, Repr

/-- What the model has no move for. -/
inductive Refusal where
  /-- Raised by an arm of `exec` whose instruction has no meaning yet. Safe. -/
  | notModelled (mnemonic : String)
  /-- Raised by a host access that is not an aligned 32-bit word: "the model refuses it" (R69). Safe. -/
  | notAWordAccess
  /-- Raised by a host move that connects a port of a BUSY engine, which breaks duty H-1 (R262, R270). Safe. -/
  | hostDuty
deriving DecidableEq, Repr

/-- An encoder after power-on reset (R55). Values R55 leaves unspecified are 0, and the ports are not
connected (log 4, 5). -/
def Encoder.reset : Encoder where
  estate := .idle
  regWidth := 0
  regHeight := 0
  regChannels := 0
  regColorspace := 0
  W := 0
  H := 0
  CH := 0
  CS := 0
  N := 0
  i := 0
  prev := Pixel.zero
  run := 0
  cache := Cache.initial
  q := []
  fifo := []
  outCount := 0
  errKind := 0
  errDetail := 0
  pixels := []
  sink := []
  sinkAnswers := []
  flushes := 0

/-- A decoder after power-on reset (R55). Values R55 leaves unspecified are 0, and the ports are not
connected (log 4, 5). -/
def Decoder.reset : Decoder where
  dstate := .idle
  regReq := 0
  regStrict := false
  REQ := 0
  STRICT := false
  hk := 0
  hbuf := 0
  W := 0
  H := 0
  SCH := 0
  CS := 0
  OCH := 0
  N := 0
  i := 0
  prev := Pixel.zero
  rrem := 0
  op := 0
  arg := []
  tbuf := []
  ra := 0
  cache := Cache.initial
  inCount := 0
  errKind := 0
  errDetail := 0
  source := []
  pixelSink := []

/-- A block of `nEnc` encoders and `nDec` decoders after power-on reset (R55, R255). -/
def State.resetWith (nEnc nDec : Nat) : State where
  enc := List.replicate nEnc Encoder.reset
  dec := List.replicate nDec Decoder.reset
  cur := 0
  agenda := []
  draws := 0
  hostData := 0

/-- The block with the default numbers of engines (R6) after power-on reset (log 2). -/
def State.reset : State := State.resetWith 1 1

end Sys2Proof.Machine
end

