-- ==== Sys2Proof/Machine/Flags.lean ====
section
/-! DEFINITION. The status flags, the error codes and the completion output (spec 10_state.md R21, R23, R32,
R33, R42, R48; 60_exceptions.md R226-R230, R240). -/

namespace Sys2Proof.Machine

/-- `err_kind` of an error (R226). -/
def JobError.kindCode : JobError → BitVec 4
  | .argReqChannels => 1
  | .argWidth => 1
  | .argHeight => 1
  | .argChannels => 1
  | .argColorspace => 1
  | .argPixelCount => 1
  | .formatMagic => 2
  | .formatWidth => 2
  | .formatHeight => 2
  | .formatChannels => 2
  | .formatColorspace => 2
  | .formatTrailer => 2
  | .truncatedHeader => 3
  | .truncatedOpcode => 3
  | .truncatedTrailer => 3
  | .ioSource => 4
  | .ioSink => 4

/-- `err_detail` of an error (R227-R230). -/
def JobError.detailCode : JobError → BitVec 8
  | .argReqChannels => 1
  | .argWidth => 2
  | .argHeight => 3
  | .argChannels => 4
  | .argColorspace => 5
  | .argPixelCount => 6
  | .formatMagic => 1
  | .formatWidth => 2
  | .formatHeight => 3
  | .formatChannels => 4
  | .formatColorspace => 5
  | .formatTrailer => 6
  | .truncatedHeader => 1
  | .truncatedOpcode => 2
  | .truncatedTrailer => 3
  | .ioSource => 1
  | .ioSink => 2

/-- BUSY of an encoder (R21). -/
def Encoder.busy (x : Encoder) : Bool :=
  decide (x.estate = .ePix) || decide (x.estate = .eTrl) || decide (x.estate = .eFlush)

/-- DONE of an encoder (R32). -/
def Encoder.isDone (x : Encoder) : Bool := decide (x.estate = .done)

/-- ERR of an encoder (R32). -/
def Encoder.isErr (x : Encoder) : Bool := decide (x.estate = .err)

/-- BUSY of a decoder (R23). -/
def Decoder.busy (x : Decoder) : Bool :=
  decide (x.dstate = .dHdr) || decide (x.dstate = .dOp) || decide (x.dstate = .dArg) ||
    decide (x.dstate = .dRun) || decide (x.dstate = .dTrl) || decide (x.dstate = .dRa)

/-- DONE of a decoder (R32). -/
def Decoder.isDone (x : Decoder) : Bool := decide (x.dstate = .done)

/-- ERR of a decoder (R32). -/
def Decoder.isErr (x : Decoder) : Bool := decide (x.dstate = .err)

/-- The STATUS word: BUSY [0], DONE [1], ERR [2], ERR_KIND [7:4], ERR_DETAIL [15:8], the rest reserved 0; kind
and detail read 0 unless ERR = 1 (R32, R42, R48). -/
def statusWord (busy done err : Bool) (kind : BitVec 4) (detail : BitVec 8) : Word32 :=
  0#16 ++ (if err then detail else 0) ++ (if err then kind else 0) ++
    (0#1 ++ BitVec.ofBool err ++ BitVec.ofBool done ++ BitVec.ofBool busy)

/-- ENC.STATUS (R42). -/
def Encoder.status (x : Encoder) : Word32 :=
  statusWord x.busy x.isDone x.isErr x.errKind x.errDetail

/-- DEC.STATUS (R48). -/
def Decoder.status (x : Decoder) : Word32 :=
  statusWord x.busy x.isDone x.isErr x.errKind x.errDetail

/-- The level output `irq` of an encoder (R33, R240). -/
def Encoder.irq (x : Encoder) : Bool := x.isDone || x.isErr

/-- The level output `irq` of a decoder (R33, R240). -/
def Decoder.irq (x : Decoder) : Bool := x.isDone || x.isErr

end Sys2Proof.Machine
end

