-- ==== Sys2Proof/Machine/Operands.lean ====
section
/-! DEFINITION. Channel arithmetic, the hash indexer, and the pixel forms at the ports (spec 00_scope.md R8;
40_color_cache.md R110; 41_decoder.md R135, R136; 42_encoder.md R171, R172). -/

namespace Sys2Proof.Machine

/-- `wrap8(x) = x mod 256` (R8). -/
def wrap8 (x : Int) : Byte := BitVec.ofInt 8 x

/-- `s8(v)`: the two's-complement reading of a byte (R8). -/
def s8 (v : Byte) : Int := v.toInt

/-- A channel plus a delta: the mathematical sum, wrapped (R8, R143, R144). -/
def addDelta (c : Byte) (d : Int) : Byte := wrap8 (c.toNat + d)

/-- `s8(wrap8(cur - prev))`, the encoder's channel delta (R172). -/
def delta (cur prev : Byte) : Int := s8 (wrap8 ((cur.toNat : Int) - prev.toNat))

/-- `s8(wrap8(x - y))` of two deltas (R172). -/
def deltaDiff (x y : Int) : Int := s8 (wrap8 (x - y))

/-- The hash indexer: `(r·3 + g·5 + b·7 + a·11) mod 64` (R110). -/
def hashOf (p : Pixel) : BitVec 6 :=
  BitVec.ofNat 6 (p.r.toNat * 3 + p.g.toNat * 5 + p.b.toNat * 7 + p.a.toNat * 11)

/-- `OCH`: the requested count, or the stored one where 0 is requested (R135). -/
def outChannels (REQ SCH : Byte) : Byte := if REQ = 0 then SCH else REQ

/-- `Out(p)`: the channels of an output beat. Alpha is 255 in a stream of 3 stored channels (R136; log 15 for
counts other than 3 and 4). -/
def outBeat (OCH SCH : Byte) (p : Pixel) : List Byte :=
  if OCH = 3 then [p.r, p.g, p.b]
  else [p.r, p.g, p.b, if SCH = 3 then 255 else p.a]

/-- Pixel formation from a source beat: alpha 255 where the image has 3 channels (R171). -/
def formPixel (CH : Byte) (bytes : List Byte) : Pixel :=
  ⟨bytes.getD 0 0, bytes.getD 1 0, bytes.getD 2 0, if CH = 3 then 255 else bytes.getD 3 0⟩

/-- `W × H`, exact in 64 bits (R22, R135). -/
def pixelCount (W H : Word32) : Word64 := W.setWidth 64 * H.setWidth 64

/-- A width or height that is neither 0 nor above `MAX_DIM` (R129, R130, R165). -/
def dimOk (c : Params) (v : Word32) : Bool := decide (v ≠ 0) && decide (v.toNat ≤ c.maxDim)

/-- A stored or descriptor channel count, 3 or 4 (R131, R165). -/
def channelsOk (v : Byte) : Bool := decide (v = 3) || decide (v = 4)

/-- A colour-space tag, 0 or 1 (R132, R165). -/
def colorspaceOk (v : Byte) : Bool := decide (v = 0) || decide (v = 1)

/-- A requested channel count, 0, 3 or 4 (R125). -/
def requestOk (v : Byte) : Bool := decide (v = 0) || decide (v = 3) || decide (v = 4)

/-- `{v[23:0], b}`: the header assembly register takes one more byte (R127). -/
def shiftIn (v : Word32) (b : Byte) : Word32 := v.extractLsb' 0 24 ++ b

end Sys2Proof.Machine
end

