-- ==== Sys2Proof/Machine/Ops.lean ====
section
/-! DEFINITION. The operations the steps share: the cache, the ports, raising an error and leaving it by a job
start, producing a pixel, emitting bytes (spec 00_scope.md R10; 20_memory.md R60-R65; 40_color_cache.md
R112-R113; 41_decoder.md R125, R137, R152; 42_encoder.md R165, R167; 60_exceptions.md R231). -/

namespace Sys2Proof.Machine

/-! ### The color cache -/

/-- `CacheRead(s)` (R112). -/
def cacheRead (slots : Cache) (s : BitVec 6) : Pixel := slots[s.toNat]

/-- `CacheWrite(s, p)`: the whole slot, unconditionally (R113). -/
def cacheWrite (slots : Cache) (s : BitVec 6) (p : Pixel) : Cache := slots.set s.toNat p

/-! ### The decoder's ports -/

/-- The answers of `ReadByte()` (R62). -/
inductive ReadAnswer where
  | byte (b : Byte)
  | ended
  | error
deriving DecidableEq, Repr

/-- `ReadByte()`: a byte is consumed and counted, `End` and `Error` consume nothing (R61, R62, R70; log 6). -/
def Decoder.readByte (x : Decoder) : ReadAnswer × Decoder :=
  match x.source with
  | [] => (.ended, x)
  | .byte b :: rest => (.byte b, { x with source := rest, inCount := x.inCount + 1 })
  | .error :: rest => (.error, { x with source := rest })

/-! ### Errors -/

/-- `raise Error(kind, detail)` in a decoder (R231): the error record is written and the engine halts in ERR.
The source's position and the pixel sink's contents are unspecified from here on (R232): the free values
number `fr` (log 9). -/
def Decoder.raise (e : JobError) (fr : Nat) (x : Decoder) : Decoder :=
  { x with
    errKind := e.kindCode
    errDetail := e.detailCode
    dstate := .err
    source := Config.freeSource fr
    pixelSink := Config.freePixelSink fr }

/-- `raise Error(kind, detail)` in an encoder (R231): as in a decoder, and the queue and the FIFO are discarded.
The sink's contents are unspecified from here on (R232): the free value number `fr` (log 9). -/
def Encoder.raise (e : JobError) (fr : Nat) (x : Encoder) : Encoder :=
  { x with
    errKind := e.kindCode
    errDetail := e.detailCode
    estate := .err
    q := []
    fifo := []
    sink := Config.freeSink fr }

/-! ### Job start: the only way out of ERR and DONE (R239) -/

/-- Every register of R24 at its job-start value, the FSM in D_HDR (R125). The ports are left as they are
(log 12). -/
def Decoder.initJob (x : Decoder) : Decoder :=
  { x with
    REQ := x.regReq
    STRICT := x.regStrict
    hk := 0
    hbuf := 0
    W := 0
    H := 0
    SCH := 0
    CS := 0
    OCH := 0
    N := 0
    i := 0
    prev := Pixel.start
    rrem := 0
    op := 0
    arg := []
    tbuf := []
    ra := 0
    cache := Cache.initial
    inCount := 0
    errKind := 0
    errDetail := 0
    dstate := .dHdr }

/-- An accepted START on a decoder (R125). -/
def Decoder.jobStart (fr : Nat) (x : Decoder) : Decoder :=
  if requestOk x.regReq then x.initJob else x.initJob.raise .argReqChannels fr

/-- The first failing check of an encoder's descriptor, in the order of R165. -/
def Encoder.descriptorError (c : Params) (x : Encoder) : Option JobError :=
  if !dimOk c x.W then some .argWidth
  else if !dimOk c x.H then some .argHeight
  else if !channelsOk x.CH then some .argChannels
  else if !colorspaceOk x.CS then some .argColorspace
  else none

/-- Every register of R22 at its job-start value, the FSM in E_PIX and the header in the queue (R165; log 16
for `N` where the descriptor is then refused). -/
def Encoder.initJob (x : Encoder) : Encoder :=
  { x with
    W := x.regWidth
    H := x.regHeight
    CH := x.regChannels
    CS := x.regColorspace
    N := pixelCount x.regWidth x.regHeight
    i := 0
    prev := Pixel.start
    run := 0
    cache := Cache.initial
    q := headerBytes x.regWidth x.regHeight x.regChannels x.regColorspace
    fifo := []
    outCount := 0
    errKind := 0
    errDetail := 0
    estate := .ePix }

/-- An accepted START on an encoder (R165). -/
def Encoder.jobStart (c : Params) (fr : Nat) (x : Encoder) : Encoder :=
  match x.initJob.descriptorError c with
  | none => x.initJob
  | some e => x.initJob.raise e fr

/-! ### Completion -/

/-- A decoder's job completes (R152). -/
def Decoder.complete (x : Decoder) : Decoder := { x with dstate := .done }

/-- An encoder's job completes (R186). -/
def Encoder.complete (x : Encoder) : Encoder := { x with estate := .done }

/-! ### Pixel production -/

/-- `Produce(p)` (R137): the cache, one beat, `prev`, `i`. -/
def Decoder.produce (p : Pixel) (x : Decoder) : Decoder :=
  { x with
    cache := cacheWrite x.cache (hashOf p) p
    pixelSink := x.pixelSink ++ [outBeat x.OCH x.SCH p]
    prev := p
    i := x.i + 1 }

/-- `Next()` (R137). -/
def Decoder.advance (x : Decoder) : Decoder :=
  if x.i = x.N then { x with rrem := 0, dstate := .dTrl }
  else if 0 < x.rrem then { x with dstate := .dRun }
  else { x with dstate := .dOp }

/-! ### The encoder's queue and ports -/

/-- `emit(bytes)` of one opcode (R167). -/
def Encoder.emit (i : Instr) (x : Encoder) : Encoder := { x with q := x.q ++ encode i }

/-- `WriteByte(b)`: an accepted byte is appended and counted (R63). -/
def Encoder.writeByte (b : Byte) (x : Encoder) : SinkAnswer × Encoder :=
  match x.sinkAnswers with
  | [] => (.ok, { x with sink := x.sink ++ [b], outCount := x.outCount + 1 })
  | .ok :: rest =>
    (.ok, { x with sink := x.sink ++ [b], outCount := x.outCount + 1, sinkAnswers := rest })
  | .error :: rest => (.error, { x with sinkAnswers := rest })

/-- `Flush()` (R63). -/
def Encoder.flushPort (x : Encoder) : SinkAnswer × Encoder :=
  match x.sinkAnswers with
  | [] => (.ok, { x with flushes := x.flushes + 1 })
  | .ok :: rest => (.ok, { x with flushes := x.flushes + 1, sinkAnswers := rest })
  | .error :: rest => (.error, { x with sinkAnswers := rest })

/-- `ReadPixel()`: the next `CH` bytes of the pixel buffer, or `End` (`none`) where fewer are left (R64, log 8). -/
def Encoder.readPixel (x : Encoder) : Option (List Byte) × Encoder :=
  if x.CH.toNat ≤ x.pixels.length then
    (some (x.pixels.take x.CH.toNat), { x with pixels := x.pixels.drop x.CH.toNat })
  else (none, x)

/-! ### Engines in the block -/

/-- Decoder `d` becomes `x`. -/
def State.putDec (d : Nat) (x : Decoder) (s : State) : State := { s with dec := s.dec.set d x }

/-- Encoder `e` becomes `x`. -/
def State.putEnc (e : Nat) (x : Encoder) (s : State) : State := { s with enc := s.enc.set e x }

/-- An opcode acts on the decoder whose step is being taken, and on nothing else (R10, R243, R246). -/
def State.onDecoder (f : Decoder → Decoder) (s : State) : Host.Outcome State Fault Refusal :=
  match s.dec[s.cur]? with
  | none => .fault .noSuchEngine
  | some x => .next (s.putDec s.cur (f x))

/-- The decoded Image (R152). -/
structure Image where
  width : Word32
  height : Word32
  channels : Byte
  colorSpace : Byte
  pixels : List Byte
deriving DecidableEq, Repr

/-- The `N` beats of the job that a decoder in DONE has completed: the sink's last ones, since it may hold beats of
jobs before (R65, R152, R258; log 12). -/
def Decoder.jobBeats (x : Decoder) : List (List Byte) :=
  x.pixelSink.drop (x.pixelSink.length - x.N.toNat)

/-- What a decoder that is DONE has decoded (R65, R152). -/
def Decoder.image (x : Decoder) : Image := ⟨x.W, x.H, x.OCH, x.CS, x.jobBeats.flatten⟩

end Sys2Proof.Machine
end

