-- ==== Sys2Proof/Machine/BackReference.lean ====
section
/-! DEFINITION. The opcode INDEX (spec 41_decoder.md R142). -/

namespace Sys2Proof.Machine

/-- INDEX (R142): the pixel is the slot's contents verbatim, read before the step's cache write (R114, R147). -/
def execIndex (slot : BitVec 6) (s : State) : Host.Outcome State Fault Refusal :=
  s.onDecoder fun x => (x.produce (cacheRead x.cache slot)).advance

end Sys2Proof.Machine
end

