-- ==== Sys2Proof/Machine/Delta.lean ====
section
/-! DEFINITION. The delta opcodes DIFF and LUMA (spec 41_decoder.md R143, R144). -/

namespace Sys2Proof.Machine

/-- DIFF (R143): a delta to each color channel modulo 256, alpha kept. -/
def execDiff (dr dg db : Int) (s : State) : Host.Outcome State Fault Refusal :=
  s.onDecoder fun x =>
    (x.produce ⟨addDelta x.prev.r dr, addDelta x.prev.g dg, addDelta x.prev.b db, x.prev.a⟩).advance

/-- LUMA (R144): the green delta, and the red and blue deltas given less the green one; modulo 256, alpha kept. -/
def execLuma (dg drdg dbdg : Int) (s : State) : Host.Outcome State Fault Refusal :=
  s.onDecoder fun x =>
    (x.produce
      ⟨addDelta x.prev.r (dg + drdg), addDelta x.prev.g dg, addDelta x.prev.b (dg + dbdg), x.prev.a⟩).advance

end Sys2Proof.Machine
end

