-- ==== Sys2Proof/Machine/Literal.lean ====
section
/-! DEFINITION. The literal opcodes RGB and RGBA (spec 41_decoder.md R140, R141). -/

namespace Sys2Proof.Machine

/-- RGB (R140): the three channels are the operands, alpha is kept. -/
def execRgb (r g b : Byte) (s : State) : Host.Outcome State Fault Refusal :=
  s.onDecoder fun x => (x.produce ⟨r, g, b, x.prev.a⟩).advance

/-- RGBA (R141): the four channels are the operands. -/
def execRgba (r g b a : Byte) (s : State) : Host.Outcome State Fault Refusal :=
  s.onDecoder fun x => (x.produce ⟨r, g, b, a⟩).advance

end Sys2Proof.Machine
end

