-- ==== Sys2Proof/Machine/Run.lean ====
section
/-! DEFINITION. The opcode RUN and its repetitions (spec 41_decoder.md R145, R146). -/

namespace Sys2Proof.Machine

/-- RUN (R145): the first repetition of the previous pixel; `count - 1` are left for `D_RUN`. -/
def execRun (count : Nat) (s : State) : Host.Outcome State Fault Refusal :=
  s.onDecoder fun x =>
    ({ x with rrem := BitVec.ofNat 6 (count - 1) }.produce x.prev).advance

/-- One repetition in state `D_RUN` (R146). -/
def Decoder.repeatRun (x : Decoder) : Decoder :=
  ({ x with rrem := x.rrem - 1 }.produce x.prev).advance

end Sys2Proof.Machine
end

