-- ==== Sys2Proof/Machine/Framing.lean ====
section
/-! DEFINITION. The decoder's steps around the opcodes: header, trailer, read-ahead (spec 41_decoder.md
R127-R135, R150, R151; 43_byte_io.md R214). -/

namespace Sys2Proof.Machine

/-- The magic check, `hk` = 4 (R128). -/
def Decoder.checkMagic (fr : Nat) (x : Decoder) : Decoder :=
  if x.hbuf = magicWord then { x with hbuf := 0 } else x.raise .formatMagic fr

/-- The width check, `hk` = 8: the field is stored before it is checked (R129). -/
def Decoder.checkWidth (c : Params) (fr : Nat) (x : Decoder) : Decoder :=
  let y := { x with W := x.hbuf, hbuf := 0 }
  if dimOk c y.W then y else y.raise .formatWidth fr

/-- The height check, `hk` = 12 (R130). -/
def Decoder.checkHeight (c : Params) (fr : Nat) (x : Decoder) : Decoder :=
  let y := { x with H := x.hbuf, hbuf := 0 }
  if dimOk c y.H then y else y.raise .formatHeight fr

/-- The channel check, `hk` = 13 (R131). -/
def Decoder.checkChannels (b : Byte) (fr : Nat) (x : Decoder) : Decoder :=
  let y := { x with SCH := b }
  if channelsOk b then y else y.raise .formatChannels fr

/-- The colour-space check, `hk` = 14, and header completion (R132, R135). -/
def Decoder.checkColorspace (b : Byte) (fr : Nat) (x : Decoder) : Decoder :=
  let y := { x with CS := b }
  if colorspaceOk b then
    { y with N := pixelCount y.W y.H, OCH := outChannels y.REQ y.SCH, dstate := .dOp }
  else y.raise .formatColorspace fr

/-- The field check that a header byte `b` completes, if any (R127). -/
def Decoder.headerField (c : Params) (b : Byte) (fr : Nat) (x : Decoder) : Decoder :=
  if x.hk = 4 then x.checkMagic fr
  else if x.hk = 8 then x.checkWidth c fr
  else if x.hk = 12 then x.checkHeight c fr
  else if x.hk = 13 then x.checkChannels b fr
  else if x.hk = 14 then x.checkColorspace b fr
  else x

/-- A step in `D_HDR` (R127). -/
def Decoder.headerStep (c : Params) (fr : Nat) (x : Decoder) : Decoder :=
  match x.readByte with
  | (.ended, y) => y.raise .truncatedHeader fr
  | (.error, y) => y.raise .ioSource fr
  | (.byte b, y) => { y with hk := y.hk + 1, hbuf := shiftIn y.hbuf b }.headerField c b fr

/-- The comparison after the eighth trailer byte (R150). -/
def Decoder.checkTrailer (fr : Nat) (x : Decoder) : Decoder :=
  if x.tbuf = trailerBytes then
    if x.STRICT then x.complete else { x with dstate := .dRa }
  else x.raise .formatTrailer fr

/-- A step in `D_TRL` (R150). -/
def Decoder.trailerStep (fr : Nat) (x : Decoder) : Decoder :=
  match x.readByte with
  | (.ended, y) => y.raise .truncatedTrailer fr
  | (.error, y) => y.raise .ioSource fr
  | (.byte b, y) =>
    let z := { y with tbuf := y.tbuf ++ [b] }
    if z.tbuf.length = 8 then z.checkTrailer fr else z

/-- A step in `D_RA` (R214): complete, or read one byte and discard it. Where `ra = RA_MAX` completing is the
only move. `End` and `Error` complete the job with no error. -/
def Decoder.readAheadStep (c : Params) (ch : ReadAhead) (x : Decoder) : Decoder :=
  match ch with
  | .complete => x.complete
  | .read =>
    if x.ra < c.raMax then
      match x.readByte with
      | (.byte _, y) => { y with ra := y.ra + 1 }
      | (.ended, y) => y.complete
      | (.error, y) => y.complete
    else x.complete

end Sys2Proof.Machine
end

