-- ==== Sys2Proof/Machine/Fetch.lean ====
section
/-! DEFINITION. The decoder's step: opcode and operand fetch, dispatch to `exec`, and the steps around the opcodes
(spec 41_decoder.md R126, R138, R139, R146). -/

namespace Sys2Proof.Machine

/-- Opcode fetch in `D_OP` (R138): an opcode of one byte executes in the same step. -/
def fetchOpcode (d : Nat) (x : Decoder) (fr : Nat) (s : State) : Host.Outcome State Fault Refusal :=
  match x.readByte with
  | (.ended, y) => .next (s.putDec d (y.raise .truncatedOpcode fr))
  | (.error, y) => .next (s.putDec d (y.raise .ioSource fr))
  | (.byte b, y) =>
    if len b = 1 then exec (decodeFields b []) (s.putDec d { y with op := b, arg := [] })
    else .next (s.putDec d { y with op := b, arg := [], dstate := .dArg })

/-- Operand fetch in `D_ARG` (R139): the last operand byte executes the opcode in the same step. -/
def fetchOperand (d : Nat) (x : Decoder) (fr : Nat) (s : State) : Host.Outcome State Fault Refusal :=
  match x.readByte with
  | (.ended, y) => .next (s.putDec d (y.raise .truncatedOpcode fr))
  | (.error, y) => .next (s.putDec d (y.raise .ioSource fr))
  | (.byte b, y) =>
    if y.arg.length + 1 = len y.op - 1 then
      exec (decodeFields y.op (y.arg ++ [b])) (s.putDec d { y with arg := y.arg ++ [b] })
    else .next (s.putDec d { y with arg := y.arg ++ [b] })

/-- Decoder `d`'s turn: exactly one action (R126). An engine that is not there, or not BUSY, takes no step
(log 13). -/
def decoderTurn (c : Params) (d : Nat) (ch : ReadAhead) (fr : Nat) (s : State) :
    Host.Outcome State Fault Refusal :=
  match s.dec[d]? with
  | none => .next s
  | some x =>
    match x.dstate with
    | .idle => .next s
    | .dHdr => .next (s.putDec d (x.headerStep c fr))
    | .dOp => fetchOpcode d x fr { s with cur := d }
    | .dArg => fetchOperand d x fr { s with cur := d }
    | .dRun => .next (s.putDec d x.repeatRun)
    | .dTrl => .next (s.putDec d (x.trailerStep fr))
    | .dRa => .next (s.putDec d (x.readAheadStep c ch))
    | .done => .next s
    | .err => .next s

/-- A decoder in the middle of the opcode stream of a 64 × 1 RGBA image, right after its header: what
`withFetchWord` loads where no image is being decoded (log 14). -/
def Decoder.loaded (x : Decoder) : Decoder :=
  { x.initJob with
    hk := 14
    W := 64
    H := 1
    SCH := 4
    CS := 0
    OCH := outChannels x.regReq 4
    N := 64
    inCount := 14
    dstate := .dOp }

/-- Decoder `x` with the opcode `bytes` about to be executed: every byte but the opcode's last has been fetched,
and the last stands next at the source (R138, R139; log 14). -/
def Decoder.withOpcode (bytes : List Byte) (x : Decoder) : Decoder :=
  let y := if x.i < x.N then x else x.loaded
  let op := bytes.getD 0 0
  if len op = 1 then { y with dstate := .dOp, rrem := 0, source := .byte op :: y.source }
  else
    { y with
      dstate := .dArg
      rrem := 0
      op := op
      arg := bytes.tail.take (len op - 2)
      inCount := y.inCount + BitVec.ofNat 64 (len op - 1)
      source := .byte (bytes.getD (len op - 1) 0) :: y.source }

end Sys2Proof.Machine
end

