-- ==== Sys2Proof/Machine/HostRegs.lean ====
section
/-! DEFINITION. The host's view of the engines: register reads and writes, and the connection of the ports (spec
10_state.md R40-R53; 20_memory.md R69-R70; 43_byte_io.md R218-R219; 70_reset_and_hazards.md R258-R262). -/

namespace Sys2Proof.Machine

/-- A read of an encoder register (R40-R46). Unlisted offsets and CTRL read 0. -/
def Encoder.readReg (offset : Nat) (x : Encoder) : Word32 :=
  if offset = 0x04 then x.status
  else if offset = 0x08 then x.regWidth
  else if offset = 0x0C then x.regHeight
  else if offset = 0x10 then 0#16 ++ x.regColorspace ++ x.regChannels
  else if offset = 0x14 then x.outCount.extractLsb' 0 32
  else if offset = 0x18 then x.outCount.extractLsb' 32 32
  else 0

/-- A read of a decoder register (R40, R47-R53). Unlisted offsets and CTRL read 0. -/
def Decoder.readReg (offset : Nat) (x : Decoder) : Word32 :=
  if offset = 0x04 then x.status
  else if offset = 0x08 then 0#23 ++ BitVec.ofBool x.regStrict ++ x.regReq
  else if offset = 0x0C then x.W
  else if offset = 0x10 then x.H
  else if offset = 0x14 then 0#8 ++ x.OCH ++ x.CS ++ x.SCH
  else if offset = 0x18 then x.inCount.extractLsb' 0 32
  else if offset = 0x1C then x.inCount.extractLsb' 32 32
  else 0

/-- A write of an encoder register (R40-R45): ignored while BUSY, on read-only registers and on unlisted offsets;
CTRL with bit 0 = 1 is an accepted START. -/
def Encoder.writeReg (c : Params) (offset : Nat) (v : Word32) (fr : Nat) (x : Encoder) : Encoder :=
  if x.busy then x
  else if offset = 0x00 then if v.getLsbD 0 then x.jobStart c fr else x
  else if offset = 0x08 then { x with regWidth := v }
  else if offset = 0x0C then { x with regHeight := v }
  else if offset = 0x10 then
    { x with regChannels := v.extractLsb' 0 8, regColorspace := v.extractLsb' 8 8 }
  else x

/-- A write of a decoder register (R40, R47-R53): as for an encoder. -/
def Decoder.writeReg (offset : Nat) (v : Word32) (fr : Nat) (x : Decoder) : Decoder :=
  if x.busy then x
  else if offset = 0x00 then if v.getLsbD 0 then x.jobStart fr else x
  else if offset = 0x08 then { x with regReq := v.extractLsb' 0 8, regStrict := v.getLsbD 8 }
  else x

/-- An aligned 32-bit word, the only host access there is (R40, R67, R69). -/
def HostAddr.isWord (a : HostAddr) : Bool := decide (a.size = 4) && decide (a.offset % 4 = 0)

/-- A host write (R218). It takes effect in its own step, before the engine's next one (R73). -/
def State.hostWrite (c : Params) (a : HostAddr) (v : Word32) (fr : Nat) (s : State) :
    Host.Outcome State Fault Refusal :=
  if a.isWord then
    match a.engine with
    | .enc e =>
      match s.enc[e]? with
      | none => .fault .noSuchEngine
      | some x => .next (s.putEnc e (x.writeReg c a.offset v fr))
    | .dec d =>
      match s.dec[d]? with
      | none => .fault .noSuchEngine
      | some x => .next (s.putDec d (x.writeReg a.offset v fr))
  else .refused .notAWordAccess

/-- A host read (R218): always allowed, no side effect on an engine (R40, R70); the word goes to `hostData`
(log 17). -/
def State.hostRead (a : HostAddr) (s : State) : Host.Outcome State Fault Refusal :=
  if a.isWord then
    match a.engine with
    | .enc e =>
      match s.enc[e]? with
      | none => .fault .noSuchEngine
      | some x => .next { s with hostData := x.readReg a.offset }
    | .dec d =>
      match s.dec[d]? with
      | none => .fault .noSuchEngine
      | some x => .next { s with hostData := x.readReg a.offset }
  else .refused .notAWordAccess

/-- The host connects a port of decoder `d`, which `f` describes: never while it is BUSY (R262, R270; log 12). -/
def State.connectDec (d : Nat) (f : Decoder → Decoder) (s : State) : Host.Outcome State Fault Refusal :=
  match s.dec[d]? with
  | none => .fault .noSuchEngine
  | some x => if x.busy then .refused .hostDuty else .next (s.putDec d (f x))

/-- The host connects a port of encoder `e`, which `f` describes: never while it is BUSY (R262, R270; log 12). -/
def State.connectEnc (e : Nat) (f : Encoder → Encoder) (s : State) : Host.Outcome State Fault Refusal :=
  match s.enc[e]? with
  | none => .fault .noSuchEngine
  | some x => if x.busy then .refused .hostDuty else .next (s.putEnc e (f x))

/-- A byte source is connected (R261). -/
def Decoder.withSource (items : List SourceItem) (x : Decoder) : Decoder := { x with source := items }

/-- An empty output buffer is connected to the pixel sink (R261, R270 H-2). -/
def Decoder.withPixelSink (x : Decoder) : Decoder := { x with pixelSink := [] }

/-- An empty destination stream is connected to the byte sink (R260); `answers` is what it is going to answer. -/
def Encoder.withSink (answers : List SinkAnswer) (x : Encoder) : Encoder :=
  { x with sink := [], sinkAnswers := answers, flushes := 0 }

/-- An Image's pixel buffer is connected to the pixel source (R260, R270 H-3). -/
def Encoder.withPixels (bytes : List Byte) (x : Encoder) : Encoder := { x with pixels := bytes }

end Sys2Proof.Machine
end

