-- ==== Sys2Proof/Machine/Selector.lean ====
section
/-! DEFINITION. The encoder's opcode selector (spec 42_encoder.md R170-R182). -/

namespace Sys2Proof.Machine

/-- The opcode for a pixel that differs from the previous one and misses the cache: DIFF, LUMA, RGB or RGBA, first
that fits (R177-R180, R182). -/
def missOpcode (prev p : Pixel) : Instr :=
  if p.a = prev.a then
    let dr := delta p.r prev.r
    let dg := delta p.g prev.g
    let db := delta p.b prev.b
    let drdg := deltaDiff dr dg
    let dbdg := deltaDiff db dg
    if inRange (-2) 1 dr && inRange (-2) 1 dg && inRange (-2) 1 db then .diff dr dg db
    else if inRange (-32) 31 dg && inRange (-8) 7 drdg && inRange (-8) 7 dbdg then .luma dg drdg dbdg
    else .rgb p.r p.g p.b
  else .rgba p.r p.g p.b p.a

/-- A pending run is emitted and cleared (R174). -/
def Encoder.flushRun (x : Encoder) : Encoder :=
  if 0 < x.run then { x.emit (.run x.run.toNat) with run := 0 } else x

/-- The run path: `p` equals the previous pixel; `last` says that it is the image's last (R173). -/
def Encoder.extendRun (last : Bool) (x : Encoder) : Encoder :=
  let y := { x with run := x.run + 1 }
  if decide (y.run = 62) || last then y.flushRun else y

/-- The path of a pixel that differs from the previous one (R174-R180). -/
def Encoder.encodePixel (p : Pixel) (x : Encoder) : Encoder :=
  let y := x.flushRun
  if cacheRead y.cache (hashOf p) = p then y.emit (.index (hashOf p))
  else { y with cache := cacheWrite y.cache (hashOf p) p }.emit (missOpcode y.prev p)

/-- `Select(p)` (R172) with the state advance of R181. -/
def Encoder.selectPixel (p : Pixel) (x : Encoder) : Encoder :=
  let y := if p = x.prev then x.extendRun (decide (x.i + 1 = x.N)) else x.encodePixel p
  { y with prev := p, i := x.i + 1 }

end Sys2Proof.Machine
end

