-- ==== Sys2Proof/Machine/Serializer.lean ====
section
/-! DEFINITION. The encoder's actions and when each is enabled (spec 42_encoder.md R166-R170, R183-R186). -/

namespace Sys2Proof.Machine

/-- The table of R166: which actions are enabled. Only a BUSY encoder has one. -/
def Encoder.enabled (c : Params) (x : Encoder) : EncAction → Bool
  | .drain => x.busy && (!x.fifo.isEmpty || (decide (c.outBuf = 0) && !x.q.isEmpty))
  | .serialize => x.busy && (decide (0 < c.outBuf) && !x.q.isEmpty && decide (x.fifo.length < c.outBuf))
  | .select => decide (x.estate = .ePix) && x.q.isEmpty && decide (x.i < x.N)
  | .endPixels => decide (x.estate = .ePix) && x.q.isEmpty && decide (x.i = x.N)
  | .toFlush => decide (x.estate = .eTrl) && x.q.isEmpty && x.fifo.isEmpty
  | .flush => decide (x.estate = .eFlush)

/-- Serialize: the head of the queue moves to the tail of the FIFO (R168). -/
def Encoder.serialize (x : Encoder) : Encoder :=
  match x.q with
  | [] => x
  | b :: rest => { x with q := rest, fifo := x.fifo ++ [b] }

/-- Drain: the head byte of the FIFO, or of the queue where it is empty and `OUT_BUF = 0`, is offered to the sink
and removed once accepted (R168). -/
def Encoder.drain (fr : Nat) (x : Encoder) : Encoder :=
  match x.fifo, x.q with
  | b :: rest, _ =>
    match x.writeByte b with
    | (.ok, y) => { y with fifo := rest }
    | (.error, y) => y.raise .ioSink fr
  | [], b :: rest =>
    match x.writeByte b with
    | (.ok, y) => { y with q := rest }
    | (.error, y) => y.raise .ioSink fr
  | [], [] => x

/-- Select: fetch one pixel, form it, and choose its opcode, in one step (R170-R172). -/
def Encoder.selectStep (fr : Nat) (x : Encoder) : Encoder :=
  match x.readPixel with
  | (none, y) => y.raise .argPixelCount fr
  | (some bytes, y) => y.selectPixel (formPixel y.CH bytes)

/-- End of pixels: the trailer is emitted (R183). -/
def Encoder.endPixels (x : Encoder) : Encoder := { x with q := x.q ++ trailerBytes, estate := .eTrl }

/-- The final flush (R185, R186). -/
def Encoder.flushStep (fr : Nat) (x : Encoder) : Encoder :=
  match x.flushPort with
  | (.ok, y) => y.complete
  | (.error, y) => y.raise .ioSink fr

/-- What an action does, where it is enabled. -/
def Encoder.perform (a : EncAction) (fr : Nat) (x : Encoder) : Encoder :=
  match a with
  | .drain => x.drain fr
  | .serialize => x.serialize
  | .select => x.selectStep fr
  | .endPixels => x.endPixels
  | .toFlush => { x with estate := .eFlush }
  | .flush => x.flushStep fr

/-- An encoder's turn with action `a`: an action that is not enabled is no step (R166, log 13). -/
def Encoder.act (c : Params) (a : EncAction) (fr : Nat) (x : Encoder) : Encoder :=
  if x.enabled c a then x.perform a fr else x

end Sys2Proof.Machine
end

