-- ==== Sys2Proof/Machine/Moves.lean ====
section
/-! DEFINITION. What one move of one agent does to the block (spec 10_state.md R20; 20_memory.md R71-R73). -/

namespace Sys2Proof.Machine

/-- Encoder `e`'s turn (R166). An engine that is not there takes no step (log 13). -/
def encoderTurn (c : Params) (e : Nat) (a : EncAction) (fr : Nat) (s : State) :
    Host.Outcome State Fault Refusal :=
  match s.enc[e]? with
  | none => .next s
  | some x => .next (s.putEnc e (x.act c a fr))

/-- An engine's turn. -/
def takeTurn (c : Params) (t : Turn) (fr : Nat) (s : State) : Host.Outcome State Fault Refusal :=
  match t with
  | .enc e a => encoderTurn c e a fr s
  | .dec d ch => decoderTurn c d ch fr s

/-- A move of any agent. `fr` numbers the free values it may need. -/
def takeMove (c : Params) (m : Move) (fr : Nat) (s : State) : Host.Outcome State Fault Refusal :=
  match m with
  | .turn t => takeTurn c t fr s
  | .hostWrite a v => s.hostWrite c a v fr
  | .hostRead a => s.hostRead a
  | .connectSource d items => s.connectDec d (Decoder.withSource items)
  | .connectPixelSink d => s.connectDec d Decoder.withPixelSink
  | .connectSink e answers => s.connectEnc e (Encoder.withSink answers)
  | .connectPixels e bytes => s.connectEnc e (Encoder.withPixels bytes)

/-- The move that comes next: the head of the agenda, or the free turn number `draws` where it is empty (log 1). -/
def State.nextMove (s : State) : Move :=
  match s.agenda with
  | [] => .turn (Config.freeTurn s.draws)
  | m :: _ => m

/-- The state in which the next move is made: the agenda without it, the next free values not yet drawn (log 21). -/
def State.drawn (s : State) : State := { s with agenda := s.agenda.tail, draws := s.draws + 1 }

end Sys2Proof.Machine
end

