-- ==== Sys2Proof/Machine/Step.lean ====
section
/-! DEFINITION. One step of the block: one move of one agent (spec 10_state.md R20, 20_memory.md R71, R73). -/

namespace Sys2Proof.Machine

/-- The next move is made: a turn of one engine, or one move of the host. -/
def step (s : State) : Host.Outcome State Fault Refusal :=
  takeMove Config.params s.nextMove s.draws s.drawn

/-- `s` with an opcode, in the opcode table's numbering of its bits, as the one the very next step runs: decoder
`cur` gets the turn, all of the opcode but its last byte has been fetched, and the last byte stands next at its
source (log 14). -/
def State.withFetchWord (s : State) (nbits w : Nat) : State :=
  match s.dec[s.cur]? with
  | none => s
  | some x =>
    { s.putDec s.cur (x.withOpcode (tableBytes nbits w)) with
      agenda := .turn (.dec s.cur .complete) :: s.agenda }

end Sys2Proof.Machine
end

