-- ==== Sys2Proof/Machine/Reference.lean ====
section
/-! DEFINITION. The functional references: what a whole encoder job and a whole decoder job compute, as the spec's
own pseudocode gives it (spec 41_decoder.md R155; 42_encoder.md R190), and the two caches as functions of the
pixels (40_color_cache.md R116-R118). No step calls anything of this file. -/

namespace Sys2Proof.Machine

/-! ### EncodeStream (R190) -/

/-- The loop state of `EncodeStream`. -/
structure EncodeLoop where
  prev  : Pixel
  cache : Cache
  run   : Nat
deriving DecidableEq, Repr

/-- The loop state before pixel 0. -/
def EncodeLoop.start : EncodeLoop := ⟨Pixel.start, Cache.initial, 0⟩

/-- A pending run as an opcode list (R173, R174). -/
def pendingRun (n : Nat) : List Instr := if 0 < n then [.run n] else []

/-- `Select(p)` (R172): the opcodes it emits and the loop state after it. -/
def EncodeLoop.select (last : Bool) (p : Pixel) (st : EncodeLoop) : List Instr × EncodeLoop :=
  if p = st.prev then
    if decide (st.run + 1 = 62) || last then ([.run (st.run + 1)], ⟨p, st.cache, 0⟩)
    else ([], ⟨p, st.cache, st.run + 1⟩)
  else if cacheRead st.cache (hashOf p) = p then
    (pendingRun st.run ++ [.index (hashOf p)], ⟨p, st.cache, 0⟩)
  else (pendingRun st.run ++ [missOpcode st.prev p], ⟨p, cacheWrite st.cache (hashOf p) p, 0⟩)

/-- The opcodes of the pixels from some pixel on, the last of them being the image's last. -/
def encodeOps (st : EncodeLoop) : List Pixel → List Instr
  | [] => []
  | p :: rest => (st.select rest.isEmpty p).1 ++ encodeOps (st.select rest.isEmpty p).2 rest

/-- The bytes of an opcode list. -/
def encodeAll (ops : List Instr) : List Byte := ops.flatMap encode

/-- The first `n` pixels of a pixel buffer, beat j carrying bytes `j·CH .. j·CH + CH - 1` (R64, R171). -/
def takePixels (CH : Byte) : Nat → List Byte → List Pixel
  | 0, _ => []
  | n + 1, bytes => formPixel CH (bytes.take CH.toNat) :: takePixels CH n (bytes.drop CH.toNat)

/-- `EncodeStream(W, H, CH, CS, pixels)` (R190). -/
def encodeStream (W H : Word32) (CH CS : Byte) (bytes : List Byte) : List Byte :=
  headerBytes W H CH CS ++
    encodeAll (encodeOps EncodeLoop.start (takePixels CH (W.toNat * H.toNat) bytes)) ++ trailerBytes

/-! ### DecodeStream (R155) -/

/-- `next()`: one byte of the source, or the error of its phase (R155). -/
def nextByte (ended : JobError) : List SourceItem → Except JobError (Byte × List SourceItem)
  | [] => .error ended
  | .byte b :: rest => .ok (b, rest)
  | .error :: _ => .error .ioSource

/-- `next()×n`. -/
def nextBytes (ended : JobError) : Nat → List SourceItem → Except JobError (List Byte × List SourceItem)
  | 0, src => .ok ([], src)
  | n + 1, src =>
    match nextByte ended src with
    | .error e => .error e
    | .ok (b, rest) =>
      match nextBytes ended n rest with
      | .error e => .error e
      | .ok (bs, rest') => .ok (b :: bs, rest')

/-- The big-endian word of four bytes (R66). -/
def be32 (bs : List Byte) : Word32 := bs.getD 0 0 ++ bs.getD 1 0 ++ bs.getD 2 0 ++ bs.getD 3 0

/-- The pixel an opcode gives and how often it is repeated (R155). -/
def reconstruct (prev : Pixel) (cache : Cache) : Instr → Pixel × Nat
  | .rgb r g b => (⟨r, g, b, prev.a⟩, 1)
  | .rgba r g b a => (⟨r, g, b, a⟩, 1)
  | .index s => (cacheRead cache s, 1)
  | .diff dr dg db =>
    (⟨wrap8 (prev.r.toNat + dr), wrap8 (prev.g.toNat + dg), wrap8 (prev.b.toNat + db), prev.a⟩, 1)
  | .luma dg drdg dbdg =>
    (⟨wrap8 (prev.r.toNat + (dg + drdg)), wrap8 (prev.g.toNat + dg), wrap8 (prev.b.toNat + (dg + dbdg)),
      prev.a⟩, 1)
  | .run count => (prev, count)

/-- The pixel loop of `DecodeStream` with `left = N - i` pixels to go: the pixels it produces, whose beats are `out`,
and the source after it. Every round produces a pixel, so `fuel = left` rounds are enough. -/
def decodeLoop : Nat → Nat → Pixel → Cache → List SourceItem → Except JobError (List Pixel × List SourceItem)
  | 0, _, _, _, src => .ok ([], src)
  | fuel + 1, left, prev, cache, src =>
    if left = 0 then .ok ([], src)
    else
      match nextByte .truncatedOpcode src with
      | .error e => .error e
      | .ok (b, src1) =>
        match nextBytes .truncatedOpcode (len b - 1) src1 with
        | .error e => .error e
        | .ok (arg, src2) =>
          let pr := reconstruct prev cache (decodeFields b arg)
          let k := min pr.2 left
          match decodeLoop fuel (left - k) pr.1 (cacheWrite cache (hashOf pr.1) pr.1) src2 with
          | .error e => .error e
          | .ok (ps, src3) => .ok (List.replicate k pr.1 ++ ps, src3)

/-- A field of `n` bytes with its check: it is read whole, then checked (R127, R150). -/
def readField (ended : JobError) (n : Nat) (good : List Byte → Bool) (bad : JobError)
    (src : List SourceItem) : Except JobError (List Byte × List SourceItem) :=
  match nextBytes ended n src with
  | .error e => .error e
  | .ok (bs, rest) => if good bs then .ok (bs, rest) else .error bad

/-- A header (R85). -/
structure Header where
  width : Word32
  height : Word32
  channels : Byte
  colorSpace : Byte
deriving DecidableEq, Repr

/-- The header part of `DecodeStream` (R155): fields in order, the first failing check ends the job. -/
def decodeHeader (c : Params) (src : List SourceItem) : Except JobError (Header × List SourceItem) :=
  match readField .truncatedHeader 4 (fun m => decide (be32 m = magicWord)) .formatMagic src with
  | .error e => .error e
  | .ok (_, src1) =>
  match readField .truncatedHeader 4 (fun w => dimOk c (be32 w)) .formatWidth src1 with
  | .error e => .error e
  | .ok (w, src2) =>
  match readField .truncatedHeader 4 (fun h => dimOk c (be32 h)) .formatHeight src2 with
  | .error e => .error e
  | .ok (h, src3) =>
  match readField .truncatedHeader 1 (fun v => channelsOk (v.getD 0 0)) .formatChannels src3 with
  | .error e => .error e
  | .ok (ch, src4) =>
  match readField .truncatedHeader 1 (fun v => colorspaceOk (v.getD 0 0)) .formatColorspace src4 with
  | .error e => .error e
  | .ok (cs, src5) => .ok (⟨be32 w, be32 h, ch.getD 0 0, cs.getD 0 0⟩, src5)

/-- `out`: the output beats of the pixels, in order (R136, R155). -/
def beatsOf (OCH SCH : Byte) (ps : List Pixel) : List (List Byte) := ps.map (outBeat OCH SCH)

/-- `DecodeStream(S, REQ)` up to the trailer's check (R155), which strict and default mode share (R211): the header,
the pixels, and what is left of the source. -/
def decodeStream (c : Params) (REQ : Byte) (src : List SourceItem) :
    Except JobError (Header × List Pixel × List SourceItem) :=
  if requestOk REQ then
    match decodeHeader c src with
    | .error e => .error e
    | .ok (hd, src1) =>
    match decodeLoop (hd.width.toNat * hd.height.toNat) (hd.width.toNat * hd.height.toNat)
        Pixel.start Cache.initial src1 with
    | .error e => .error e
    | .ok (ps, src2) =>
    match readField .truncatedTrailer 8 (fun t => decide (t = trailerBytes)) .formatTrailer src2 with
    | .error e => .error e
    | .ok (_, src3) => .ok (hd, ps, src3)
  else .error .argReqChannels

/-! ### The previous pixel and the two caches as functions of the pixels (R116-R118) -/

/-- `prev` of either engine after the pixels `ps` of its job (R118). -/
def lastPixel (ps : List Pixel) : Pixel := ps.getLast?.getD Pixel.start

/-- The encoder's update rule for one pixel (R117). -/
def encoderCacheStep (st : Pixel × Cache) (p : Pixel) : Pixel × Cache :=
  if p = st.1 then st
  else if cacheRead st.2 (hashOf p) = p then (p, st.2)
  else (p, cacheWrite st.2 (hashOf p) p)

/-- `E_j`: the encoder's cache after the pixels `ps` (R118). -/
def encoderCache (ps : List Pixel) : Cache := (ps.foldl encoderCacheStep (Pixel.start, Cache.initial)).2

/-- `D_j`: the decoder's cache after it has produced the pixels `ps` (R116, R118). -/
def decoderCache (ps : List Pixel) : Cache :=
  ps.foldl (fun cache p => cacheWrite cache (hashOf p) p) Cache.initial

end Sys2Proof.Machine
end

