-- ==== Sys2Proof/Safety.lean ====
section
/-! DEFINITION. The terms the claims use: the invariant of the machine, the turns of one engine, and what it means
that the bytes of an opcode are fetched and run. -/

namespace Sys2Proof.Machine

/-! ### The invariant -/

/-- The decoder is past its header: its image is known. -/
def Decoder.inImage (x : Decoder) : Bool :=
  decide (x.dstate = .dOp) || decide (x.dstate = .dArg) || decide (x.dstate = .dRun) ||
    decide (x.dstate = .dTrl) || decide (x.dstate = .dRa) || decide (x.dstate = .done)

/-- The errors a decoder can report (R225). -/
def JobError.ofDecoder : JobError → Bool
  | .argReqChannels => true
  | .argWidth => false
  | .argHeight => false
  | .argChannels => false
  | .argColorspace => false
  | .argPixelCount => false
  | .formatMagic => true
  | .formatWidth => true
  | .formatHeight => true
  | .formatChannels => true
  | .formatColorspace => true
  | .formatTrailer => true
  | .truncatedHeader => true
  | .truncatedOpcode => true
  | .truncatedTrailer => true
  | .ioSource => true
  | .ioSink => false

/-- The errors an encoder can report (R225). -/
def JobError.ofEncoder : JobError → Bool
  | .argReqChannels => false
  | .argWidth => true
  | .argHeight => true
  | .argChannels => true
  | .argColorspace => true
  | .argPixelCount => true
  | .formatMagic => false
  | .formatWidth => false
  | .formatHeight => false
  | .formatChannels => false
  | .formatColorspace => false
  | .formatTrailer => false
  | .truncatedHeader => false
  | .truncatedOpcode => false
  | .truncatedTrailer => false
  | .ioSource => false
  | .ioSink => true

/-- What holds of every decoder between steps (R21-R32, R137-R150, R214, R226). -/
structure Decoder.Inv (c : Params) (x : Decoder) : Prop where
  /-- "the pixel counters `i` never overflow because `i ≤ N`" (R30). -/
  count_le : x.i ≤ x.N
  hk_le : x.hk ≤ 14
  /-- A header check has run as soon as its field was complete (R127). -/
  header_open : x.dstate = .dHdr → x.hk < 14 ∧ x.i = 0 ∧ requestOk x.REQ = true
  /-- A header field that is complete has passed its check (R127-R131). -/
  header_checked : x.dstate = .dHdr →
    (8 ≤ x.hk → dimOk c x.W = true) ∧ (12 ≤ x.hk → dimOk c x.H = true) ∧ (13 ≤ x.hk → channelsOk x.SCH = true)
  /-- An opcode is only fetched or repeated while pixels are missing (R137). -/
  pixels_left : x.dstate = .dOp ∨ x.dstate = .dArg ∨ x.dstate = .dRun → x.i < x.N
  /-- `D_RUN` has a repetition to produce, no other state has (R137, R146). -/
  run_left : x.dstate = .dRun ↔ 0 < x.rrem
  /-- `rrem` is 0..61 (R24). -/
  rrem_le : x.rrem ≤ 61
  /-- `D_ARG` waits for an operand byte (R139). -/
  arg_open : x.dstate = .dArg → x.arg.length + 1 < len x.op
  arg_le : x.arg.length ≤ 4
  /-- The trailer is read after pixel N - 1 (R100, R137). -/
  all_pixels : x.dstate = .dTrl ∨ x.dstate = .dRa ∨ x.dstate = .done → x.i = x.N
  tbuf_le : x.tbuf.length ≤ 8
  trailer_open : x.dstate = .dTrl → x.tbuf.length < 8
  /-- No trailer byte is read before pixel N - 1 (R137, R150). -/
  no_trailer : x.dstate = .dHdr ∨ x.dstate = .dOp ∨ x.dstate = .dArg ∨ x.dstate = .dRun → x.tbuf = []
  /-- DONE and read-ahead follow a trailer that matched (R150, R158). -/
  trailer_matched : x.dstate = .dRa ∨ x.dstate = .done → x.tbuf = trailerBytes
  /-- `ra` is 0..`RA_MAX` (R24, R214). -/
  ra_le : x.ra ≤ c.raMax
  /-- Only default mode reads ahead (R150). -/
  default_mode : x.dstate = .dRa → x.STRICT = false
  /-- Past the header its fields have passed their checks (R128-R135). -/
  image : x.inImage = true →
    dimOk c x.W = true ∧ dimOk c x.H = true ∧ channelsOk x.SCH = true ∧ colorspaceOk x.CS = true ∧
      requestOk x.REQ = true ∧ x.N = pixelCount x.W x.H ∧ x.OCH = outChannels x.REQ x.SCH
  /-- No error record but in ERR (R32, R231). -/
  no_record : x.dstate ≠ .err → x.errKind = 0 ∧ x.errDetail = 0
  /-- In ERR the record is that of a decoder error of R225. -/
  record : x.dstate = .err →
    ∃ e : JobError, e.ofDecoder = true ∧ x.errKind = e.kindCode ∧ x.errDetail = e.detailCode

/-- What holds of every encoder between steps (R21-R32, R169-R186, R226). -/
structure Encoder.Inv (c : Params) (x : Encoder) : Prop where
  /-- "`i` never exceeds `N`" (R28). -/
  count_le : x.i ≤ x.N
  /-- A run of 62 has been emitted (R173). -/
  run_le : x.run ≤ 61
  /-- "`run` is 0 here" (R183). -/
  run_flushed : x.i = x.N → x.run = 0
  /-- "The queue never holds more than 14 bytes" (R169). -/
  q_le : x.q.length ≤ 14
  /-- The FIFO holds 0..`OUT_BUF` bytes (R22). -/
  fifo_le : x.fifo.length ≤ c.outBuf
  /-- Only a BUSY encoder holds bytes (R55, R184, R231). -/
  bytes_busy : x.busy = false → x.q = [] ∧ x.fifo = []
  /-- The flush follows the last byte (R184). -/
  flush_empty : x.estate = .eFlush → x.q = [] ∧ x.fifo = []
  /-- The trailer follows the last pixel (R183). -/
  all_pixels : x.estate = .eTrl ∨ x.estate = .eFlush ∨ x.estate = .done → x.i = x.N
  /-- "every `prev` of a 3-channel job has alpha 255" (R171). -/
  alpha_opaque : x.estate ≠ .idle → x.CH = 3 → x.prev.a = 255
  /-- A job runs on a descriptor that passed its checks (R165). -/
  descriptor : x.busy = true ∨ x.estate = .done →
    dimOk c x.W = true ∧ dimOk c x.H = true ∧ channelsOk x.CH = true ∧ colorspaceOk x.CS = true ∧
      x.N = pixelCount x.W x.H
  /-- No error record but in ERR (R32, R231). -/
  no_record : x.estate ≠ .err → x.errKind = 0 ∧ x.errDetail = 0
  /-- In ERR the record is that of an encoder error of R225. -/
  record : x.estate = .err →
    ∃ e : JobError, e.ofEncoder = true ∧ x.errKind = e.kindCode ∧ x.errDetail = e.detailCode

/-- The invariant of the block: every engine's. -/
structure State.Inv (s : State) : Prop where
  enc : ∀ x ∈ s.enc, Encoder.Inv Config.params x
  dec : ∀ x ∈ s.dec, Decoder.Inv Config.params x

/-! ### Runs -/

/-- `n` steps, stopping at the first fault or refusal. -/
def runSteps : Nat → State → Host.Outcome State Fault Refusal
  | 0, s => .next s
  | n + 1, s =>
    match step s with
    | .next t => runSteps n t
    | .fault r => .fault r
    | .refused r => .refused r

/-! ### Turns of one engine -/

/-- `n` turns of decoder `d`, with draw `ch` in read-ahead. -/
def decTurns (d : Nat) (ch : ReadAhead) (n : Nat) : List Move := List.replicate n (.turn (.dec d ch))

/-- The actions of a list, each with the number of its free values, taken by one encoder in order. -/
def Encoder.actAll (c : Params) : List (EncAction × Nat) → Encoder → Encoder
  | [], x => x
  | (a, fr) :: rest, x => Encoder.actAll c rest (x.act c a fr)

/-! ### Fetching an opcode -/

/-- Decoder `x` once the bytes of an opcode have been read, about to execute it: `rest` is left of its source. -/
def Decoder.fetched (bytes : List Byte) (rest : List SourceItem) (x : Decoder) : Decoder :=
  { x with
    op := bytes.getD 0 0
    arg := bytes.tail
    source := rest
    inCount := x.inCount + BitVec.ofNat 64 bytes.length
    dstate := if bytes.length = 1 then .dOp else .dArg }

/-- The block while decoder `d` executes an opcode whose bytes took `n` turns to fetch: `x` is the decoder, `ag` what
is left of the agenda. -/
def State.fetching (d n : Nat) (x : Decoder) (ag : List Move) (s : State) : State :=
  { s.putDec d x with cur := d, agenda := ag, draws := s.draws + n }

/-- The bytes of an opcode, next at the source of a decoder in `D_OP`, are fetched in as many turns as they are, and
the last turn executes `i`. Where the source ends or fails before the last byte, the turn that meets that end
raises TRUNCATED/OPCODE or IO/SOURCE: no pixel, no cache write, `in_count` advanced by the bytes delivered
(R138, R139). -/
def FetchesAndRuns (bytes : List Byte) (i : Instr) : Prop :=
  (∀ (s : State) (d : Nat) (x : Decoder) (ch : ReadAhead) (rest : List SourceItem) (ag : List Move),
    s.dec[d]? = some x → x.dstate = .dOp → x.source = bytes.map SourceItem.byte ++ rest →
    s.agenda = decTurns d ch bytes.length ++ ag →
      runSteps bytes.length s =
        exec i (s.fetching d bytes.length (x.fetched bytes rest) ag)) ∧
  (∀ (s : State) (d : Nat) (x : Decoder) (ch : ReadAhead) (k : Nat) (rest : List SourceItem) (ag : List Move),
    s.dec[d]? = some x → x.dstate = .dOp → k < bytes.length →
    s.agenda = decTurns d ch (k + 1) ++ ag →
      ∀ e : JobError,
        (x.source = (bytes.take k).map SourceItem.byte ∧ e = .truncatedOpcode ∨
          x.source = (bytes.take k).map SourceItem.byte ++ .error :: rest ∧ e = .ioSource) →
        ∃ (t : State) (y : Decoder),
          runSteps (k + 1) s = .next t ∧ t.dec[d]? = some y ∧ y.dstate = .err ∧
            y.errKind = e.kindCode ∧ y.errDetail = e.detailCode ∧
            y.inCount = x.inCount + BitVec.ofNat 64 k ∧
            y.cache = x.cache ∧ y.prev = x.prev ∧ y.i = x.i ∧ y.rrem = x.rrem)

/-- The decoder after an opcode has given pixel `p` with `reps` repetitions left to produce (R137): `Produce(p)` and
`Next()`, written out. -/
def Decoder.afterPixel (p : Pixel) (reps : BitVec 6) (x : Decoder) : Decoder :=
  { x with
    cache := cacheWrite x.cache (hashOf p) p
    pixelSink := x.pixelSink ++ [outBeat x.OCH x.SCH p]
    prev := p
    i := x.i + 1
    rrem := if x.i + 1 = x.N then 0 else reps
    dstate := if x.i + 1 = x.N then .dTrl else if 0 < reps then .dRun else .dOp }

/-! ### The pixels of an opcode list -/

/-- How many pixels an opcode stands for (R145, R155). -/
def repeats : Instr → Nat
  | .rgb _ _ _ => 1
  | .rgba _ _ _ _ => 1
  | .index _ => 1
  | .diff _ _ _ => 1
  | .luma _ _ _ => 1
  | .run count => count

/-! ### Which engine a move is about -/

/-- The one engine a move can change or read (R20, R246). -/
def Move.engine : Move → EngineId
  | .turn (.enc e _) => .enc e
  | .turn (.dec d _) => .dec d
  | .hostWrite a _ => a.engine
  | .hostRead a => a.engine
  | .connectSource d _ => .dec d
  | .connectPixelSink d => .dec d
  | .connectSink e _ => .enc e
  | .connectPixels e _ => .enc e

/-- The block has the engine. -/
def State.hasEngine (s : State) : EngineId → Bool
  | .enc e => decide (e < s.enc.length)
  | .dec d => decide (d < s.dec.length)

/-- The engine is there and BUSY. -/
def State.engineBusy (s : State) : EngineId → Bool
  | .enc e => (s.enc[e]?).any Encoder.busy
  | .dec d => (s.dec[d]?).any Decoder.busy

/-- The moves the spec gives nobody: a host move about an engine that is not there, a host access that is not an
aligned word (R69), a port connected while its engine is BUSY (R262, R270). An engine's turn is never one. -/
def State.forbids (s : State) : Move → Bool
  | .turn _ => false
  | .hostWrite a _ => !a.isWord || !s.hasEngine a.engine
  | .hostRead a => !a.isWord || !s.hasEngine a.engine
  | .connectSource d _ => !s.hasEngine (.dec d) || s.engineBusy (.dec d)
  | .connectPixelSink d => !s.hasEngine (.dec d) || s.engineBusy (.dec d)
  | .connectSink e _ => !s.hasEngine (.enc e) || s.engineBusy (.enc e)
  | .connectPixels e _ => !s.hasEngine (.enc e) || s.engineBusy (.enc e)

/-! ### Channel coercion -/

/-- A pixel's bytes in an image of `CH` channels. -/
def pixelBytes (CH : Byte) (p : Pixel) : List Byte := if CH = 3 then [p.r, p.g, p.b] else [p.r, p.g, p.b, p.a]

/-- A pixel buffer of `n` pixels of `CH` channels, coerced to the requested channels: alpha dropped, or 255 (R136,
R194). -/
def coerceBuffer (CH REQ : Byte) (n : Nat) (bytes : List Byte) : List Byte :=
  ((takePixels CH n bytes).map (pixelBytes (outChannels REQ CH))).flatten

end Sys2Proof.Machine
end

