-- ==== Sys2Proof/Certificates/Slice0/Obligations.lean ====
section
/-! DEFINITION. The statements about the model, for the provers. Each docstring says which rules of spec/ it
formalises. -/

open Sys2Proof Sys2Proof.Machine

/-! ### Encoding (30_encoding.md) -/

/-- R96, R102: decoding what the encoding functions give is the identity, for every well-formed opcode and whatever
bytes follow it. -/
def Obligations.DecodeOfEncodeIsIdentity : Prop :=
  ∀ (i : Instr) (rest : List Byte), i.WellFormed → decode (encode i ++ rest) = .ok (i, rest)

/-- R96, R99: every decoded opcode has operands in their ranges, and encoding it gives its bytes back, so each byte
string has one meaning. -/
def Obligations.EncodeOfDecodeIsIdentity : Prop :=
  ∀ (bytes : List Byte) (i : Instr) (rest : List Byte),
    decode bytes = .ok (i, rest) → i.WellFormed ∧ encode i ++ rest = bytes

/-- R97: the length of an opcode is a function of its leading byte alone; with that many bytes it decodes, with
fewer it is incomplete. -/
def Obligations.LengthFollowsFromTheLeadingByte : Prop :=
  (∀ b : Byte, len b =
    if b = 0xFE then 4 else if b = 0xFF then 5 else if b.extractLsb' 6 2 = 0b10#2 then 2 else 1) ∧
  ∀ (b : Byte) (args : List Byte),
    (len b ≤ (b :: args).length →
      ∃ i, decode (b :: args) = .ok (i, (b :: args).drop (len b)) ∧ (encode i).length = len b) ∧
    ((b :: args).length < len b → decode (b :: args) = .error .missingOperands)

/-- R89: the opcode map by the leading byte's value, with the trailing bytes of each opcode. -/
def Obligations.OpcodeMapByLeadingByte : Prop :=
  ∀ b : Byte,
    (b.toNat = 0xFE → opcodeOf b = .rgb ∧ len b = 1 + 3) ∧
    (b.toNat = 0xFF → opcodeOf b = .rgba ∧ len b = 1 + 4) ∧
    (b.toNat ≤ 0x3F → opcodeOf b = .index ∧ len b = 1 + 0) ∧
    (0x40 ≤ b.toNat ∧ b.toNat ≤ 0x7F → opcodeOf b = .diff ∧ len b = 1 + 0) ∧
    (0x80 ≤ b.toNat ∧ b.toNat ≤ 0xBF → opcodeOf b = .luma ∧ len b = 1 + 1) ∧
    (0xC0 ≤ b.toNat ∧ b.toNat ≤ 0xFD → opcodeOf b = .run ∧ len b = 1 + 0)

/-- R99: each of the 256 leading bytes selects exactly one opcode, every value of every trailing byte is legal, and
no opcode raises an error. -/
def Obligations.EveryByteStringIsALegalOpcode : Prop :=
  (let count := fun o => ((List.range 256).filter fun n => decide (opcodeOf (BitVec.ofNat 8 n) = o)).length
   count .index = 64 ∧ count .diff = 64 ∧ count .luma = 64 ∧ count .run = 62 ∧ count .rgb = 1 ∧
     count .rgba = 1) ∧
  (∀ (b : Byte) (args : List Byte), args.length = len b - 1 → ∃ i, decode (b :: args) = .ok (i, [])) ∧
  (∀ (i : Instr) (s : State) (x : Decoder), s.dec[s.cur]? = some x →
    ∃ y, exec i s = .next (s.putDec s.cur y) ∧ y.dstate ≠ .err ∧ y.errKind = x.errKind ∧
      y.errDetail = x.errDetail)

/-- Opcode bytes of spec/95_test_vectors.md, P1, P2 and section 2.2, decode to the opcodes their listings name. -/
def Obligations.BytesOfTheListingsDecode : Prop :=
  decode [0xFE, 0x0A, 0x14, 0x1E] = .ok (.rgb 10 20 30, []) ∧
  decode [0xFF, 0x28, 0x32, 0x3C, 0x80] = .ok (.rgba 40 50 60 128, []) ∧
  decode [0x09] = .ok (.index 9, []) ∧
  decode [0x76] = .ok (.diff 1 (-1) 0, []) ∧
  decode [0xA4, 0x62] = .ok (.luma 4 (-2) (-6), []) ∧
  decode [0xC1] = .ok (.run 2, []) ∧
  decode [0xFD] = .ok (.run 62, [])

/-- R102: a RUN byte is `0xC0 | (count - 1)`, never 0xFE or 0xFF. -/
def Obligations.RunByteIsNeverALiteral : Prop :=
  ∀ count : Nat, 1 ≤ count → count ≤ 62 →
    ∃ b : Byte, encode (.run count) = [b] ∧ b.toNat = 0xC0 + (count - 1) ∧ b ≠ 0xFE ∧ b ≠ 0xFF

/-! ### The color cache (40_color_cache.md) -/

/-- R110: the hash indexer, the bound of its sum, and its examples. -/
def Obligations.HashIsTheWeightedSumMod64 : Prop :=
  (∀ p : Pixel,
    (hashOf p).toNat = (p.r.toNat * 3 + p.g.toNat * 5 + p.b.toNat * 7 + p.a.toNat * 11) % 64 ∧
    p.r.toNat * 3 + p.g.toNat * 5 + p.b.toNat * 7 + p.a.toNat * 11 ≤ 6630) ∧
  hashOf ⟨0, 0, 0, 255⟩ = 53 ∧ hashOf ⟨0, 0, 0, 0⟩ = 0 ∧ hashOf ⟨1, 2, 3, 4⟩ = 14

/-- R111: six bits of each channel decide the slot, and the signed reading of the channels gives the same one. -/
def Obligations.HashNeedsSixBitsOfEachChannel : Prop :=
  ∀ p : Pixel,
    (hashOf p).toNat =
      (3 * (p.r.extractLsb' 0 6).toNat + 5 * (p.g.extractLsb' 0 6).toNat + 7 * (p.b.extractLsb' 0 6).toNat +
        11 * (p.a.extractLsb' 0 6).toNat) % 64 ∧
    ((hashOf p).toNat : Int) = (s8 p.r * 3 + s8 p.g * 5 + s8 p.b * 7 + s8 p.a * 11) % 64

/-- R112, R113: a read returns the slot's contents, a write replaces one whole slot and no other. -/
def Obligations.CacheWriteReplacesOneSlot : Prop :=
  ∀ (c : Cache) (s : BitVec 6) (p : Pixel),
    cacheRead (cacheWrite c s p) s = p ∧
    (∀ t : BitVec 6, t ≠ s → cacheRead (cacheWrite c s p) t = cacheRead c t) ∧
    (∀ t : BitVec 6, cacheRead Cache.initial t = ⟨0, 0, 0, 0⟩)

/-- R118: after any pixels the two caches agree in every slot but, at most, slot 53, where the encoder may still hold
(0,0,0,0) and the decoder (0,0,0,255); that is so exactly while the image has begun with (0,0,0,255) and no
pixel hashing to 53 has differed from its predecessor. The two caches are the update rules of R116 and R117 folded
over the pixels. -/
def Obligations.CachesAgreeButForSlot53 : Prop :=
  ∀ ps : List Pixel,
    (∀ s : BitVec 6,
      cacheRead (encoderCache ps) s = cacheRead (decoderCache ps) s ∨
      (s = 53 ∧ cacheRead (encoderCache ps) s = ⟨0, 0, 0, 0⟩ ∧
        cacheRead (decoderCache ps) s = ⟨0, 0, 0, 255⟩)) ∧
    (cacheRead (encoderCache ps) 53 ≠ cacheRead (decoderCache ps) 53 ↔
      ps.head? = some ⟨0, 0, 0, 255⟩ ∧
      ∀ (j : Nat) (p q : Pixel), ps[j]? = some p → ps[j + 1]? = some q → hashOf q = 53 → q = p)

/-! ### The opcodes (41_decoder.md section 3) -/

/-- R140: RGB. Its bytes decode to it, are fetched in four turns and run it; its result, whole: alpha kept. -/
def Obligations.RgbGivesItsChannels : Prop :=
  ∀ r g b : Byte,
    (∀ rest, decode (0xFE :: r :: g :: b :: rest) = .ok (.rgb r g b, rest)) ∧
    FetchesAndRuns [0xFE, r, g, b] (.rgb r g b) ∧
    ∀ (s : State) (x : Decoder), s.dec[s.cur]? = some x →
      exec (.rgb r g b) s = .next (s.putDec s.cur (x.afterPixel ⟨r, g, b, x.prev.a⟩ x.rrem))

/-- R141: RGBA. Its bytes decode to it, are fetched in five turns and run it; its result, whole. -/
def Obligations.RgbaGivesItsChannels : Prop :=
  ∀ r g b a : Byte,
    (∀ rest, decode (0xFF :: r :: g :: b :: a :: rest) = .ok (.rgba r g b a, rest)) ∧
    FetchesAndRuns [0xFF, r, g, b, a] (.rgba r g b a) ∧
    ∀ (s : State) (x : Decoder), s.dec[s.cur]? = some x →
      exec (.rgba r g b a) s = .next (s.putDec s.cur (x.afterPixel ⟨r, g, b, a⟩ x.rrem))

/-- R142: INDEX. Its byte `00iiiiii` decodes to it, is fetched in one turn and runs it; the pixel is the slot's
contents before the step's own cache write. -/
def Obligations.IndexGivesItsSlot : Prop :=
  ∀ slot : BitVec 6,
    (∀ rest, decode ((0b00#2 ++ slot : BitVec 8) :: rest) = .ok (.index slot, rest)) ∧
    FetchesAndRuns [(0b00#2 ++ slot : BitVec 8)] (.index slot) ∧
    ∀ (s : State) (x : Decoder), s.dec[s.cur]? = some x →
      exec (.index slot) s = .next (s.putDec s.cur (x.afterPixel (cacheRead x.cache slot) x.rrem))

/-- R143: DIFF. Its byte `01rrggbb` decodes to it, is fetched in one turn and runs it; each channel is the sum modulo
256, alpha kept. -/
def Obligations.DiffAddsItsDeltas : Prop :=
  ∀ rr gg bb : BitVec 2,
    (∀ rest, decode ((0b01#2 ++ rr ++ gg ++ bb : BitVec 8) :: rest) =
      .ok (.diff (rr.toNat - 2) (gg.toNat - 2) (bb.toNat - 2), rest)) ∧
    FetchesAndRuns [(0b01#2 ++ rr ++ gg ++ bb : BitVec 8)] (.diff (rr.toNat - 2) (gg.toNat - 2) (bb.toNat - 2)) ∧
    ∀ (s : State) (x : Decoder), s.dec[s.cur]? = some x →
      ∃ p : Pixel,
        (p.r.toNat : Int) = (x.prev.r.toNat + ((rr.toNat : Int) - 2)) % 256 ∧
        (p.g.toNat : Int) = (x.prev.g.toNat + ((gg.toNat : Int) - 2)) % 256 ∧
        (p.b.toNat : Int) = (x.prev.b.toNat + ((bb.toNat : Int) - 2)) % 256 ∧
        p.a = x.prev.a ∧
        exec (.diff (rr.toNat - 2) (gg.toNat - 2) (bb.toNat - 2)) s =
          .next (s.putDec s.cur (x.afterPixel p x.rrem))

/-- R144: LUMA. Its bytes `10gggggg RRRRBBBB` decode to it, are fetched in two turns and run it; the red and blue
changes are the green one plus their own, each sum modulo 256, alpha kept. -/
def Obligations.LumaAddsItsDeltas : Prop :=
  ∀ (gg : BitVec 6) (rr bb : BitVec 4),
    (∀ rest, decode ((0b10#2 ++ gg : BitVec 8) :: (rr ++ bb : BitVec 8) :: rest) =
      .ok (.luma (gg.toNat - 32) (rr.toNat - 8) (bb.toNat - 8), rest)) ∧
    FetchesAndRuns [(0b10#2 ++ gg : BitVec 8), (rr ++ bb : BitVec 8)]
      (.luma (gg.toNat - 32) (rr.toNat - 8) (bb.toNat - 8)) ∧
    ∀ (s : State) (x : Decoder), s.dec[s.cur]? = some x →
      ∃ p : Pixel,
        (p.r.toNat : Int) = (x.prev.r.toNat + ((gg.toNat : Int) - 32) + ((rr.toNat : Int) - 8)) % 256 ∧
        (p.g.toNat : Int) = (x.prev.g.toNat + ((gg.toNat : Int) - 32)) % 256 ∧
        (p.b.toNat : Int) = (x.prev.b.toNat + ((gg.toNat : Int) - 32) + ((bb.toNat : Int) - 8)) % 256 ∧
        p.a = x.prev.a ∧
        exec (.luma (gg.toNat - 32) (rr.toNat - 8) (bb.toNat - 8)) s =
          .next (s.putDec s.cur (x.afterPixel p x.rrem))

/-- R145: RUN. Its byte `11nnnnnn`, n ≤ 61, decodes to the count n + 1, is fetched in one turn and runs it: the first
repetition of the previous pixel, n left to produce. -/
def Obligations.RunStartsItsRepetitions : Prop :=
  ∀ n : BitVec 6, n.toNat ≤ 61 →
    (∀ rest, decode ((0b11#2 ++ n : BitVec 8) :: rest) = .ok (.run (n.toNat + 1), rest)) ∧
    FetchesAndRuns [(0b11#2 ++ n : BitVec 8)] (.run (n.toNat + 1)) ∧
    ∀ (s : State) (x : Decoder), s.dec[s.cur]? = some x →
      exec (.run (n.toNat + 1)) s = .next (s.putDec s.cur (x.afterPixel x.prev n))

/-- R146: one repetition of a run; where it gives pixel N - 1 the surplus repetitions are dropped without an error
and the trailer comes next. -/
def Obligations.RunRepetitionIsOnePixel : Prop :=
  ∀ (s : State) (d : Nat) (x : Decoder) (ch : ReadAhead) (ag : List Move),
    s.dec[d]? = some x → x.dstate = .dRun → 0 < x.rrem → x.i < x.N → s.agenda = .turn (.dec d ch) :: ag →
      step s = .next ({ s with agenda := ag, draws := s.draws + 1 }.putDec d (x.afterPixel x.prev (x.rrem - 1)))

/-- R145, R146 together: a RUN of `n` with `N - i` pixels left produces min(n, N - i) copies of the previous pixel, one
a turn, consumes one byte, and leaves the decoder at the next opcode or at the trailer. -/
def Obligations.RunProducesItsCountOrWhatIsLeft : Prop :=
  ∀ (s : State) (d : Nat) (x : Decoder) (ch : ReadAhead) (n k : Nat) (rest : List SourceItem) (ag : List Move),
    s.dec[d]? = some x → x.dstate = .dOp → x.i < x.N → 1 ≤ n → n ≤ 62 →
    x.source = .byte (BitVec.ofNat 8 (0xC0 + (n - 1))) :: rest →
    k = min n (x.N.toNat - x.i.toNat) → s.agenda = decTurns d ch k ++ ag →
      ∃ (t : State) (y : Decoder),
        runSteps k s = .next t ∧ t.dec[d]? = some y ∧ t.agenda = ag ∧
        y.pixelSink = x.pixelSink ++ List.replicate k (outBeat x.OCH x.SCH x.prev) ∧
        y.i.toNat = x.i.toNat + k ∧ y.prev = x.prev ∧
        y.cache = cacheWrite x.cache (hashOf x.prev) x.prev ∧
        y.inCount = x.inCount + 1 ∧ y.source = rest ∧ y.rrem = 0 ∧
        y.dstate = (if x.i.toNat + k = x.N.toNat then .dTrl else .dOp)

/-- R136, R137, R140-R146, R243: what an opcode changes, its pixel, its output beat byte by byte, the pixel count and one
cache slot; and what it leaves unchanged: every other engine, the host's registers, the header fields, the error record,
the byte source, and every other cache slot. The bytes of the beat are stated for the channel counts 3 and 4, the only
ones a run reaches (log entry 15). -/
def Obligations.OpcodesChangeNothingElse : Prop :=
  ∀ (i : Instr) (s t : State), exec i s = .next t →
    t.enc = s.enc ∧ t.cur = s.cur ∧ t.agenda = s.agenda ∧ t.draws = s.draws ∧ t.hostData = s.hostData ∧
    t.dec.length = s.dec.length ∧ (∀ d, d ≠ s.cur → t.dec[d]? = s.dec[d]?) ∧
    ∃ x y, s.dec[s.cur]? = some x ∧ t.dec[s.cur]? = some y ∧
      y.regReq = x.regReq ∧ y.regStrict = x.regStrict ∧ y.REQ = x.REQ ∧ y.STRICT = x.STRICT ∧
      y.hk = x.hk ∧ y.hbuf = x.hbuf ∧ y.W = x.W ∧ y.H = x.H ∧ y.SCH = x.SCH ∧ y.CS = x.CS ∧ y.OCH = x.OCH ∧
      y.N = x.N ∧ y.op = x.op ∧ y.arg = x.arg ∧ y.tbuf = x.tbuf ∧ y.ra = x.ra ∧ y.inCount = x.inCount ∧
      y.errKind = x.errKind ∧ y.errDetail = x.errDetail ∧ y.source = x.source ∧
      y.prev = (reconstruct x.prev x.cache i).1 ∧ y.i = x.i + 1 ∧
      cacheRead y.cache (hashOf y.prev) = y.prev ∧
      (∀ slot, slot ≠ hashOf (reconstruct x.prev x.cache i).1 → cacheRead y.cache slot = cacheRead x.cache slot) ∧
      (∃ beat : List Byte, y.pixelSink = x.pixelSink ++ [beat] ∧ beat = outBeat x.OCH x.SCH y.prev ∧
        (x.OCH = 3 → beat = [y.prev.r, y.prev.g, y.prev.b]) ∧
        (x.OCH = 4 → x.SCH = 4 → beat = [y.prev.r, y.prev.g, y.prev.b, y.prev.a]) ∧
        (x.OCH = 4 → x.SCH = 3 → beat = [y.prev.r, y.prev.g, y.prev.b, 255]))

/-- R225, R137: an opcode's meaning answers a next state wherever there is a decoder to act on, for every form, and
stops by name where there is none. The stop is the model's choice, log entry 20: the spec has no such case. -/
def Obligations.OpcodesStopOnlyWithoutADecoder : Prop :=
  ∀ (i : Instr) (s : State),
    (s.cur < s.dec.length ↔ ∃ t, exec i s = .next t) ∧
    (s.dec.length ≤ s.cur ↔ exec i s = .fault .noSuchEngine)

/-! ### Fetch (41_decoder.md R126-R139) -/

/-- R138: opcode fetch. A byte that is a whole opcode runs it in the same step; another starts an operand fetch;
`End` and `Error` end the job. -/
def Obligations.StepRunsTheDecodedOpcode : Prop :=
  ∀ (s : State) (d : Nat) (x : Decoder) (ch : ReadAhead) (ag : List Move),
    s.dec[d]? = some x → x.dstate = .dOp → s.agenda = .turn (.dec d ch) :: ag →
      let s' := { s with cur := d, agenda := ag, draws := s.draws + 1 }
      (x.source = [] → step s = .next (s'.putDec d (x.raise .truncatedOpcode s.draws))) ∧
      (∀ rest, x.source = .error :: rest →
        step s = .next (s'.putDec d ({ x with source := rest }.raise .ioSource s.draws))) ∧
      (∀ b rest, x.source = .byte b :: rest →
        let y := { x with source := rest, inCount := x.inCount + 1, op := b, arg := [] }
        (∀ i, decode [b] = .ok (i, []) → step s = exec i (s'.putDec d y)) ∧
        (decode [b] = .error .missingOperands → step s = .next (s'.putDec d { y with dstate := .dArg })))

/-- R139: operand fetch. The byte that completes the opcode runs it in the same step; another is kept; `End` and
`Error` end the job. -/
def Obligations.StepRunsTheCompletedOpcode : Prop :=
  ∀ (s : State) (d : Nat) (x : Decoder) (ch : ReadAhead) (ag : List Move),
    s.dec[d]? = some x → x.dstate = .dArg → x.arg.length + 1 < len x.op → s.agenda = .turn (.dec d ch) :: ag →
      let s' := { s with cur := d, agenda := ag, draws := s.draws + 1 }
      (x.source = [] → step s = .next (s'.putDec d (x.raise .truncatedOpcode s.draws))) ∧
      (∀ rest, x.source = .error :: rest →
        step s = .next (s'.putDec d ({ x with source := rest }.raise .ioSource s.draws))) ∧
      (∀ b rest, x.source = .byte b :: rest →
        let y := { x with source := rest, inCount := x.inCount + 1, arg := x.arg ++ [b] }
        (∀ i, decode (x.op :: (x.arg ++ [b])) = .ok (i, []) → step s = exec i (s'.putDec d y)) ∧
        (decode (x.op :: (x.arg ++ [b])) = .error .missingOperands → step s = .next (s'.putDec d y)))

/-! ### Header, trailer, read-ahead (41_decoder.md, 43_byte_io.md) -/

/-- R127-R132, R135: a step in `D_HDR`: the byte is consumed, and the field it completes is stored and checked in the
same step. -/
def Obligations.HeaderStepChecksEachField : Prop :=
  ∀ (s : State) (d : Nat) (x : Decoder) (ch : ReadAhead) (ag : List Move),
    s.dec[d]? = some x → x.dstate = .dHdr → s.agenda = .turn (.dec d ch) :: ag →
      let s' := { s with agenda := ag, draws := s.draws + 1 }
      (x.source = [] → step s = .next (s'.putDec d (x.raise .truncatedHeader s.draws))) ∧
      (∀ rest, x.source = .error :: rest →
        step s = .next (s'.putDec d ({ x with source := rest }.raise .ioSource s.draws))) ∧
      (∀ b rest, x.source = .byte b :: rest →
        let v : Word32 := x.hbuf.extractLsb' 0 24 ++ b
        let y := { x with source := rest, inCount := x.inCount + 1, hk := x.hk + 1, hbuf := v }
        (x.hk = 3 → step s = .next (s'.putDec d
          (if v = 0x716F6966 then { y with hbuf := 0 } else y.raise .formatMagic s.draws))) ∧
        (x.hk = 7 → step s = .next (s'.putDec d
          (if v.toNat = 0 ∨ Config.params.maxDim < v.toNat
            then { y with W := v, hbuf := 0 }.raise .formatWidth s.draws else { y with W := v, hbuf := 0 }))) ∧
        (x.hk = 11 → step s = .next (s'.putDec d
          (if v.toNat = 0 ∨ Config.params.maxDim < v.toNat
            then { y with H := v, hbuf := 0 }.raise .formatHeight s.draws else { y with H := v, hbuf := 0 }))) ∧
        (x.hk = 12 → step s = .next (s'.putDec d
          (if b.toNat = 3 ∨ b.toNat = 4 then { y with SCH := b }
            else { y with SCH := b }.raise .formatChannels s.draws))) ∧
        (x.hk = 13 → step s = .next (s'.putDec d
          (if b.toNat = 0 ∨ b.toNat = 1
            then { y with
              CS := b
              N := BitVec.ofNat 64 (x.W.toNat * x.H.toNat)
              OCH := if x.REQ = 0 then x.SCH else x.REQ
              dstate := .dOp }
            else { y with CS := b }.raise .formatColorspace s.draws))) ∧
        (x.hk ≠ 3 → x.hk ≠ 7 → x.hk ≠ 11 → x.hk ≠ 12 → x.hk ≠ 13 → step s = .next (s'.putDec d y)))

/-- R85, R127-R135: a legal header takes the decoder from job start to the opcode stream in 14 turns, with every header
register as written and `N` exact. -/
def Obligations.LegalHeaderOpensTheOpcodeStream : Prop :=
  ∀ (s : State) (d : Nat) (x : Decoder) (W H : Word32) (CH CS : Byte) (ch : ReadAhead) (rest : List SourceItem)
    (ag : List Move),
    s.dec[d]? = some x → x.dstate = .dHdr → x.hk = 0 →
    dimOk Config.params W = true → dimOk Config.params H = true → channelsOk CH = true → colorspaceOk CS = true →
    x.source = (headerBytes W H CH CS).map SourceItem.byte ++ rest → s.agenda = decTurns d ch 14 ++ ag →
      ∃ (t : State) (y : Decoder),
        runSteps 14 s = .next t ∧ t.dec[d]? = some y ∧ t.agenda = ag ∧
        y.dstate = .dOp ∧ y.W = W ∧ y.H = H ∧ y.SCH = CH ∧ y.CS = CS ∧ y.OCH = outChannels x.REQ CH ∧
        y.N.toNat = W.toNat * H.toNat ∧ y.inCount = x.inCount + 14 ∧ y.source = rest ∧
        y.prev = x.prev ∧ y.cache = x.cache ∧ y.i = x.i ∧ y.pixelSink = x.pixelSink

/-- R150, R152: a step in `D_TRL`: eight bytes are read, then compared as a whole; a match completes the job in strict
mode and starts the read-ahead in default mode. -/
def Obligations.TrailerIsReadWholeThenCompared : Prop :=
  ∀ (s : State) (d : Nat) (x : Decoder) (ch : ReadAhead) (ag : List Move),
    s.dec[d]? = some x → x.dstate = .dTrl → x.tbuf.length < 8 → s.agenda = .turn (.dec d ch) :: ag →
      let s' := { s with agenda := ag, draws := s.draws + 1 }
      (x.source = [] → step s = .next (s'.putDec d (x.raise .truncatedTrailer s.draws))) ∧
      (∀ rest, x.source = .error :: rest →
        step s = .next (s'.putDec d ({ x with source := rest }.raise .ioSource s.draws))) ∧
      (∀ b rest, x.source = .byte b :: rest →
        let y := { x with source := rest, inCount := x.inCount + 1, tbuf := x.tbuf ++ [b] }
        (x.tbuf.length < 7 → step s = .next (s'.putDec d y)) ∧
        (x.tbuf.length = 7 →
          (x.tbuf ++ [b] ≠ [0, 0, 0, 0, 0, 0, 0, 1] →
            step s = .next (s'.putDec d (y.raise .formatTrailer s.draws))) ∧
          (x.tbuf ++ [b] = [0, 0, 0, 0, 0, 0, 0, 1] → x.STRICT = true →
            step s = .next (s'.putDec d { y with dstate := .done })) ∧
          (x.tbuf ++ [b] = [0, 0, 0, 0, 0, 0, 0, 1] → x.STRICT = false →
            step s = .next (s'.putDec d { y with dstate := .dRa }))))

/-- R214: a turn in `D_RA`, whatever `RA_MAX`: the draw completes the job or reads one byte and discards it; at `RA_MAX`
only completing is left; `End` and `Error` complete it without an error. A step whose agenda gives the decoder the turn is
that turn, with the implementation's `RA_MAX`. Two clauses are the model's choice: that a read drawn at `RA_MAX` is the
completion (log entry 13), and that an `Error` answered here is taken from the list of the source's answers (log entry
6). -/
def Obligations.ReadAheadDiscardsOrCompletes : Prop :=
  ∀ (c : Params) (s : State) (d : Nat) (x : Decoder) (ch : ReadAhead) (fr : Nat),
    s.dec[d]? = some x → x.dstate = .dRa →
      (ch = .complete ∨ c.raMax ≤ x.ra → decoderTurn c d ch fr s = .next (s.putDec d { x with dstate := .done })) ∧
      (ch = .read → x.ra < c.raMax →
        (x.source = [] → decoderTurn c d ch fr s = .next (s.putDec d { x with dstate := .done })) ∧
        (∀ rest, x.source = .error :: rest →
          decoderTurn c d ch fr s = .next (s.putDec d { x with source := rest, dstate := .done })) ∧
        (∀ b rest, x.source = .byte b :: rest →
          decoderTurn c d ch fr s =
            .next (s.putDec d { x with source := rest, inCount := x.inCount + 1, ra := x.ra + 1 }))) ∧
      (∀ ag, s.agenda = .turn (.dec d ch) :: ag →
        step s = decoderTurn Config.params d ch s.draws { s with agenda := ag, draws := s.draws + 1 })

/-- R211, R215: before the read-ahead the two read modes cannot be told apart: with the mode changed, a step gives the
same decoder but for the mode, and but for DONE against `D_RA` once the trailer has matched. -/
def Obligations.ReadModesAgreeBeforeReadAhead : Prop :=
  ∀ (s t : State) (d : Nat) (x y : Decoder) (v : Bool) (ch : ReadAhead) (ag : List Move),
    s.dec[d]? = some x → x.dstate ≠ .dRa → s.agenda = .turn (.dec d ch) :: ag →
    step s = .next t → t.dec[d]? = some y →
      ∃ (t' : State) (y' : Decoder),
        step (s.putDec d { x with STRICT := v }) = .next t' ∧ t'.dec[d]? = some y' ∧
        y' = { y with STRICT := v, dstate := y'.dstate } ∧
        (y'.dstate = y.dstate ∨
          x.dstate = .dTrl ∧ y.tbuf = trailerBytes ∧
            (y.dstate = .done ∧ y'.dstate = .dRa ∨ y.dstate = .dRa ∧ y'.dstate = .done))

/-- R152, R155, R156: a decoder job computes `DecodeStream`: from job start, its turns end in DONE with the Image, the
beats and the source position the function gives, STATUS and `irq` saying so, or in ERR with the error it gives. At DONE
`prev` is the last pixel and the cache is `decoderCache` of the pixels produced, the `D` of R118. The draws complete the
job at once in read-ahead; every sink content and source is allowed, so beats of earlier jobs (log entry 12) are no part of
the Image. -/
def Obligations.DecoderComputesDecodeStream : Prop :=
  ∀ (y : Decoder) (d : Nat), requestOk y.regReq = true →
    ∃ n : Nat, ∀ (s : State) (ag : List Move),
      s.dec[d]? = some y.initJob → s.agenda = decTurns d .complete n ++ ag →
        ∃ (t : State) (z : Decoder),
          runSteps n s = .next t ∧ t.dec[d]? = some z ∧
          match decodeStream Config.params y.regReq y.source with
          | .ok (hd, ps, rest) =>
            let beats := beatsOf (outChannels y.regReq hd.channels) hd.channels ps
            z.dstate = .done ∧ z.status = 2 ∧ z.irq = true ∧
              z.W = hd.width ∧ z.H = hd.height ∧ z.SCH = hd.channels ∧ z.CS = hd.colorSpace ∧
              z.OCH = outChannels y.regReq hd.channels ∧ z.pixelSink = y.pixelSink ++ beats ∧
              z.image = ⟨hd.width, hd.height, outChannels y.regReq hd.channels, hd.colorSpace, beats.flatten⟩ ∧
              ps.length = hd.width.toNat * hd.height.toNat ∧ z.prev = lastPixel ps ∧ z.cache = decoderCache ps ∧
              z.i.toNat = hd.width.toNat * hd.height.toNat ∧ z.source = rest ∧
              z.inCount = BitVec.ofNat 64 (y.source.length - rest.length)
          | .error e => z.dstate = .err ∧ z.errKind = e.kindCode ∧ z.errDetail = e.detailCode

/-! ### Errors (60_exceptions.md) -/

/-- R231, R232: raising an error records its codes, halts the engine in ERR with STATUS and `irq` saying so, discards the
encoder's bytes, and leaves every other register as the step had it. That the encoder's pixel source stands where it was is
the model's choice, log entry 9: R232 says nothing of it. -/
def Obligations.RaisingAnErrorRecordsAndHalts : Prop :=
  (∀ (e : JobError) (fr : Nat) (x : Decoder),
    let y := x.raise e fr
    y.dstate = .err ∧ y.errKind = e.kindCode ∧ y.errDetail = e.detailCode ∧ y.irq = true ∧
    y.status.toNat = 4 + 16 * e.kindCode.toNat + 256 * e.detailCode.toNat ∧
    { y with
      dstate := x.dstate, errKind := x.errKind, errDetail := x.errDetail
      source := x.source, pixelSink := x.pixelSink } = x) ∧
  (∀ (e : JobError) (fr : Nat) (x : Encoder),
    let y := x.raise e fr
    y.estate = .err ∧ y.errKind = e.kindCode ∧ y.errDetail = e.detailCode ∧ y.irq = true ∧
    y.status.toNat = 4 + 16 * e.kindCode.toNat + 256 * e.detailCode.toNat ∧ y.q = [] ∧ y.fifo = [] ∧
    { y with
      estate := x.estate, errKind := x.errKind, errDetail := x.errDetail
      q := x.q, fifo := x.fifo, sink := x.sink } = x)

/-- R226-R230: the kind and detail codes. -/
def Obligations.ErrorCodesAreTheTables : Prop :=
  ([.argReqChannels, .argWidth, .argHeight, .argChannels, .argColorspace, .argPixelCount].map
      (fun e : JobError => (e.kindCode.toNat, e.detailCode.toNat)) =
    [(1, 1), (1, 2), (1, 3), (1, 4), (1, 5), (1, 6)]) ∧
  ([.formatMagic, .formatWidth, .formatHeight, .formatChannels, .formatColorspace, .formatTrailer].map
      (fun e : JobError => (e.kindCode.toNat, e.detailCode.toNat)) =
    [(2, 1), (2, 2), (2, 3), (2, 4), (2, 5), (2, 6)]) ∧
  ([.truncatedHeader, .truncatedOpcode, .truncatedTrailer].map
      (fun e : JobError => (e.kindCode.toNat, e.detailCode.toNat)) = [(3, 1), (3, 2), (3, 3)]) ∧
  ([.ioSource, .ioSink].map
      (fun e : JobError => (e.kindCode.toNat, e.detailCode.toNat)) = [(4, 1), (4, 2)]) ∧
  (∀ e : JobError, 1 ≤ e.kindCode.toNat ∧ e.kindCode.toNat ≤ 4)

/-- R239: ERR and DONE are left by an accepted START alone; until then the flags and the error record stand. -/
def Obligations.OnlyStartLeavesErrAndDone : Prop :=
  ∀ s t : State, step s = .next t →
    (∀ (d : Nat) (x : Decoder), s.dec[d]? = some x → x.dstate = .err ∨ x.dstate = .done →
      ∃ y, t.dec[d]? = some y ∧
        (y.dstate = x.dstate ∧ y.errKind = x.errKind ∧ y.errDetail = x.errDetail ∨
          ∃ a v, s.nextMove = .hostWrite a v ∧ a.engine = .dec d ∧ a.offset = 0 ∧ v.getLsbD 0 = true ∧
            y = x.jobStart s.draws)) ∧
    (∀ (e : Nat) (x : Encoder), s.enc[e]? = some x → x.estate = .err ∨ x.estate = .done →
      ∃ y, t.enc[e]? = some y ∧
        (y.estate = x.estate ∧ y.errKind = x.errKind ∧ y.errDetail = x.errDetail ∨
          ∃ a v, s.nextMove = .hostWrite a v ∧ a.engine = .enc e ∧ a.offset = 0 ∧ v.getLsbD 0 = true ∧
            y = x.jobStart Config.params s.draws))

/-- R126, R166, R231, R256: an engine that is not BUSY takes no step: its turn makes no request and changes no
engine. That the machine goes on past such a turn is the model's choice, log entry 13. -/
def Obligations.EnginesTakeNoStepUnlessBusy : Prop :=
  (∀ (s : State) (d : Nat) (x : Decoder) (ch : ReadAhead) (ag : List Move),
    s.dec[d]? = some x → x.busy = false → s.agenda = .turn (.dec d ch) :: ag →
      step s = .next { s with agenda := ag, draws := s.draws + 1 }) ∧
  (∀ (s : State) (e : Nat) (x : Encoder) (a : EncAction) (ag : List Move),
    s.enc[e]? = some x → x.busy = false → s.agenda = .turn (.enc e a) :: ag →
      step s = .next { s with agenda := ag, draws := s.draws + 1 })

/-! ### The host (10_state.md, 43_byte_io.md, 70_reset_and_hazards.md) -/

/-- R125: an accepted START on a decoder: every register at its job-start value, then the requested channels are
checked. -/
def Obligations.StartOnADecoder : Prop :=
  ∀ (s : State) (d : Nat) (x : Decoder) (v : Word32) (ag : List Move),
    s.dec[d]? = some x → x.busy = false → v.getLsbD 0 = true →
    s.agenda = .hostWrite ⟨.dec d, 0, 4⟩ v :: ag →
      let y : Decoder := { x with
        REQ := x.regReq, STRICT := x.regStrict, hk := 0, hbuf := 0, W := 0, H := 0, SCH := 0, CS := 0, OCH := 0
        N := 0, i := 0, prev := ⟨0, 0, 0, 255⟩, rrem := 0, op := 0, arg := [], tbuf := [], ra := 0
        cache := Vector.replicate 64 ⟨0, 0, 0, 0⟩, inCount := 0, errKind := 0, errDetail := 0, dstate := .dHdr }
      y.status = 1 ∧
      step s = .next ({ s with agenda := ag, draws := s.draws + 1 }.putDec d
        (if x.regReq.toNat = 0 ∨ x.regReq.toNat = 3 ∨ x.regReq.toNat = 4 then y
          else y.raise .argReqChannels s.draws))

/-- R165: an accepted START on an encoder: the parameters are latched, every register takes its job-start value, the
descriptor is checked in order, and the header stands in the queue. R6: `MAX_DIM`, which this and the decoder's header
checks compare with, is one of its two values. That `N` is set where the descriptor is refused is the model's reading of
R22, log entry 16. -/
def Obligations.StartOnAnEncoder : Prop :=
  (Config.params.maxDim = 2 ^ 31 - 1 ∨ Config.params.maxDim = 2 ^ 32 - 1) ∧
  ∀ (s : State) (e : Nat) (x : Encoder) (v : Word32) (ag : List Move),
    s.enc[e]? = some x → x.busy = false → v.getLsbD 0 = true →
    s.agenda = .hostWrite ⟨.enc e, 0, 4⟩ v :: ag →
      let y : Encoder := { x with
        W := x.regWidth, H := x.regHeight, CH := x.regChannels, CS := x.regColorspace
        N := BitVec.ofNat 64 (x.regWidth.toNat * x.regHeight.toNat), i := 0, prev := ⟨0, 0, 0, 255⟩, run := 0
        cache := Vector.replicate 64 ⟨0, 0, 0, 0⟩
        q := headerBytes x.regWidth x.regHeight x.regChannels x.regColorspace
        fifo := [], outCount := 0, errKind := 0, errDetail := 0, estate := .ePix }
      y.status = 1 ∧
      step s = .next ({ s with agenda := ag, draws := s.draws + 1 }.putEnc e
        (if x.regWidth.toNat = 0 ∨ Config.params.maxDim < x.regWidth.toNat then y.raise .argWidth s.draws
          else if x.regHeight.toNat = 0 ∨ Config.params.maxDim < x.regHeight.toNat then y.raise .argHeight s.draws
          else if ¬(x.regChannels.toNat = 3 ∨ x.regChannels.toNat = 4) then y.raise .argChannels s.draws
          else if ¬(x.regColorspace.toNat = 0 ∨ x.regColorspace.toNat = 1) then y.raise .argColorspace s.draws
          else y))

/-- R40-R53: what a host read of each register returns, an unlisted offset 0; the read changes nothing else (R70). `hostData` is the model's own field, log entry 17. -/
def Obligations.HostReadsTheRegisterMap : Prop :=
  (∀ (s : State) (e : Nat) (x : Encoder) (off : Nat) (ag : List Move),
    s.enc[e]? = some x → off % 4 = 0 → s.agenda = .hostRead ⟨.enc e, off, 4⟩ :: ag →
      ∃ w : Word32, step s = .next { s with agenda := ag, draws := s.draws + 1, hostData := w } ∧
        (off = 0x04 → w = x.status) ∧ (off = 0x08 → w = x.regWidth) ∧ (off = 0x0C → w = x.regHeight) ∧
        (off = 0x10 → w.toNat = x.regChannels.toNat + 256 * x.regColorspace.toNat) ∧
        (off = 0x14 → w.toNat = x.outCount.toNat % 2 ^ 32) ∧ (off = 0x18 → w.toNat = x.outCount.toNat / 2 ^ 32) ∧
        (off = 0x00 ∨ 0x18 < off → w = 0)) ∧
  (∀ (s : State) (d : Nat) (x : Decoder) (off : Nat) (ag : List Move),
    s.dec[d]? = some x → off % 4 = 0 → s.agenda = .hostRead ⟨.dec d, off, 4⟩ :: ag →
      ∃ w : Word32, step s = .next { s with agenda := ag, draws := s.draws + 1, hostData := w } ∧
        (off = 0x04 → w = x.status) ∧ (off = 0x08 → w.toNat = x.regReq.toNat + 256 * x.regStrict.toNat) ∧
        (off = 0x0C → w = x.W) ∧ (off = 0x10 → w = x.H) ∧
        (off = 0x14 → w.toNat = x.SCH.toNat + 256 * x.CS.toNat + 65536 * x.OCH.toNat) ∧
        (off = 0x18 → w.toNat = x.inCount.toNat % 2 ^ 32) ∧ (off = 0x1C → w.toNat = x.inCount.toNat / 2 ^ 32) ∧
        (off = 0x00 ∨ 0x1C < off → w = 0))

/-- R40-R52: what a host write to an engine that is not BUSY does: parameter registers are stored, everything but an
accepted START is otherwise ignored. -/
def Obligations.HostWritesTheParameterRegisters : Prop :=
  (∀ (s : State) (e : Nat) (x : Encoder) (off : Nat) (v : Word32) (ag : List Move),
    s.enc[e]? = some x → x.busy = false → off % 4 = 0 → s.agenda = .hostWrite ⟨.enc e, off, 4⟩ v :: ag →
      let put := fun y => step s = .next ({ s with agenda := ag, draws := s.draws + 1 }.putEnc e y)
      (off = 0x00 → v.getLsbD 0 = false → put x) ∧
      (off = 0x08 → put { x with regWidth := v }) ∧
      (off = 0x0C → put { x with regHeight := v }) ∧
      (off = 0x10 → put { x with
        regChannels := BitVec.ofNat 8 v.toNat, regColorspace := BitVec.ofNat 8 (v.toNat / 256) }) ∧
      (off = 0x04 ∨ 0x10 < off → put x)) ∧
  (∀ (s : State) (d : Nat) (x : Decoder) (off : Nat) (v : Word32) (ag : List Move),
    s.dec[d]? = some x → x.busy = false → off % 4 = 0 → s.agenda = .hostWrite ⟨.dec d, off, 4⟩ v :: ag →
      let put := fun y => step s = .next ({ s with agenda := ag, draws := s.draws + 1 }.putDec d y)
      (off = 0x00 → v.getLsbD 0 = false → put x) ∧
      (off = 0x08 → put { x with regReq := BitVec.ofNat 8 v.toNat, regStrict := v.getLsbD 8 }) ∧
      (off = 0x04 ∨ 0x08 < off → put x))

/-- R40, R41, R47, R219: while an engine is BUSY every write to its registers is ignored, START included. -/
def Obligations.BusyEnginesIgnoreWrites : Prop :=
  ∀ (s : State) (a : HostAddr) (v : Word32) (ag : List Move),
    a.isWord = true → s.engineBusy a.engine = true → s.agenda = .hostWrite a v :: ag →
      step s = .next { s with agenda := ag, draws := s.draws + 1 }

/-- R32, R33, R42, R48: the STATUS word bit by bit, at most one flag, and `irq`. -/
def Obligations.StatusWordShowsTheFlags : Prop :=
  (∀ x : Decoder,
    (x.status.getLsbD 0 = x.busy ∧ x.status.getLsbD 1 = decide (x.dstate = .done) ∧
      x.status.getLsbD 2 = decide (x.dstate = .err) ∧ x.status.getLsbD 3 = false ∧
      x.status.extractLsb' 4 4 = (if x.dstate = .err then x.errKind else 0) ∧
      x.status.extractLsb' 8 8 = (if x.dstate = .err then x.errDetail else 0) ∧
      x.status.extractLsb' 16 16 = 0#16) ∧
    x.irq = (x.status.getLsbD 1 || x.status.getLsbD 2) ∧
    (x.busy = true → x.dstate ≠ .done ∧ x.dstate ≠ .err)) ∧
  (∀ x : Encoder,
    (x.status.getLsbD 0 = x.busy ∧ x.status.getLsbD 1 = decide (x.estate = .done) ∧
      x.status.getLsbD 2 = decide (x.estate = .err) ∧ x.status.getLsbD 3 = false ∧
      x.status.extractLsb' 4 4 = (if x.estate = .err then x.errKind else 0) ∧
      x.status.extractLsb' 8 8 = (if x.estate = .err then x.errDetail else 0) ∧
      x.status.extractLsb' 16 16 = 0#16) ∧
    x.irq = (x.status.getLsbD 1 || x.status.getLsbD 2) ∧
    (x.busy = true → x.estate ≠ .done ∧ x.estate ≠ .err))

/-- R258: the host-written registers keep their values through every step but a host write to that very register; STATUS,
the byte counters and the decoder's header registers keep their end-of-job values until the engine's next START. -/
def Obligations.ParametersSurviveJobs : Prop :=
  ∀ s t : State, step s = .next t →
    (∀ (e : Nat) (x : Encoder), s.enc[e]? = some x →
      ∃ y, t.enc[e]? = some y ∧
        (y.regWidth = x.regWidth ∨ ∃ v, s.nextMove = .hostWrite ⟨.enc e, 0x08, 4⟩ v) ∧
        (y.regHeight = x.regHeight ∨ ∃ v, s.nextMove = .hostWrite ⟨.enc e, 0x0C, 4⟩ v) ∧
        (y.regChannels = x.regChannels ∧ y.regColorspace = x.regColorspace ∨
          ∃ v, s.nextMove = .hostWrite ⟨.enc e, 0x10, 4⟩ v) ∧
        (x.estate = .done ∨ x.estate = .err →
          y.status = x.status ∧ y.outCount = x.outCount ∨
            ∃ v, s.nextMove = .hostWrite ⟨.enc e, 0x00, 4⟩ v ∧ v.getLsbD 0 = true)) ∧
    (∀ (d : Nat) (x : Decoder), s.dec[d]? = some x →
      ∃ y, t.dec[d]? = some y ∧
        (y.regReq = x.regReq ∧ y.regStrict = x.regStrict ∨ ∃ v, s.nextMove = .hostWrite ⟨.dec d, 0x08, 4⟩ v) ∧
        (x.dstate = .done ∨ x.dstate = .err →
          y.status = x.status ∧ y.inCount = x.inCount ∧ y.W = x.W ∧ y.H = x.H ∧ y.SCH = x.SCH ∧ y.CS = x.CS ∧
              y.OCH = x.OCH ∨
            ∃ v, s.nextMove = .hostWrite ⟨.dec d, 0x00, 4⟩ v ∧ v.getLsbD 0 = true))

/-- R20, R72, R246: a step changes no engine but the one its move is about; the numbers of engines stand; and what becomes
of that engine does not depend on any other. -/
def Obligations.EnginesAreIsolated : Prop :=
  (∀ s t : State, step s = .next t →
    t.enc.length = s.enc.length ∧ t.dec.length = s.dec.length ∧
    (∀ e : Nat, s.nextMove.engine ≠ .enc e → t.enc[e]? = s.enc[e]?) ∧
    (∀ d : Nat, s.nextMove.engine ≠ .dec d → t.dec[d]? = s.dec[d]?)) ∧
  (∀ (s s' t t' : State), step s = .next t → step s' = .next t' →
    s.nextMove = s'.nextMove → s.draws = s'.draws →
    (∀ e : Nat, s.nextMove.engine = .enc e → s.enc[e]? = s'.enc[e]? → t.enc[e]? = t'.enc[e]?) ∧
    (∀ d : Nat, s.nextMove.engine = .dec d → s.dec[d]? = s'.dec[d]? → t.dec[d]? = t'.dec[d]?))

/-- R69, R262, R270: the machine stops on no engine's turn, and on no host move but those the spec gives nobody. What the
model does on those is its choice, log entries 11 and 12. -/
def Obligations.StepStopsOnlyOnForbiddenMoves : Prop :=
  ∀ s : State, (∃ t, step s = .next t) ↔ s.forbids s.nextMove = false

/-- R255, R55, R256: the state after power-on reset, for any numbers of engines: IDLE, STATUS 0, `irq` low, the registers
and counters 0, no byte held; and no step is taken before a START. -/
def Obligations.ResetLeavesTheEnginesIdle : Prop :=
  ∀ nEnc nDec : Nat,
    (State.resetWith nEnc nDec).enc.length = nEnc ∧ (State.resetWith nEnc nDec).dec.length = nDec ∧
    (∀ x ∈ (State.resetWith nEnc nDec).enc, x.estate = .idle ∧ x.status = 0 ∧ x.irq = false ∧
      x.regWidth = 0 ∧ x.regHeight = 0 ∧ x.regChannels = 0 ∧ x.regColorspace = 0 ∧
      x.outCount = 0 ∧ x.i = 0 ∧ x.N = 0 ∧ x.errKind = 0 ∧ x.errDetail = 0 ∧ x.q = [] ∧ x.fifo = []) ∧
    (∀ x ∈ (State.resetWith nEnc nDec).dec, x.dstate = .idle ∧ x.status = 0 ∧ x.irq = false ∧
      x.regReq = 0 ∧ x.regStrict = false ∧ x.W = 0 ∧ x.H = 0 ∧ x.SCH = 0 ∧ x.CS = 0 ∧ x.OCH = 0 ∧
      x.inCount = 0 ∧ x.i = 0 ∧ x.N = 0 ∧ x.errKind = 0 ∧ x.errDetail = 0) ∧
    (∀ t, step (State.resetWith nEnc nDec) = .next t →
      t.enc = (State.resetWith nEnc nDec).enc ∧ t.dec = (State.resetWith nEnc nDec).dec)

/-- R259: START right after reset raises ARGUMENT/WIDTH on an encoder, and starts a default-mode decode with REQ = 0 on a
decoder. -/
def Obligations.StartRightAfterReset : Prop :=
  ∀ ag : List Move,
    (∃ (t : State) (y : Encoder),
      step { State.reset with agenda := .hostWrite ⟨.enc 0, 0, 4⟩ 1 :: ag } = .next t ∧ t.enc = [y] ∧
        y.status = 0x214 ∧ y.outCount = 0) ∧
    (∃ (t : State) (y : Decoder),
      step { State.reset with agenda := .hostWrite ⟨.dec 0, 0, 4⟩ 1 :: ag } = .next t ∧ t.dec = [y] ∧
        y.dstate = .dHdr ∧ y.REQ = 0 ∧ y.STRICT = false ∧ y.status = 1)

/-- R260-R262, R270 H-1: a port is connected while its engine is not BUSY, and changes nothing but that port. That the
move exists, its form and its refusal while BUSY are the model's choice, log entry 12. -/
def Obligations.PortsAreConnectedBetweenJobs : Prop :=
  ∀ (s : State) (ag : List Move),
    let s' := { s with agenda := ag, draws := s.draws + 1 }
    (∀ (d : Nat) (x : Decoder), s.dec[d]? = some x →
      (x.busy = false →
        (∀ items, s.agenda = .connectSource d items :: ag → step s = .next (s'.putDec d { x with source := items })) ∧
        (s.agenda = .connectPixelSink d :: ag → step s = .next (s'.putDec d { x with pixelSink := [] }))) ∧
      (x.busy = true →
        (∀ items, s.agenda = .connectSource d items :: ag → step s = .refused .hostDuty) ∧
        (s.agenda = .connectPixelSink d :: ag → step s = .refused .hostDuty))) ∧
    (∀ (e : Nat) (x : Encoder), s.enc[e]? = some x →
      (x.busy = false →
        (∀ bytes, s.agenda = .connectPixels e bytes :: ag → step s = .next (s'.putEnc e { x with pixels := bytes })) ∧
        (∀ answers, s.agenda = .connectSink e answers :: ag →
          step s = .next (s'.putEnc e { x with sink := [], sinkAnswers := answers, flushes := 0 }))) ∧
      (x.busy = true →
        (∀ bytes, s.agenda = .connectPixels e bytes :: ag → step s = .refused .hostDuty) ∧
        (∀ answers, s.agenda = .connectSink e answers :: ag → step s = .refused .hostDuty)))

/-! ### The encoder (42_encoder.md) -/

/-- R166: an encoder's turn takes the named action where the table enables it and is no step elsewhere (the model's
choice, log entry 13). -/
def Obligations.EncoderTakesOneEnabledAction : Prop :=
  ∀ (s : State) (e : Nat) (x : Encoder) (a : EncAction) (ag : List Move),
    s.enc[e]? = some x → s.agenda = .turn (.enc e a) :: ag →
      step s = .next ({ s with agenda := ag, draws := s.draws + 1 }.putEnc e
        (if x.enabled Config.params a then x.perform a s.draws else x)) ∧
      (x.enabled Config.params .drain = true ↔
        x.busy = true ∧ (x.fifo ≠ [] ∨ Config.params.outBuf = 0 ∧ x.q ≠ [])) ∧
      (x.enabled Config.params .serialize = true ↔
        x.busy = true ∧ 0 < Config.params.outBuf ∧ x.q ≠ [] ∧ x.fifo.length < Config.params.outBuf) ∧
      (x.enabled Config.params .select = true ↔ x.estate = .ePix ∧ x.q = [] ∧ x.i < x.N) ∧
      (x.enabled Config.params .endPixels = true ↔ x.estate = .ePix ∧ x.q = [] ∧ x.i = x.N) ∧
      (x.enabled Config.params .toFlush = true ↔ x.estate = .eTrl ∧ x.q = [] ∧ x.fifo = []) ∧
      (x.enabled Config.params .flush = true ↔ x.estate = .eFlush)

/-- R166, R187: a BUSY encoder always has an enabled action, so it never waits but for its ports. -/
def Obligations.BusyEncodersCanMove : Prop :=
  ∀ (c : Params) (x : Encoder), Encoder.Inv c x → x.busy = true → ∃ a, x.enabled c a = true

/-- R168: serialize moves the queue's head to the FIFO's tail; drain offers the FIFO's head (the queue's where
`OUT_BUF = 0`), and an accepted byte is removed and counted, a refused one raises IO/SINK. -/
def Obligations.SerializerKeepsTheByteOrder : Prop :=
  ∀ (x : Encoder) (fr : Nat) (b : Byte) (rest : List Byte),
    (x.q = b :: rest → x.perform .serialize fr = { x with q := rest, fifo := x.fifo ++ [b] }) ∧
    (x.fifo = b :: rest → ∀ more,
      (x.sinkAnswers = .ok :: more → x.perform .drain fr =
        { x with fifo := rest, sink := x.sink ++ [b], outCount := x.outCount + 1, sinkAnswers := more }) ∧
      (x.sinkAnswers = .error :: more →
        x.perform .drain fr = { x with sinkAnswers := more }.raise .ioSink fr)) ∧
    (x.fifo = [] → x.q = b :: rest → ∀ more,
      (x.sinkAnswers = .ok :: more → x.perform .drain fr =
        { x with q := rest, sink := x.sink ++ [b], outCount := x.outCount + 1, sinkAnswers := more }) ∧
      (x.sinkAnswers = .error :: more →
        x.perform .drain fr = { x with sinkAnswers := more }.raise .ioSink fr))

/-- R170, R171: the select action fetches the next `CH` bytes of the pixel buffer, forms the pixel and selects its opcode
in one step; a buffer that holds fewer raises ARGUMENT/PIXEL_COUNT. -/
def Obligations.PixelFetchFormsThePixel : Prop :=
  ∀ (x : Encoder) (fr : Nat),
    (∀ r g b rest, x.CH = 3 → x.pixels = r :: g :: b :: rest →
      x.perform .select fr = { x with pixels := rest }.selectPixel ⟨r, g, b, 255⟩) ∧
    (∀ r g b a rest, x.CH = 4 → x.pixels = r :: g :: b :: a :: rest →
      x.perform .select fr = { x with pixels := rest }.selectPixel ⟨r, g, b, a⟩) ∧
    (x.pixels.length < x.CH.toNat → x.perform .select fr = x.raise .argPixelCount fr)

/-- R172, R173-R182: the opcode selector, every case: what is emitted, the run counter, the cache, and the state advance.
Deltas are 8-bit differences read as two's complement. -/
def Obligations.SelectorFollowsThePriority : Prop :=
  ∀ (x : Encoder) (p : Pixel), x.run ≤ 61 →
    let y := x.selectPixel p
    let pending := if 0 < x.run then encode (.run x.run.toNat) else []
    let dr := (p.r - x.prev.r).toInt
    let dg := (p.g - x.prev.g).toInt
    let db := (p.b - x.prev.b).toInt
    let drdg := ((p.r - x.prev.r) - (p.g - x.prev.g)).toInt
    let dbdg := ((p.b - x.prev.b) - (p.g - x.prev.g)).toInt
    let diffFits := (-2 ≤ dr ∧ dr ≤ 1) ∧ (-2 ≤ dg ∧ dg ≤ 1) ∧ (-2 ≤ db ∧ db ≤ 1)
    let lumaFits := (-32 ≤ dg ∧ dg ≤ 31) ∧ (-8 ≤ drdg ∧ drdg ≤ 7) ∧ (-8 ≤ dbdg ∧ dbdg ≤ 7)
    y = { x with prev := p, i := x.i + 1, run := y.run, q := y.q, cache := y.cache } ∧
    (p = x.prev → x.run = 61 ∨ x.i + 1 = x.N →
      y.q = x.q ++ encode (.run (x.run.toNat + 1)) ∧ y.run = 0 ∧ y.cache = x.cache) ∧
    (p = x.prev → x.run ≠ 61 → x.i + 1 ≠ x.N → y.q = x.q ∧ y.run = x.run + 1 ∧ y.cache = x.cache) ∧
    (p ≠ x.prev → cacheRead x.cache (hashOf p) = p →
      y.q = x.q ++ pending ++ encode (.index (hashOf p)) ∧ y.run = 0 ∧ y.cache = x.cache) ∧
    (p ≠ x.prev → cacheRead x.cache (hashOf p) ≠ p →
      y.run = 0 ∧ y.cache = cacheWrite x.cache (hashOf p) p ∧
      (p.a = x.prev.a → diffFits → y.q = x.q ++ pending ++ encode (.diff dr dg db)) ∧
      (p.a = x.prev.a → ¬diffFits → lumaFits → y.q = x.q ++ pending ++ encode (.luma dg drdg dbdg)) ∧
      (p.a = x.prev.a → ¬diffFits → ¬lumaFits → y.q = x.q ++ pending ++ encode (.rgb p.r p.g p.b)) ∧
      (p.a ≠ x.prev.a → y.q = x.q ++ pending ++ encode (.rgba p.r p.g p.b p.a)))

/-- R172, R178: whatever the selector emits is a well-formed opcode, so every emitted delta and count fits its field. -/
def Obligations.EmittedOpcodesAreWellFormed : Prop :=
  (∀ prev p : Pixel, (missOpcode prev p).WellFormed) ∧
  ∀ (ps : List Pixel), ∀ i ∈ encodeOps EncodeLoop.start ps, i.WellFormed

/-- R101: the ten forms the encoder never emits, row by row, for every opcode `i` of every emitted sequence. `n` pixels
stand before `i`, `prev` and `cache` are the encoder's at that point, and `p` is the pixel that `i` yields. -/
def Obligations.NonCanonicalFormsAreNeverEmitted : Prop :=
  ∀ (ps : List Pixel) (before after : List Instr) (i : Instr),
    encodeOps EncodeLoop.start ps = before ++ i :: after →
      let n := (before.map repeats).sum
      let prev := lastPixel (ps.take n)
      let cache := encoderCache (ps.take n)
      ∃ p : Pixel, ps[n]? = some p ∧ (reconstruct prev cache i).1 = p ∧
        let dr := (p.r - prev.r).toInt
        let dg := (p.g - prev.g).toInt
        let db := (p.b - prev.b).toInt
        let drdg := ((p.r - prev.r) - (p.g - prev.g)).toInt
        let dbdg := ((p.b - prev.b) - (p.g - prev.g)).toInt
        let diffFits := (-2 ≤ dr ∧ dr ≤ 1) ∧ (-2 ≤ dg ∧ dg ≤ 1) ∧ (-2 ≤ db ∧ db ≤ 1)
        let lumaFits := (-32 ≤ dg ∧ dg ≤ 31) ∧ (-8 ≤ drdg ∧ drdg ≤ 7) ∧ (-8 ≤ dbdg ∧ dbdg ≤ 7)
        i ≠ .diff 0 0 0 ∧
        ((∀ m, i ≠ .run m) → p ≠ prev) ∧
        (∀ x y z, i = .luma x y z → ¬diffFits ∧ i ≠ .luma 0 0 0) ∧
        (∀ r g b, i = .rgb r g b → ¬diffFits ∧ ¬lumaFits) ∧
        (∀ r g b a, i = .rgba r g b a → p.a ≠ prev.a) ∧
        ((∀ m, i ≠ .run m) → (∀ s, i ≠ .index s) → cacheRead cache (hashOf p) ≠ p) ∧
        (∀ s, i = .index s → s = hashOf p) ∧
        (∀ m m', i = .run m → after.head? = some (.run m') → m = 62) ∧
        (∀ m, i = .run m → n + m ≤ ps.length) ∧
        ((∀ q ∈ ps, q.a = 255) → ∀ r g b a, i ≠ .rgba r g b a)

/-- R183-R186: after pixel N - 1 the trailer is emitted; once every byte has left, the sink is flushed, and its answer
completes the job or raises IO/SINK. -/
def Obligations.EndOfImageFlushesTheSink : Prop :=
  ∀ (x : Encoder) (fr : Nat),
    x.perform .endPixels fr = { x with q := x.q ++ [0, 0, 0, 0, 0, 0, 0, 1], estate := .eTrl } ∧
    x.perform .toFlush fr = { x with estate := .eFlush } ∧
    ∀ more,
      (x.sinkAnswers = .ok :: more → x.perform .flush fr =
        { x with estate := .done, flushes := x.flushes + 1, sinkAnswers := more }) ∧
      (x.sinkAnswers = .error :: more → x.perform .flush fr = { x with sinkAnswers := more }.raise .ioSink fr)

/-- R190, R186, R187, R191: whatever `OUT_BUF`, whatever order of enabled actions and whatever the ports answer, an
encoder job that reaches DONE has sent the sink exactly `EncodeStream` of its parameters and pixels, counted it, and
flushed once. R117, R118: at every point of a job `prev` is the last of the `i` pixels processed and the cache is
`encoderCache` of them, the `E` of R118. -/
def Obligations.EncoderSendsEncodeStream : Prop :=
  ∀ (c : Params) (x : Encoder) (fr : Nat) (acts : List (EncAction × Nat)), x.busy = false →
    let z := Encoder.actAll c acts (x.jobStart c fr)
    let stream := encodeStream x.regWidth x.regHeight x.regChannels x.regColorspace x.pixels
    let processed := takePixels x.regChannels z.i.toNat x.pixels
    z.prev = lastPixel processed ∧ z.cache = encoderCache processed ∧
    (z.estate = .done →
      z.sink = x.sink ++ stream ∧ z.outCount = BitVec.ofNat 64 stream.length ∧ z.flushes = x.flushes + 1 ∧
      z.i.toNat = x.regWidth.toNat * x.regHeight.toNat)

/-- R165-R186: a job with a legal descriptor, enough pixels and a sink that accepts everything can reach DONE, whatever
`OUT_BUF`. -/
def Obligations.EncoderJobsCanReachDone : Prop :=
  ∀ (c : Params) (x : Encoder) (fr : Nat),
    dimOk c x.regWidth = true → dimOk c x.regHeight = true → channelsOk x.regChannels = true →
    colorspaceOk x.regColorspace = true → x.sinkAnswers = [] →
    x.regWidth.toNat * x.regHeight.toNat * x.regChannels.toNat ≤ x.pixels.length →
      ∃ acts, (Encoder.actAll c acts (x.jobStart c fr)).estate = .done

/-- R192: the bounds of the encoded length, the lower one reached where every pixel is (0,0,0,255). -/
def Obligations.EncodedLengthBounds : Prop :=
  ∀ (W H : Word32) (CH CS : Byte) (bytes : List Byte), W ≠ 0 → H ≠ 0 → channelsOk CH = true →
    let n := W.toNat * H.toNat
    22 + (n + 61) / 62 ≤ (encodeStream W H CH CS bytes).length ∧
    (takePixels CH n bytes = List.replicate n ⟨0, 0, 0, 255⟩ →
      (encodeStream W H CH CS bytes).length = 22 + (n + 61) / 62) ∧
    (CH = 4 → (encodeStream W H CH CS bytes).length ≤ 22 + 5 * n) ∧
    (CH = 3 → (encodeStream W H CH CS bytes).length ≤ 22 + 4 * n)

/-- R195, 90_conflicts.md C2: an image of 63 equal pixels is two RUN opcodes exactly where the pixel is the initial
previous pixel, else one other opcode and RUN 62. -/
def Obligations.RunBoundaryDependsOnTheInitialPixel : Prop :=
  encodeOps EncodeLoop.start (List.replicate 63 ⟨0, 0, 0, 255⟩) = [.run 62, .run 1] ∧
  ∀ c : Pixel, c ≠ ⟨0, 0, 0, 255⟩ →
    ∃ i : Instr, (∀ n, i ≠ .run n) ∧ encodeOps EncodeLoop.start (List.replicate 63 c) = [i, .run 62]

/-! ### Whole machine -/

/-- R193, R194: decoding an encoded image gives it back: the header fields and the pixels; their beats are the pixel buffer
with REQ 0 or the stored count, alpha dropped with REQ 3, alpha 255 added with REQ 4; and what follows the stream is
untouched. -/
def Obligations.DecodingAnEncodedImageGivesItBack : Prop :=
  ∀ (c : Params) (W H : Word32) (CH CS REQ : Byte) (bytes : List Byte) (rest : List SourceItem),
    dimOk c W = true → dimOk c H = true → channelsOk CH = true → colorspaceOk CS = true → requestOk REQ = true →
    bytes.length = W.toNat * H.toNat * CH.toNat →
      let ps := takePixels CH (W.toNat * H.toNat) bytes
      let beats := beatsOf (outChannels REQ CH) CH ps
      decodeStream c REQ ((encodeStream W H CH CS bytes).map SourceItem.byte ++ rest) = .ok (⟨W, H, CH, CS⟩, ps, rest) ∧
      beats.length = W.toNat * H.toNat ∧
      beats.flatten = coerceBuffer CH REQ (W.toNat * H.toNat) bytes ∧
      (outChannels REQ CH = CH → beats.flatten = bytes)

/-- The invariant holds in the model's state after power-on reset, for any numbers of engines. The invariant also reads `run`,
`rrem`, `hk`, `arg`, `tbuf` and `ra`, which R55 leaves unspecified: this rests on the model's choice of 0 and of the empty
list for them, log entry 4. -/
def Obligations.ResetMeetsTheInvariant : Prop :=
  ∀ nEnc nDec : Nat, (State.resetWith nEnc nDec).Inv

/-- Every step keeps the invariant, from every state that meets it: R28, R30 (`i` never exceeds `N`), R32 and R226 (the
error record), R169 (the queue's bound), R171 (alpha of 3-channel jobs), R183 (the run is flushed), R137 and R146
(fetch and run states), R150 and R158 (DONE follows all pixels and a matching trailer). -/
def Obligations.StepKeepsTheInvariant : Prop :=
  ∀ s t : State, s.Inv → step s = .next t → t.Inv
end

