-- ==== Sys2Proof/Laws/State.lean ====
section
/-! SUPPORT. One lemma per field of each shared update of the state, so that no later proof unfolds one. -/

namespace Sys2Proof.Machine

/-! ### Engines of the block -/

@[simp] theorem State.putDec_enc (d : Nat) (y : Decoder) (s : State) : (s.putDec d y).enc = s.enc := rfl
@[simp] theorem State.putDec_dec (d : Nat) (y : Decoder) (s : State) : (s.putDec d y).dec = s.dec.set d y := rfl
@[simp] theorem State.putDec_cur (d : Nat) (y : Decoder) (s : State) : (s.putDec d y).cur = s.cur := rfl
@[simp] theorem State.putDec_agenda (d : Nat) (y : Decoder) (s : State) : (s.putDec d y).agenda = s.agenda := rfl
@[simp] theorem State.putDec_draws (d : Nat) (y : Decoder) (s : State) : (s.putDec d y).draws = s.draws := rfl
@[simp] theorem State.putDec_hostData (d : Nat) (y : Decoder) (s : State) : (s.putDec d y).hostData = s.hostData := rfl
@[simp] theorem State.putEnc_enc (e : Nat) (y : Encoder) (s : State) : (s.putEnc e y).enc = s.enc.set e y := rfl
@[simp] theorem State.putEnc_dec (e : Nat) (y : Encoder) (s : State) : (s.putEnc e y).dec = s.dec := rfl
@[simp] theorem State.putEnc_cur (e : Nat) (y : Encoder) (s : State) : (s.putEnc e y).cur = s.cur := rfl
@[simp] theorem State.putEnc_agenda (e : Nat) (y : Encoder) (s : State) : (s.putEnc e y).agenda = s.agenda := rfl
@[simp] theorem State.putEnc_draws (e : Nat) (y : Encoder) (s : State) : (s.putEnc e y).draws = s.draws := rfl
@[simp] theorem State.putEnc_hostData (e : Nat) (y : Encoder) (s : State) : (s.putEnc e y).hostData = s.hostData := rfl
@[simp] theorem State.drawn_enc (s : State) : (s.drawn).enc = s.enc := rfl
@[simp] theorem State.drawn_dec (s : State) : (s.drawn).dec = s.dec := rfl
@[simp] theorem State.drawn_cur (s : State) : (s.drawn).cur = s.cur := rfl
@[simp] theorem State.drawn_agenda (s : State) : (s.drawn).agenda = s.agenda.tail := rfl
@[simp] theorem State.drawn_draws (s : State) : (s.drawn).draws = s.draws + 1 := rfl
@[simp] theorem State.drawn_hostData (s : State) : (s.drawn).hostData = s.hostData := rfl

/-! ### Decoder: `Produce(p)` and `Next()` (R137) -/

@[simp] theorem Decoder.produce_dstate (p : Pixel) (x : Decoder) : (x.produce p).dstate = x.dstate := rfl
@[simp] theorem Decoder.produce_regReq (p : Pixel) (x : Decoder) : (x.produce p).regReq = x.regReq := rfl
@[simp] theorem Decoder.produce_regStrict (p : Pixel) (x : Decoder) : (x.produce p).regStrict = x.regStrict := rfl
@[simp] theorem Decoder.produce_REQ (p : Pixel) (x : Decoder) : (x.produce p).REQ = x.REQ := rfl
@[simp] theorem Decoder.produce_STRICT (p : Pixel) (x : Decoder) : (x.produce p).STRICT = x.STRICT := rfl
@[simp] theorem Decoder.produce_hk (p : Pixel) (x : Decoder) : (x.produce p).hk = x.hk := rfl
@[simp] theorem Decoder.produce_hbuf (p : Pixel) (x : Decoder) : (x.produce p).hbuf = x.hbuf := rfl
@[simp] theorem Decoder.produce_W (p : Pixel) (x : Decoder) : (x.produce p).W = x.W := rfl
@[simp] theorem Decoder.produce_H (p : Pixel) (x : Decoder) : (x.produce p).H = x.H := rfl
@[simp] theorem Decoder.produce_SCH (p : Pixel) (x : Decoder) : (x.produce p).SCH = x.SCH := rfl
@[simp] theorem Decoder.produce_CS (p : Pixel) (x : Decoder) : (x.produce p).CS = x.CS := rfl
@[simp] theorem Decoder.produce_OCH (p : Pixel) (x : Decoder) : (x.produce p).OCH = x.OCH := rfl
@[simp] theorem Decoder.produce_N (p : Pixel) (x : Decoder) : (x.produce p).N = x.N := rfl
@[simp] theorem Decoder.produce_i (p : Pixel) (x : Decoder) : (x.produce p).i = x.i + 1 := rfl
@[simp] theorem Decoder.produce_prev (p : Pixel) (x : Decoder) : (x.produce p).prev = p := rfl
@[simp] theorem Decoder.produce_rrem (p : Pixel) (x : Decoder) : (x.produce p).rrem = x.rrem := rfl
@[simp] theorem Decoder.produce_op (p : Pixel) (x : Decoder) : (x.produce p).op = x.op := rfl
@[simp] theorem Decoder.produce_arg (p : Pixel) (x : Decoder) : (x.produce p).arg = x.arg := rfl
@[simp] theorem Decoder.produce_tbuf (p : Pixel) (x : Decoder) : (x.produce p).tbuf = x.tbuf := rfl
@[simp] theorem Decoder.produce_ra (p : Pixel) (x : Decoder) : (x.produce p).ra = x.ra := rfl
@[simp] theorem Decoder.produce_cache (p : Pixel) (x : Decoder) : (x.produce p).cache = cacheWrite x.cache (hashOf p) p := rfl
@[simp] theorem Decoder.produce_inCount (p : Pixel) (x : Decoder) : (x.produce p).inCount = x.inCount := rfl
@[simp] theorem Decoder.produce_errKind (p : Pixel) (x : Decoder) : (x.produce p).errKind = x.errKind := rfl
@[simp] theorem Decoder.produce_errDetail (p : Pixel) (x : Decoder) : (x.produce p).errDetail = x.errDetail := rfl
@[simp] theorem Decoder.produce_source (p : Pixel) (x : Decoder) : (x.produce p).source = x.source := rfl
@[simp] theorem Decoder.produce_pixelSink (p : Pixel) (x : Decoder) : (x.produce p).pixelSink = x.pixelSink ++ [outBeat x.OCH x.SCH p] := rfl
@[simp] theorem Decoder.advance_dstate (x : Decoder) : (x.advance).dstate = if x.i = x.N then .dTrl else if 0 < x.rrem then .dRun else .dOp := by
  unfold Decoder.advance; split <;> [rfl; (split <;> rfl)]
@[simp] theorem Decoder.advance_regReq (x : Decoder) : (x.advance).regReq = x.regReq := by
  unfold Decoder.advance; split <;> [rfl; (split <;> rfl)]
@[simp] theorem Decoder.advance_regStrict (x : Decoder) : (x.advance).regStrict = x.regStrict := by
  unfold Decoder.advance; split <;> [rfl; (split <;> rfl)]
@[simp] theorem Decoder.advance_REQ (x : Decoder) : (x.advance).REQ = x.REQ := by
  unfold Decoder.advance; split <;> [rfl; (split <;> rfl)]
@[simp] theorem Decoder.advance_STRICT (x : Decoder) : (x.advance).STRICT = x.STRICT := by
  unfold Decoder.advance; split <;> [rfl; (split <;> rfl)]
@[simp] theorem Decoder.advance_hk (x : Decoder) : (x.advance).hk = x.hk := by
  unfold Decoder.advance; split <;> [rfl; (split <;> rfl)]
@[simp] theorem Decoder.advance_hbuf (x : Decoder) : (x.advance).hbuf = x.hbuf := by
  unfold Decoder.advance; split <;> [rfl; (split <;> rfl)]
@[simp] theorem Decoder.advance_W (x : Decoder) : (x.advance).W = x.W := by
  unfold Decoder.advance; split <;> [rfl; (split <;> rfl)]
@[simp] theorem Decoder.advance_H (x : Decoder) : (x.advance).H = x.H := by
  unfold Decoder.advance; split <;> [rfl; (split <;> rfl)]
@[simp] theorem Decoder.advance_SCH (x : Decoder) : (x.advance).SCH = x.SCH := by
  unfold Decoder.advance; split <;> [rfl; (split <;> rfl)]
@[simp] theorem Decoder.advance_CS (x : Decoder) : (x.advance).CS = x.CS := by
  unfold Decoder.advance; split <;> [rfl; (split <;> rfl)]
@[simp] theorem Decoder.advance_OCH (x : Decoder) : (x.advance).OCH = x.OCH := by
  unfold Decoder.advance; split <;> [rfl; (split <;> rfl)]
@[simp] theorem Decoder.advance_N (x : Decoder) : (x.advance).N = x.N := by
  unfold Decoder.advance; split <;> [rfl; (split <;> rfl)]
@[simp] theorem Decoder.advance_i (x : Decoder) : (x.advance).i = x.i := by
  unfold Decoder.advance; split <;> [rfl; (split <;> rfl)]
@[simp] theorem Decoder.advance_prev (x : Decoder) : (x.advance).prev = x.prev := by
  unfold Decoder.advance; split <;> [rfl; (split <;> rfl)]
@[simp] theorem Decoder.advance_rrem (x : Decoder) : (x.advance).rrem = if x.i = x.N then 0 else x.rrem := by
  unfold Decoder.advance; split <;> [rfl; (split <;> rfl)]
@[simp] theorem Decoder.advance_op (x : Decoder) : (x.advance).op = x.op := by
  unfold Decoder.advance; split <;> [rfl; (split <;> rfl)]
@[simp] theorem Decoder.advance_arg (x : Decoder) : (x.advance).arg = x.arg := by
  unfold Decoder.advance; split <;> [rfl; (split <;> rfl)]
@[simp] theorem Decoder.advance_tbuf (x : Decoder) : (x.advance).tbuf = x.tbuf := by
  unfold Decoder.advance; split <;> [rfl; (split <;> rfl)]
@[simp] theorem Decoder.advance_ra (x : Decoder) : (x.advance).ra = x.ra := by
  unfold Decoder.advance; split <;> [rfl; (split <;> rfl)]
@[simp] theorem Decoder.advance_cache (x : Decoder) : (x.advance).cache = x.cache := by
  unfold Decoder.advance; split <;> [rfl; (split <;> rfl)]
@[simp] theorem Decoder.advance_inCount (x : Decoder) : (x.advance).inCount = x.inCount := by
  unfold Decoder.advance; split <;> [rfl; (split <;> rfl)]
@[simp] theorem Decoder.advance_errKind (x : Decoder) : (x.advance).errKind = x.errKind := by
  unfold Decoder.advance; split <;> [rfl; (split <;> rfl)]
@[simp] theorem Decoder.advance_errDetail (x : Decoder) : (x.advance).errDetail = x.errDetail := by
  unfold Decoder.advance; split <;> [rfl; (split <;> rfl)]
@[simp] theorem Decoder.advance_source (x : Decoder) : (x.advance).source = x.source := by
  unfold Decoder.advance; split <;> [rfl; (split <;> rfl)]
@[simp] theorem Decoder.advance_pixelSink (x : Decoder) : (x.advance).pixelSink = x.pixelSink := by
  unfold Decoder.advance; split <;> [rfl; (split <;> rfl)]

/-! ### Decoder: errors, completion, job start (R125, R152, R231) -/

@[simp] theorem Decoder.raise_dstate (e : JobError) (fr : Nat) (x : Decoder) : (x.raise e fr).dstate = .err := rfl
@[simp] theorem Decoder.raise_regReq (e : JobError) (fr : Nat) (x : Decoder) : (x.raise e fr).regReq = x.regReq := rfl
@[simp] theorem Decoder.raise_regStrict (e : JobError) (fr : Nat) (x : Decoder) : (x.raise e fr).regStrict = x.regStrict := rfl
@[simp] theorem Decoder.raise_REQ (e : JobError) (fr : Nat) (x : Decoder) : (x.raise e fr).REQ = x.REQ := rfl
@[simp] theorem Decoder.raise_STRICT (e : JobError) (fr : Nat) (x : Decoder) : (x.raise e fr).STRICT = x.STRICT := rfl
@[simp] theorem Decoder.raise_hk (e : JobError) (fr : Nat) (x : Decoder) : (x.raise e fr).hk = x.hk := rfl
@[simp] theorem Decoder.raise_hbuf (e : JobError) (fr : Nat) (x : Decoder) : (x.raise e fr).hbuf = x.hbuf := rfl
@[simp] theorem Decoder.raise_W (e : JobError) (fr : Nat) (x : Decoder) : (x.raise e fr).W = x.W := rfl
@[simp] theorem Decoder.raise_H (e : JobError) (fr : Nat) (x : Decoder) : (x.raise e fr).H = x.H := rfl
@[simp] theorem Decoder.raise_SCH (e : JobError) (fr : Nat) (x : Decoder) : (x.raise e fr).SCH = x.SCH := rfl
@[simp] theorem Decoder.raise_CS (e : JobError) (fr : Nat) (x : Decoder) : (x.raise e fr).CS = x.CS := rfl
@[simp] theorem Decoder.raise_OCH (e : JobError) (fr : Nat) (x : Decoder) : (x.raise e fr).OCH = x.OCH := rfl
@[simp] theorem Decoder.raise_N (e : JobError) (fr : Nat) (x : Decoder) : (x.raise e fr).N = x.N := rfl
@[simp] theorem Decoder.raise_i (e : JobError) (fr : Nat) (x : Decoder) : (x.raise e fr).i = x.i := rfl
@[simp] theorem Decoder.raise_prev (e : JobError) (fr : Nat) (x : Decoder) : (x.raise e fr).prev = x.prev := rfl
@[simp] theorem Decoder.raise_rrem (e : JobError) (fr : Nat) (x : Decoder) : (x.raise e fr).rrem = x.rrem := rfl
@[simp] theorem Decoder.raise_op (e : JobError) (fr : Nat) (x : Decoder) : (x.raise e fr).op = x.op := rfl
@[simp] theorem Decoder.raise_arg (e : JobError) (fr : Nat) (x : Decoder) : (x.raise e fr).arg = x.arg := rfl
@[simp] theorem Decoder.raise_tbuf (e : JobError) (fr : Nat) (x : Decoder) : (x.raise e fr).tbuf = x.tbuf := rfl
@[simp] theorem Decoder.raise_ra (e : JobError) (fr : Nat) (x : Decoder) : (x.raise e fr).ra = x.ra := rfl
@[simp] theorem Decoder.raise_cache (e : JobError) (fr : Nat) (x : Decoder) : (x.raise e fr).cache = x.cache := rfl
@[simp] theorem Decoder.raise_inCount (e : JobError) (fr : Nat) (x : Decoder) : (x.raise e fr).inCount = x.inCount := rfl
@[simp] theorem Decoder.raise_errKind (e : JobError) (fr : Nat) (x : Decoder) : (x.raise e fr).errKind = e.kindCode := rfl
@[simp] theorem Decoder.raise_errDetail (e : JobError) (fr : Nat) (x : Decoder) : (x.raise e fr).errDetail = e.detailCode := rfl
@[simp] theorem Decoder.raise_source (e : JobError) (fr : Nat) (x : Decoder) : (x.raise e fr).source = Config.freeSource fr := rfl
@[simp] theorem Decoder.raise_pixelSink (e : JobError) (fr : Nat) (x : Decoder) : (x.raise e fr).pixelSink = Config.freePixelSink fr := rfl
@[simp] theorem Decoder.complete_dstate (x : Decoder) : (x.complete).dstate = .done := rfl
@[simp] theorem Decoder.complete_regReq (x : Decoder) : (x.complete).regReq = x.regReq := rfl
@[simp] theorem Decoder.complete_regStrict (x : Decoder) : (x.complete).regStrict = x.regStrict := rfl
@[simp] theorem Decoder.complete_REQ (x : Decoder) : (x.complete).REQ = x.REQ := rfl
@[simp] theorem Decoder.complete_STRICT (x : Decoder) : (x.complete).STRICT = x.STRICT := rfl
@[simp] theorem Decoder.complete_hk (x : Decoder) : (x.complete).hk = x.hk := rfl
@[simp] theorem Decoder.complete_hbuf (x : Decoder) : (x.complete).hbuf = x.hbuf := rfl
@[simp] theorem Decoder.complete_W (x : Decoder) : (x.complete).W = x.W := rfl
@[simp] theorem Decoder.complete_H (x : Decoder) : (x.complete).H = x.H := rfl
@[simp] theorem Decoder.complete_SCH (x : Decoder) : (x.complete).SCH = x.SCH := rfl
@[simp] theorem Decoder.complete_CS (x : Decoder) : (x.complete).CS = x.CS := rfl
@[simp] theorem Decoder.complete_OCH (x : Decoder) : (x.complete).OCH = x.OCH := rfl
@[simp] theorem Decoder.complete_N (x : Decoder) : (x.complete).N = x.N := rfl
@[simp] theorem Decoder.complete_i (x : Decoder) : (x.complete).i = x.i := rfl
@[simp] theorem Decoder.complete_prev (x : Decoder) : (x.complete).prev = x.prev := rfl
@[simp] theorem Decoder.complete_rrem (x : Decoder) : (x.complete).rrem = x.rrem := rfl
@[simp] theorem Decoder.complete_op (x : Decoder) : (x.complete).op = x.op := rfl
@[simp] theorem Decoder.complete_arg (x : Decoder) : (x.complete).arg = x.arg := rfl
@[simp] theorem Decoder.complete_tbuf (x : Decoder) : (x.complete).tbuf = x.tbuf := rfl
@[simp] theorem Decoder.complete_ra (x : Decoder) : (x.complete).ra = x.ra := rfl
@[simp] theorem Decoder.complete_cache (x : Decoder) : (x.complete).cache = x.cache := rfl
@[simp] theorem Decoder.complete_inCount (x : Decoder) : (x.complete).inCount = x.inCount := rfl
@[simp] theorem Decoder.complete_errKind (x : Decoder) : (x.complete).errKind = x.errKind := rfl
@[simp] theorem Decoder.complete_errDetail (x : Decoder) : (x.complete).errDetail = x.errDetail := rfl
@[simp] theorem Decoder.complete_source (x : Decoder) : (x.complete).source = x.source := rfl
@[simp] theorem Decoder.complete_pixelSink (x : Decoder) : (x.complete).pixelSink = x.pixelSink := rfl
@[simp] theorem Decoder.initJob_dstate (x : Decoder) : (x.initJob).dstate = .dHdr := rfl
@[simp] theorem Decoder.initJob_regReq (x : Decoder) : (x.initJob).regReq = x.regReq := rfl
@[simp] theorem Decoder.initJob_regStrict (x : Decoder) : (x.initJob).regStrict = x.regStrict := rfl
@[simp] theorem Decoder.initJob_REQ (x : Decoder) : (x.initJob).REQ = x.regReq := rfl
@[simp] theorem Decoder.initJob_STRICT (x : Decoder) : (x.initJob).STRICT = x.regStrict := rfl
@[simp] theorem Decoder.initJob_hk (x : Decoder) : (x.initJob).hk = 0 := rfl
@[simp] theorem Decoder.initJob_hbuf (x : Decoder) : (x.initJob).hbuf = 0 := rfl
@[simp] theorem Decoder.initJob_W (x : Decoder) : (x.initJob).W = 0 := rfl
@[simp] theorem Decoder.initJob_H (x : Decoder) : (x.initJob).H = 0 := rfl
@[simp] theorem Decoder.initJob_SCH (x : Decoder) : (x.initJob).SCH = 0 := rfl
@[simp] theorem Decoder.initJob_CS (x : Decoder) : (x.initJob).CS = 0 := rfl
@[simp] theorem Decoder.initJob_OCH (x : Decoder) : (x.initJob).OCH = 0 := rfl
@[simp] theorem Decoder.initJob_N (x : Decoder) : (x.initJob).N = 0 := rfl
@[simp] theorem Decoder.initJob_i (x : Decoder) : (x.initJob).i = 0 := rfl
@[simp] theorem Decoder.initJob_prev (x : Decoder) : (x.initJob).prev = Pixel.start := rfl
@[simp] theorem Decoder.initJob_rrem (x : Decoder) : (x.initJob).rrem = 0 := rfl
@[simp] theorem Decoder.initJob_op (x : Decoder) : (x.initJob).op = 0 := rfl
@[simp] theorem Decoder.initJob_arg (x : Decoder) : (x.initJob).arg = [] := rfl
@[simp] theorem Decoder.initJob_tbuf (x : Decoder) : (x.initJob).tbuf = [] := rfl
@[simp] theorem Decoder.initJob_ra (x : Decoder) : (x.initJob).ra = 0 := rfl
@[simp] theorem Decoder.initJob_cache (x : Decoder) : (x.initJob).cache = Cache.initial := rfl
@[simp] theorem Decoder.initJob_inCount (x : Decoder) : (x.initJob).inCount = 0 := rfl
@[simp] theorem Decoder.initJob_errKind (x : Decoder) : (x.initJob).errKind = 0 := rfl
@[simp] theorem Decoder.initJob_errDetail (x : Decoder) : (x.initJob).errDetail = 0 := rfl
@[simp] theorem Decoder.initJob_source (x : Decoder) : (x.initJob).source = x.source := rfl
@[simp] theorem Decoder.initJob_pixelSink (x : Decoder) : (x.initJob).pixelSink = x.pixelSink := rfl

/-! ### Encoder: the queue, errors, completion, job start (R165, R167, R186, R231) -/

@[simp] theorem Encoder.emit_estate (op : Instr) (x : Encoder) : (x.emit op).estate = x.estate := rfl
@[simp] theorem Encoder.emit_regWidth (op : Instr) (x : Encoder) : (x.emit op).regWidth = x.regWidth := rfl
@[simp] theorem Encoder.emit_regHeight (op : Instr) (x : Encoder) : (x.emit op).regHeight = x.regHeight := rfl
@[simp] theorem Encoder.emit_regChannels (op : Instr) (x : Encoder) : (x.emit op).regChannels = x.regChannels := rfl
@[simp] theorem Encoder.emit_regColorspace (op : Instr) (x : Encoder) : (x.emit op).regColorspace = x.regColorspace := rfl
@[simp] theorem Encoder.emit_W (op : Instr) (x : Encoder) : (x.emit op).W = x.W := rfl
@[simp] theorem Encoder.emit_H (op : Instr) (x : Encoder) : (x.emit op).H = x.H := rfl
@[simp] theorem Encoder.emit_CH (op : Instr) (x : Encoder) : (x.emit op).CH = x.CH := rfl
@[simp] theorem Encoder.emit_CS (op : Instr) (x : Encoder) : (x.emit op).CS = x.CS := rfl
@[simp] theorem Encoder.emit_N (op : Instr) (x : Encoder) : (x.emit op).N = x.N := rfl
@[simp] theorem Encoder.emit_i (op : Instr) (x : Encoder) : (x.emit op).i = x.i := rfl
@[simp] theorem Encoder.emit_prev (op : Instr) (x : Encoder) : (x.emit op).prev = x.prev := rfl
@[simp] theorem Encoder.emit_run (op : Instr) (x : Encoder) : (x.emit op).run = x.run := rfl
@[simp] theorem Encoder.emit_cache (op : Instr) (x : Encoder) : (x.emit op).cache = x.cache := rfl
@[simp] theorem Encoder.emit_q (op : Instr) (x : Encoder) : (x.emit op).q = x.q ++ encode op := rfl
@[simp] theorem Encoder.emit_fifo (op : Instr) (x : Encoder) : (x.emit op).fifo = x.fifo := rfl
@[simp] theorem Encoder.emit_outCount (op : Instr) (x : Encoder) : (x.emit op).outCount = x.outCount := rfl
@[simp] theorem Encoder.emit_errKind (op : Instr) (x : Encoder) : (x.emit op).errKind = x.errKind := rfl
@[simp] theorem Encoder.emit_errDetail (op : Instr) (x : Encoder) : (x.emit op).errDetail = x.errDetail := rfl
@[simp] theorem Encoder.emit_pixels (op : Instr) (x : Encoder) : (x.emit op).pixels = x.pixels := rfl
@[simp] theorem Encoder.emit_sink (op : Instr) (x : Encoder) : (x.emit op).sink = x.sink := rfl
@[simp] theorem Encoder.emit_sinkAnswers (op : Instr) (x : Encoder) : (x.emit op).sinkAnswers = x.sinkAnswers := rfl
@[simp] theorem Encoder.emit_flushes (op : Instr) (x : Encoder) : (x.emit op).flushes = x.flushes := rfl
@[simp] theorem Encoder.raise_estate (e : JobError) (fr : Nat) (x : Encoder) : (x.raise e fr).estate = .err := rfl
@[simp] theorem Encoder.raise_regWidth (e : JobError) (fr : Nat) (x : Encoder) : (x.raise e fr).regWidth = x.regWidth := rfl
@[simp] theorem Encoder.raise_regHeight (e : JobError) (fr : Nat) (x : Encoder) : (x.raise e fr).regHeight = x.regHeight := rfl
@[simp] theorem Encoder.raise_regChannels (e : JobError) (fr : Nat) (x : Encoder) : (x.raise e fr).regChannels = x.regChannels := rfl
@[simp] theorem Encoder.raise_regColorspace (e : JobError) (fr : Nat) (x : Encoder) : (x.raise e fr).regColorspace = x.regColorspace := rfl
@[simp] theorem Encoder.raise_W (e : JobError) (fr : Nat) (x : Encoder) : (x.raise e fr).W = x.W := rfl
@[simp] theorem Encoder.raise_H (e : JobError) (fr : Nat) (x : Encoder) : (x.raise e fr).H = x.H := rfl
@[simp] theorem Encoder.raise_CH (e : JobError) (fr : Nat) (x : Encoder) : (x.raise e fr).CH = x.CH := rfl
@[simp] theorem Encoder.raise_CS (e : JobError) (fr : Nat) (x : Encoder) : (x.raise e fr).CS = x.CS := rfl
@[simp] theorem Encoder.raise_N (e : JobError) (fr : Nat) (x : Encoder) : (x.raise e fr).N = x.N := rfl
@[simp] theorem Encoder.raise_i (e : JobError) (fr : Nat) (x : Encoder) : (x.raise e fr).i = x.i := rfl
@[simp] theorem Encoder.raise_prev (e : JobError) (fr : Nat) (x : Encoder) : (x.raise e fr).prev = x.prev := rfl
@[simp] theorem Encoder.raise_run (e : JobError) (fr : Nat) (x : Encoder) : (x.raise e fr).run = x.run := rfl
@[simp] theorem Encoder.raise_cache (e : JobError) (fr : Nat) (x : Encoder) : (x.raise e fr).cache = x.cache := rfl
@[simp] theorem Encoder.raise_q (e : JobError) (fr : Nat) (x : Encoder) : (x.raise e fr).q = [] := rfl
@[simp] theorem Encoder.raise_fifo (e : JobError) (fr : Nat) (x : Encoder) : (x.raise e fr).fifo = [] := rfl
@[simp] theorem Encoder.raise_outCount (e : JobError) (fr : Nat) (x : Encoder) : (x.raise e fr).outCount = x.outCount := rfl
@[simp] theorem Encoder.raise_errKind (e : JobError) (fr : Nat) (x : Encoder) : (x.raise e fr).errKind = e.kindCode := rfl
@[simp] theorem Encoder.raise_errDetail (e : JobError) (fr : Nat) (x : Encoder) : (x.raise e fr).errDetail = e.detailCode := rfl
@[simp] theorem Encoder.raise_pixels (e : JobError) (fr : Nat) (x : Encoder) : (x.raise e fr).pixels = x.pixels := rfl
@[simp] theorem Encoder.raise_sink (e : JobError) (fr : Nat) (x : Encoder) : (x.raise e fr).sink = Config.freeSink fr := rfl
@[simp] theorem Encoder.raise_sinkAnswers (e : JobError) (fr : Nat) (x : Encoder) : (x.raise e fr).sinkAnswers = x.sinkAnswers := rfl
@[simp] theorem Encoder.raise_flushes (e : JobError) (fr : Nat) (x : Encoder) : (x.raise e fr).flushes = x.flushes := rfl
@[simp] theorem Encoder.complete_estate (x : Encoder) : (x.complete).estate = .done := rfl
@[simp] theorem Encoder.complete_regWidth (x : Encoder) : (x.complete).regWidth = x.regWidth := rfl
@[simp] theorem Encoder.complete_regHeight (x : Encoder) : (x.complete).regHeight = x.regHeight := rfl
@[simp] theorem Encoder.complete_regChannels (x : Encoder) : (x.complete).regChannels = x.regChannels := rfl
@[simp] theorem Encoder.complete_regColorspace (x : Encoder) : (x.complete).regColorspace = x.regColorspace := rfl
@[simp] theorem Encoder.complete_W (x : Encoder) : (x.complete).W = x.W := rfl
@[simp] theorem Encoder.complete_H (x : Encoder) : (x.complete).H = x.H := rfl
@[simp] theorem Encoder.complete_CH (x : Encoder) : (x.complete).CH = x.CH := rfl
@[simp] theorem Encoder.complete_CS (x : Encoder) : (x.complete).CS = x.CS := rfl
@[simp] theorem Encoder.complete_N (x : Encoder) : (x.complete).N = x.N := rfl
@[simp] theorem Encoder.complete_i (x : Encoder) : (x.complete).i = x.i := rfl
@[simp] theorem Encoder.complete_prev (x : Encoder) : (x.complete).prev = x.prev := rfl
@[simp] theorem Encoder.complete_run (x : Encoder) : (x.complete).run = x.run := rfl
@[simp] theorem Encoder.complete_cache (x : Encoder) : (x.complete).cache = x.cache := rfl
@[simp] theorem Encoder.complete_q (x : Encoder) : (x.complete).q = x.q := rfl
@[simp] theorem Encoder.complete_fifo (x : Encoder) : (x.complete).fifo = x.fifo := rfl
@[simp] theorem Encoder.complete_outCount (x : Encoder) : (x.complete).outCount = x.outCount := rfl
@[simp] theorem Encoder.complete_errKind (x : Encoder) : (x.complete).errKind = x.errKind := rfl
@[simp] theorem Encoder.complete_errDetail (x : Encoder) : (x.complete).errDetail = x.errDetail := rfl
@[simp] theorem Encoder.complete_pixels (x : Encoder) : (x.complete).pixels = x.pixels := rfl
@[simp] theorem Encoder.complete_sink (x : Encoder) : (x.complete).sink = x.sink := rfl
@[simp] theorem Encoder.complete_sinkAnswers (x : Encoder) : (x.complete).sinkAnswers = x.sinkAnswers := rfl
@[simp] theorem Encoder.complete_flushes (x : Encoder) : (x.complete).flushes = x.flushes := rfl
@[simp] theorem Encoder.initJob_estate (x : Encoder) : (x.initJob).estate = .ePix := rfl
@[simp] theorem Encoder.initJob_regWidth (x : Encoder) : (x.initJob).regWidth = x.regWidth := rfl
@[simp] theorem Encoder.initJob_regHeight (x : Encoder) : (x.initJob).regHeight = x.regHeight := rfl
@[simp] theorem Encoder.initJob_regChannels (x : Encoder) : (x.initJob).regChannels = x.regChannels := rfl
@[simp] theorem Encoder.initJob_regColorspace (x : Encoder) : (x.initJob).regColorspace = x.regColorspace := rfl
@[simp] theorem Encoder.initJob_W (x : Encoder) : (x.initJob).W = x.regWidth := rfl
@[simp] theorem Encoder.initJob_H (x : Encoder) : (x.initJob).H = x.regHeight := rfl
@[simp] theorem Encoder.initJob_CH (x : Encoder) : (x.initJob).CH = x.regChannels := rfl
@[simp] theorem Encoder.initJob_CS (x : Encoder) : (x.initJob).CS = x.regColorspace := rfl
@[simp] theorem Encoder.initJob_N (x : Encoder) : (x.initJob).N = pixelCount x.regWidth x.regHeight := rfl
@[simp] theorem Encoder.initJob_i (x : Encoder) : (x.initJob).i = 0 := rfl
@[simp] theorem Encoder.initJob_prev (x : Encoder) : (x.initJob).prev = Pixel.start := rfl
@[simp] theorem Encoder.initJob_run (x : Encoder) : (x.initJob).run = 0 := rfl
@[simp] theorem Encoder.initJob_cache (x : Encoder) : (x.initJob).cache = Cache.initial := rfl
@[simp] theorem Encoder.initJob_q (x : Encoder) : (x.initJob).q = headerBytes x.regWidth x.regHeight x.regChannels x.regColorspace := rfl
@[simp] theorem Encoder.initJob_fifo (x : Encoder) : (x.initJob).fifo = [] := rfl
@[simp] theorem Encoder.initJob_outCount (x : Encoder) : (x.initJob).outCount = 0 := rfl
@[simp] theorem Encoder.initJob_errKind (x : Encoder) : (x.initJob).errKind = 0 := rfl
@[simp] theorem Encoder.initJob_errDetail (x : Encoder) : (x.initJob).errDetail = 0 := rfl
@[simp] theorem Encoder.initJob_pixels (x : Encoder) : (x.initJob).pixels = x.pixels := rfl
@[simp] theorem Encoder.initJob_sink (x : Encoder) : (x.initJob).sink = x.sink := rfl
@[simp] theorem Encoder.initJob_sinkAnswers (x : Encoder) : (x.initJob).sinkAnswers = x.sinkAnswers := rfl
@[simp] theorem Encoder.initJob_flushes (x : Encoder) : (x.initJob).flushes = x.flushes := rfl
@[simp] theorem Encoder.endPixels_estate (x : Encoder) : (x.endPixels).estate = .eTrl := rfl
@[simp] theorem Encoder.endPixels_regWidth (x : Encoder) : (x.endPixels).regWidth = x.regWidth := rfl
@[simp] theorem Encoder.endPixels_regHeight (x : Encoder) : (x.endPixels).regHeight = x.regHeight := rfl
@[simp] theorem Encoder.endPixels_regChannels (x : Encoder) : (x.endPixels).regChannels = x.regChannels := rfl
@[simp] theorem Encoder.endPixels_regColorspace (x : Encoder) : (x.endPixels).regColorspace = x.regColorspace := rfl
@[simp] theorem Encoder.endPixels_W (x : Encoder) : (x.endPixels).W = x.W := rfl
@[simp] theorem Encoder.endPixels_H (x : Encoder) : (x.endPixels).H = x.H := rfl
@[simp] theorem Encoder.endPixels_CH (x : Encoder) : (x.endPixels).CH = x.CH := rfl
@[simp] theorem Encoder.endPixels_CS (x : Encoder) : (x.endPixels).CS = x.CS := rfl
@[simp] theorem Encoder.endPixels_N (x : Encoder) : (x.endPixels).N = x.N := rfl
@[simp] theorem Encoder.endPixels_i (x : Encoder) : (x.endPixels).i = x.i := rfl
@[simp] theorem Encoder.endPixels_prev (x : Encoder) : (x.endPixels).prev = x.prev := rfl
@[simp] theorem Encoder.endPixels_run (x : Encoder) : (x.endPixels).run = x.run := rfl
@[simp] theorem Encoder.endPixels_cache (x : Encoder) : (x.endPixels).cache = x.cache := rfl
@[simp] theorem Encoder.endPixels_q (x : Encoder) : (x.endPixels).q = x.q ++ trailerBytes := rfl
@[simp] theorem Encoder.endPixels_fifo (x : Encoder) : (x.endPixels).fifo = x.fifo := rfl
@[simp] theorem Encoder.endPixels_outCount (x : Encoder) : (x.endPixels).outCount = x.outCount := rfl
@[simp] theorem Encoder.endPixels_errKind (x : Encoder) : (x.endPixels).errKind = x.errKind := rfl
@[simp] theorem Encoder.endPixels_errDetail (x : Encoder) : (x.endPixels).errDetail = x.errDetail := rfl
@[simp] theorem Encoder.endPixels_pixels (x : Encoder) : (x.endPixels).pixels = x.pixels := rfl
@[simp] theorem Encoder.endPixels_sink (x : Encoder) : (x.endPixels).sink = x.sink := rfl
@[simp] theorem Encoder.endPixels_sinkAnswers (x : Encoder) : (x.endPixels).sinkAnswers = x.sinkAnswers := rfl
@[simp] theorem Encoder.endPixels_flushes (x : Encoder) : (x.endPixels).flushes = x.flushes := rfl

end Sys2Proof.Machine
end

