-- ==== Sys2Proof/Laws/Ops.lean ====
section
/-! SUPPORT. One lemma for each shared operation: everything it can do. The proofs of the claims cite these and
unfold no operation. -/

namespace Sys2Proof.Machine

/-! ### The color cache (R112, R113) -/

@[simp] theorem cacheRead_cacheWrite_self (c : Cache) (s : BitVec 6) (p : Pixel) :
    cacheRead (cacheWrite c s p) s = p := by
  simp [cacheRead, cacheWrite]

theorem cacheRead_cacheWrite_of_ne (c : Cache) {s t : BitVec 6} (p : Pixel) (h : s ≠ t) :
    cacheRead (cacheWrite c s p) t = cacheRead c t := by
  have h' : s.toNat ≠ t.toNat := fun e => h (BitVec.eq_of_toNat_eq e)
  simp [cacheRead, cacheWrite, h']

@[simp] theorem cacheRead_initial (s : BitVec 6) : cacheRead Cache.initial s = Pixel.zero := by
  simp [cacheRead, Cache.initial]

theorem cacheWrite_idem (c : Cache) (s : BitVec 6) (p : Pixel) :
    cacheWrite (cacheWrite c s p) s p = cacheWrite c s p := by
  simp [cacheWrite]

theorem cacheWrite_read_self (c : Cache) (s : BitVec 6) : cacheWrite c s (cacheRead c s) = c := by
  simp [cacheWrite, cacheRead]

/-! ### The byte source (R62) -/

theorem Decoder.readByte_ended {x : Decoder} (h : x.source = []) : x.readByte = (.ended, x) := by
  simp [Decoder.readByte, h]

theorem Decoder.readByte_byte {x : Decoder} {b : Byte} {rest : List SourceItem}
    (h : x.source = .byte b :: rest) :
    x.readByte = (.byte b, { x with source := rest, inCount := x.inCount + 1 }) := by
  simp [Decoder.readByte, h]

theorem Decoder.readByte_error {x : Decoder} {rest : List SourceItem} (h : x.source = .error :: rest) :
    x.readByte = (.error, { x with source := rest }) := by
  simp [Decoder.readByte, h]

/-- Everything `ReadByte()` can do. -/
theorem Decoder.readByte_cases (x : Decoder) :
    (x.source = [] ∧ x.readByte = (.ended, x)) ∨
    (∃ b rest, x.source = .byte b :: rest ∧
      x.readByte = (.byte b, { x with source := rest, inCount := x.inCount + 1 })) ∨
    (∃ rest, x.source = .error :: rest ∧ x.readByte = (.error, { x with source := rest })) := by
  rcases h : x.source with _ | ⟨⟨b⟩ | _, rest⟩
  · exact .inl ⟨rfl, readByte_ended h⟩
  · exact .inr (.inl ⟨b, rest, rfl, readByte_byte h⟩)
  · exact .inr (.inr ⟨rest, rfl, readByte_error h⟩)

/-! ### The byte sink (R63) -/

/-- Everything `WriteByte(b)` can do. -/
theorem Encoder.writeByte_cases (b : Byte) (x : Encoder) :
    (∃ rest, x.writeByte b =
      (.ok, { x with sink := x.sink ++ [b], outCount := x.outCount + 1, sinkAnswers := rest })) ∨
    (∃ rest, x.sinkAnswers = .error :: rest ∧ x.writeByte b = (.error, { x with sinkAnswers := rest })) := by
  rcases h : x.sinkAnswers with _ | ⟨_ | _, rest⟩
  · exact .inl ⟨[], by simp [writeByte, h]⟩
  · exact .inl ⟨rest, by simp [writeByte, h]⟩
  · exact .inr ⟨rest, rfl, by simp [writeByte, h]⟩

/-- Everything `Flush()` can do. -/
theorem Encoder.flushPort_cases (x : Encoder) :
    (∃ rest, x.flushPort = (.ok, { x with flushes := x.flushes + 1, sinkAnswers := rest })) ∨
    (∃ rest, x.sinkAnswers = .error :: rest ∧ x.flushPort = (.error, { x with sinkAnswers := rest })) := by
  rcases h : x.sinkAnswers with _ | ⟨_ | _, rest⟩
  · exact .inl ⟨[], by simp [flushPort, h]⟩
  · exact .inl ⟨rest, by simp [flushPort, h]⟩
  · exact .inr ⟨rest, rfl, by simp [flushPort, h]⟩

/-! ### The field checks (R125, R128-R132, R165) -/

theorem dimOk_iff (c : Params) (v : Word32) : dimOk c v = true ↔ v.toNat ≠ 0 ∧ v.toNat ≤ c.maxDim := by
  have h : v ≠ 0 ↔ v.toNat ≠ 0 :=
    not_congr ⟨fun e => by simp [e], fun e => BitVec.eq_of_toNat_eq (by simpa using e)⟩
  simp only [dimOk, Bool.and_eq_true, decide_eq_true_eq, h]

theorem channelsOk_iff : ∀ v : Byte, channelsOk v = true ↔ v.toNat = 3 ∨ v.toNat = 4 := by decide

theorem colorspaceOk_iff : ∀ v : Byte, colorspaceOk v = true ↔ v.toNat = 0 ∨ v.toNat = 1 := by decide

theorem requestOk_iff : ∀ v : Byte, requestOk v = true ↔ v.toNat = 0 ∨ v.toNat = 3 ∨ v.toNat = 4 := by decide

/-- The pixel count is exact (R22, R135). -/
theorem pixelCount_toNat (W H : Word32) : (pixelCount W H).toNat = W.toNat * H.toNat := by
  simp [pixelCount]
  exact Nat.mul_lt_mul'' W.isLt H.isLt

/-- Four bytes assemble a big-endian word, whatever stood in the register (R66, R127). -/
theorem shiftIn_word (v W : Word32) :
    shiftIn (shiftIn (shiftIn (shiftIn v (W.extractLsb' 24 8)) (W.extractLsb' 16 8)) (W.extractLsb' 8 8))
      (W.extractLsb' 0 8) = W := by
  apply BitVec.eq_of_getLsbD_eq
  intro i hi
  simp only [shiftIn, BitVec.getLsbD_append, BitVec.getLsbD_extractLsb']
  rcases (by omega : i < 8 ∨ (8 ≤ i ∧ i < 16) ∨ (16 ≤ i ∧ i < 24) ∨ 24 ≤ i) with h | h | h | h
  · simp [h]
  · have e : i = 8 + (i - 8) := by omega
    simp [show ¬i < 8 by omega, show i - 8 < 8 by omega, show i - 8 < 24 by omega, ← e]
  · have e : i = 16 + (i - 8 - 8) := by omega
    simp [show ¬i < 8 by omega, show ¬i - 8 < 8 by omega, show i - 8 - 8 < 8 by omega,
      show i - 8 < 24 by omega, show i - 8 - 8 < 24 by omega, ← e]
  · have e : i = 24 + (i - 8 - 8 - 8) := by omega
    simp [show ¬i < 8 by omega, show ¬i - 8 < 8 by omega, show ¬i - 8 - 8 < 8 by omega,
      show i - 8 < 24 by omega, show i - 8 - 8 < 24 by omega, show i - 8 - 8 - 8 < 24 by omega,
      show i - 8 - 8 - 8 < 8 by omega, ← e]

/-! ### Opcode lengths (R97, R102) -/

theorem len_pos (b : Byte) : 1 ≤ len b := by simp [len]

theorem len_le (b : Byte) : len b ≤ 5 := by
  unfold len
  cases opcodeOf b <;> simp [Opcode.trailing]

theorem encode_length_le (i : Instr) : (encode i).length ≤ 5 := by cases i <;> simp [encode]

/-- A decoded run is at most 62 long (R93, R101). -/
theorem run_count_le {b : Byte} {arg : List Byte} {n : Nat} (h : decodeFields b arg = .run n) : n ≤ 62 := by
  have hb : ∀ b : Byte, opcodeOf b = .run → (b.extractLsb' 0 6).toNat + 1 ≤ 62 := by decide
  unfold decodeFields at h
  split at h <;> try (simp at h; done)
  rename_i ho
  cases h
  exact hb b ho

/-! ### The selector (R172-R181) -/

/-- The encoder's channel delta is the 8-bit difference read as two's complement (R172). -/
theorem delta_eq_sub (x y : Byte) : delta x y = (x - y).toInt := by
  unfold delta s8 wrap8
  congr 1
  apply BitVec.eq_of_toNat_eq
  simp [BitVec.toNat_ofInt]
  omega

theorem deltaDiff_eq_sub (x y : Byte) : deltaDiff x.toInt y.toInt = (x - y).toInt := by
  unfold deltaDiff s8 wrap8
  congr 1
  apply BitVec.eq_of_toInt_eq
  simp

theorem inRange_iff (lo hi x : Int) : inRange lo hi x = true ↔ lo ≤ x ∧ x ≤ hi := by simp [inRange]

/-- Everything the flush of a pending run can do (R174). -/
theorem Encoder.flushRun_eq (x : Encoder) :
    x.flushRun =
      { x with q := x.q ++ (if 0 < x.run then encode (.run x.run.toNat) else []), run := 0 } := by
  unfold flushRun
  split
  · rfl
  · have h : x.run = 0 := by bv_omega
    rw [List.append_nil, ← h]

/-- Everything the selector can do with a pixel equal to the previous one (R173, R181). -/
theorem Encoder.selectPixel_of_eq {x : Encoder} {p : Pixel} (h : p = x.prev) (hr : x.run ≤ 61) :
    x.selectPixel p =
      if x.run = 61 ∨ x.i + 1 = x.N then
        { x with prev := p, i := x.i + 1, q := x.q ++ encode (.run (x.run.toNat + 1)), run := 0 }
      else { x with prev := p, i := x.i + 1, run := x.run + 1 } := by
  have h62 : x.run + 1 = 62 ↔ x.run = 61 := by constructor <;> intro h <;> bv_omega
  have hn : (x.run + 1).toNat = x.run.toNat + 1 := by bv_omega
  have hp : 0 < x.run + 1 := by bv_omega
  unfold selectPixel
  rw [if_pos h]
  unfold extendRun
  by_cases hc : x.run = 61 ∨ x.i + 1 = x.N
  · have hb : (decide (x.run + 1 = 62) || decide (x.i + 1 = x.N)) = true := by
      rw [Bool.or_eq_true, decide_eq_true_iff, decide_eq_true_iff, h62]; exact hc
    rw [if_pos hc]
    simp only [hb, if_true, flushRun_eq, if_pos hp, hn]
  · have hb : ¬(decide (x.run + 1 = 62) || decide (x.i + 1 = x.N)) = true := by
      rw [Bool.or_eq_true, decide_eq_true_iff, decide_eq_true_iff, h62]; exact hc
    rw [if_neg hc]
    simp only [hb]
    rfl

/-- Everything the selector can do with a pixel that differs from the previous one (R174-R181). -/
theorem Encoder.selectPixel_of_ne {x : Encoder} {p : Pixel} (h : p ≠ x.prev) :
    x.selectPixel p =
      if cacheRead x.cache (hashOf p) = p then
        { x with
          prev := p, i := x.i + 1, run := 0
          q := x.q ++ (if 0 < x.run then encode (.run x.run.toNat) else []) ++ encode (.index (hashOf p)) }
      else
        { x with
          prev := p, i := x.i + 1, run := 0, cache := cacheWrite x.cache (hashOf p) p
          q := x.q ++ (if 0 < x.run then encode (.run x.run.toNat) else []) ++
            encode (missOpcode x.prev p) } := by
  unfold selectPixel
  rw [if_neg h]
  simp only [encodePixel, flushRun_eq, emit]
  split <;> rfl

/-! ### Host register writes (R40-R52) -/

/-- Everything a host write can do to an encoder. -/
theorem Encoder.writeReg_cases (c : Params) (offset : Nat) (v : Word32) (fr : Nat) (x : Encoder) :
    x.writeReg c offset v fr = x ∨
    x.busy = false ∧
      (offset = 0x00 ∧ v.getLsbD 0 = true ∧ x.writeReg c offset v fr = x.jobStart c fr ∨
        offset = 0x08 ∧ x.writeReg c offset v fr = { x with regWidth := v } ∨
        offset = 0x0C ∧ x.writeReg c offset v fr = { x with regHeight := v } ∨
        offset = 0x10 ∧ x.writeReg c offset v fr =
          { x with regChannels := v.extractLsb' 0 8, regColorspace := v.extractLsb' 8 8 }) := by
  unfold writeReg
  repeat' split
  all_goals simp [*]

/-- Everything a host write can do to a decoder. -/
theorem Decoder.writeReg_cases (offset : Nat) (v : Word32) (fr : Nat) (x : Decoder) :
    x.writeReg offset v fr = x ∨
    x.busy = false ∧
      (offset = 0x00 ∧ v.getLsbD 0 = true ∧ x.writeReg offset v fr = x.jobStart fr ∨
        offset = 0x08 ∧ x.writeReg offset v fr =
          { x with regReq := v.extractLsb' 0 8, regStrict := v.getLsbD 8 }) := by
  unfold writeReg
  repeat' split
  all_goals simp [*]

/-! ### Job start (R125, R165) -/

/-- An accepted START on a decoder: the job starts, or its requested channels are refused. -/
theorem Decoder.jobStart_cases (fr : Nat) (x : Decoder) :
    (requestOk x.regReq = true ∧ x.jobStart fr = x.initJob) ∨
    (requestOk x.regReq = false ∧ x.jobStart fr = x.initJob.raise .argReqChannels fr) := by
  cases h : requestOk x.regReq <;> simp [jobStart, h]

/-- A descriptor passes, or the first failing check names an ARGUMENT error. -/
theorem Encoder.descriptorError_cases (c : Params) (x : Encoder) :
    (x.descriptorError c = none ∧ dimOk c x.W = true ∧ dimOk c x.H = true ∧ channelsOk x.CH = true ∧
      colorspaceOk x.CS = true) ∨
    (∃ e : JobError, x.descriptorError c = some e ∧ e.ofEncoder = true ∧ e.kindCode = 1) := by
  unfold descriptorError
  cases h1 : dimOk c x.W <;> cases h2 : dimOk c x.H <;> cases h3 : channelsOk x.CH <;>
    cases h4 : colorspaceOk x.CS <;> simp [JobError.ofEncoder, JobError.kindCode]

/-- An accepted START on an encoder: the job starts, or its descriptor is refused. -/
theorem Encoder.jobStart_cases (c : Params) (fr : Nat) (x : Encoder) :
    (x.initJob.descriptorError c = none ∧ x.jobStart c fr = x.initJob) ∨
    (∃ e, x.initJob.descriptorError c = some e ∧ x.jobStart c fr = x.initJob.raise e fr) := by
  unfold jobStart
  cases h : x.initJob.descriptorError c with
  | none => exact .inl ⟨rfl, rfl⟩
  | some e => exact .inr ⟨e, rfl, rfl⟩

/-! ### Engines in the block -/

theorem State.putDec_self {s : State} {d : Nat} {x : Decoder} (h : s.dec[d]? = some x) (y : Decoder) :
    (s.putDec d y).dec[d]? = some y := by
  have hd : d < s.dec.length := (List.getElem?_eq_some_iff.mp h).1
  simp [hd]

theorem State.putDec_of_ne (s : State) {d d' : Nat} (y : Decoder) (h : d ≠ d') :
    (s.putDec d y).dec[d']? = s.dec[d']? := by
  simp [h]

theorem State.putEnc_self {s : State} {e : Nat} {x : Encoder} (h : s.enc[e]? = some x) (y : Encoder) :
    (s.putEnc e y).enc[e]? = some y := by
  have he : e < s.enc.length := (List.getElem?_eq_some_iff.mp h).1
  simp [he]

theorem State.putEnc_of_ne (s : State) {e e' : Nat} (y : Encoder) (h : e ≠ e') :
    (s.putEnc e y).enc[e']? = s.enc[e']? := by
  simp [h]

/-! ### Executing an opcode (R137, R140-R145) -/

/-- The repetitions an opcode leaves to produce (R145); the others leave `rrem` as it is. -/
def Instr.repsLeft (i : Instr) (rrem : BitVec 6) : BitVec 6 :=
  match i with
  | .rgb _ _ _ => rrem
  | .rgba _ _ _ _ => rrem
  | .index _ => rrem
  | .diff _ _ _ => rrem
  | .luma _ _ _ => rrem
  | .run count => BitVec.ofNat 6 (count - 1)

/-- What an opcode does to its decoder. -/
def Decoder.execute (i : Instr) (x : Decoder) : Decoder :=
  x.afterPixel (reconstruct x.prev x.cache i).1 (Instr.repsLeft i x.rrem)

theorem Decoder.produce_advance (p : Pixel) (r : BitVec 6) (x : Decoder) :
    ({ x with rrem := r }.produce p).advance = x.afterPixel p r := by
  unfold advance afterPixel produce
  split
  · rename_i h; simp_all
  · rename_i h
    split <;> simp_all

/-- Everything a repetition of a run can do (R146). -/
theorem Decoder.repeatRun_eq_afterPixel (x : Decoder) :
    x.repeatRun = x.afterPixel x.prev (x.rrem - 1) := by
  rw [repeatRun, produce_advance]

/-- Everything an opcode's meaning can do: its decoder executes it, and nothing else changes. -/
theorem exec_of_decoder (i : Instr) {s : State} {x : Decoder} (h : s.dec[s.cur]? = some x) :
    exec i s = .next (s.putDec s.cur (x.execute i)) := by
  have hp : ∀ p, (x.produce p).advance = x.afterPixel p x.rrem := fun p => by
    simpa using Decoder.produce_advance p x.rrem x
  cases i <;>
    simp [exec, execRgb, execRgba, execIndex, execDiff, execLuma, execRun, State.onDecoder, h, hp,
      Decoder.produce_advance, Decoder.execute, reconstruct, Instr.repsLeft, addDelta]

/-- An opcode run in a state whose current decoder has just been written. -/
theorem exec_putDec (i : Instr) {s : State} (y : Decoder) (h : s.cur < s.dec.length) :
    exec i (s.putDec s.cur y) = .next (s.putDec s.cur (y.execute i)) := by
  rw [exec_of_decoder i (x := y) (by simp [h])]
  simp [State.putDec]

/-- An opcode's meaning stops only where there is no decoder to act on. -/
theorem exec_of_no_decoder (i : Instr) {s : State} (h : s.dec[s.cur]? = none) :
    exec i s = .fault .noSuchEngine := by
  cases i <;>
    simp [exec, execRgb, execRgba, execIndex, execDiff, execLuma, execRun, State.onDecoder, h]

/-! ### Output beats and the Image (R136, R152) -/

@[simp] theorem outBeat_three (SCH : Byte) (p : Pixel) : outBeat 3 SCH p = [p.r, p.g, p.b] := rfl

@[simp] theorem outBeat_four_four (p : Pixel) : outBeat 4 4 p = [p.r, p.g, p.b, p.a] := rfl

@[simp] theorem outBeat_four_three (p : Pixel) : outBeat 4 3 p = [p.r, p.g, p.b, 255] := rfl

/-- The job's beats are the last `N`, whatever stood in the sink before. -/
theorem Decoder.jobBeats_of_append {x : Decoder} {old beats : List (List Byte)}
    (h : x.pixelSink = old ++ beats) (hn : beats.length = x.N.toNat) : x.jobBeats = beats := by
  simp [jobBeats, h, ← hn]

/-! ### The functional references, one more pixel at a time (R116-R118) -/

@[simp] theorem lastPixel_nil : lastPixel [] = Pixel.start := rfl

@[simp] theorem lastPixel_append (ps : List Pixel) (p : Pixel) : lastPixel (ps ++ [p]) = p := by
  simp [lastPixel]

@[simp] theorem decoderCache_nil : decoderCache [] = Cache.initial := rfl

@[simp] theorem decoderCache_append (ps : List Pixel) (p : Pixel) :
    decoderCache (ps ++ [p]) = cacheWrite (decoderCache ps) (hashOf p) p := by
  simp [decoderCache]

/-- The pixel part of the encoder's fold is the last pixel. -/
theorem encoderCacheStep_foldl_fst (ps : List Pixel) (st : Pixel × Cache) :
    (ps.foldl encoderCacheStep st).1 = ps.getLast?.getD st.1 := by
  induction ps generalizing st with
  | nil => rfl
  | cons p rest ih =>
    have hp : (encoderCacheStep st p).1 = p := by
      unfold encoderCacheStep
      split <;> simp_all
      split <;> rfl
    rw [List.foldl_cons, ih, hp, List.getLast?_cons, Option.getD_some]

@[simp] theorem encoderCache_nil : encoderCache [] = Cache.initial := rfl

@[simp] theorem encoderCache_append (ps : List Pixel) (p : Pixel) :
    encoderCache (ps ++ [p]) = (encoderCacheStep (lastPixel ps, encoderCache ps) p).2 := by
  have h : ps.foldl encoderCacheStep (Pixel.start, Cache.initial) = (lastPixel ps, encoderCache ps) :=
    Prod.ext (encoderCacheStep_foldl_fst ps _) rfl
  rw [← h]
  simp [encoderCache]

/-- The selector's loop state moves as the encoder's update rule says (R117, R172). -/
theorem EncodeLoop.select_state (last : Bool) (p : Pixel) (st : EncodeLoop) :
    ((st.select last p).2.prev, (st.select last p).2.cache) = encoderCacheStep (st.prev, st.cache) p := by
  unfold EncodeLoop.select encoderCacheStep
  split
  · subst p
    split <;> rfl
  · split <;> rfl

end Sys2Proof.Machine
end

