-- ==== Sys2Proof/Laws/PerInstr.lean ====
section
/-! SUPPORT. Statements about every instruction as syntax, one lemma a constructor. -/

namespace Sys2Proof.Laws.EncodedLength

/-- The encoding of a well-formed opcode is as long as its leading byte says (R97, R102). -/
def Statement (i : Instr) : Prop :=
  i.WellFormed → ∃ (b : Byte) (args : List Byte), encode i = b :: args ∧ args.length = len b - 1

theorem rgb (r g b : Byte) : Statement (.rgb r g b) := fun _ => ⟨0xFE, [r, g, b], rfl, rfl⟩

theorem rgba (r g b a : Byte) : Statement (.rgba r g b a) := fun _ => ⟨0xFF, [r, g, b, a], rfl, rfl⟩

theorem index (slot : BitVec 6) : Statement (.index slot) := by
  have h : ∀ s : BitVec 6, len (0x00#8 ||| s.setWidth 8) = 1 := by decide
  exact fun _ => ⟨_, [], rfl, by rw [h]; rfl⟩

theorem diff (dr dg db : Int) : Statement (.diff dr dg db) := by
  have h : ∀ a b c : Fin 4,
      len (0x40#8 ||| BitVec.ofNat 8 a <<< 4 ||| BitVec.ofNat 8 b <<< 2 ||| BitVec.ofNat 8 c) = 1 := by decide
  have e : ∀ x : Int, inRange (-2) 1 x = true → ∃ k : Fin 4, BitVec.ofInt 8 (x + 2) = BitVec.ofNat 8 k := by
    intro x hx
    simp only [inRange, Bool.and_eq_true, decide_eq_true_eq] at hx
    refine ⟨⟨(x + 2).toNat, by omega⟩, ?_⟩
    conv => lhs; rw [show x + 2 = ((x + 2).toNat : Int) by omega, BitVec.ofInt_natCast]
  intro hw
  simp only [Instr.WellFormed, Instr.wf, Bool.and_eq_true] at hw
  obtain ⟨a, ha⟩ := e dr hw.1.1
  obtain ⟨b, hb⟩ := e dg hw.1.2
  obtain ⟨c, hc⟩ := e db hw.2
  exact ⟨_, [], rfl, by rw [ha, hb, hc, h]; rfl⟩

theorem luma (dg drdg dbdg : Int) : Statement (.luma dg drdg dbdg) := by
  have h : ∀ k : Fin 64, len (0x80#8 ||| BitVec.ofNat 8 k) = 2 := by decide
  intro hw
  simp only [Instr.WellFormed, Instr.wf, inRange, Bool.and_eq_true, decide_eq_true_eq] at hw
  have e : BitVec.ofInt 8 (dg + 32) = BitVec.ofNat 8 (dg + 32).toNat := by
    conv => lhs; rw [show dg + 32 = ((dg + 32).toNat : Int) by omega, BitVec.ofInt_natCast]
  have hk := h ⟨(dg + 32).toNat, by omega⟩
  exact ⟨_, [_], rfl, by rw [e, hk]; rfl⟩

theorem run (count : Nat) : Statement (.run count) := by
  have h : ∀ k : Fin 62, len (0xC0#8 ||| BitVec.ofNat 8 k) = 1 := by decide
  intro hw
  simp only [Instr.WellFormed, Instr.wf, Bool.and_eq_true, decide_eq_true_eq] at hw
  have hk := h ⟨count - 1, by omega⟩
  exact ⟨_, [], rfl, by rw [hk]; rfl⟩

end Sys2Proof.Laws.EncodedLength
end

