-- ==== Sys2Proof/Laws/Step.lean ====
section
/-! SUPPORT. What a step can do: one engine takes its turn, or the host makes one move. The proofs about every step
cite these inversion lemmas. -/

namespace Sys2Proof.Machine

/-- A decoder's turn as a function of that decoder alone (R126). -/
def Decoder.turn (c : Params) (ch : ReadAhead) (fr : Nat) (x : Decoder) : Decoder :=
  match x.dstate with
  | .idle => x
  | .dHdr => x.headerStep c fr
  | .dOp =>
    match x.readByte with
    | (.ended, y) => y.raise .truncatedOpcode fr
    | (.error, y) => y.raise .ioSource fr
    | (.byte b, y) =>
      if len b = 1 then { y with op := b, arg := [] }.execute (decodeFields b [])
      else { y with op := b, arg := [], dstate := .dArg }
  | .dArg =>
    match x.readByte with
    | (.ended, y) => y.raise .truncatedOpcode fr
    | (.error, y) => y.raise .ioSource fr
    | (.byte b, y) =>
      if y.arg.length + 1 = len y.op - 1 then
        { y with arg := y.arg ++ [b] }.execute (decodeFields y.op (y.arg ++ [b]))
      else { y with arg := y.arg ++ [b] }
  | .dRun => x.repeatRun
  | .dTrl => x.trailerStep fr
  | .dRa => x.readAheadStep c ch
  | .done => x
  | .err => x

theorem Decoder.turn_of_dRun (c : Params) (ch : ReadAhead) (fr : Nat) {x : Decoder} (h : x.dstate = .dRun) :
    x.turn c ch fr = x.afterPixel x.prev (x.rrem - 1) := by
  rw [turn, h]
  exact x.repeatRun_eq_afterPixel

/-- The decoder whose opcode is being run, after the turn of decoder `d`. -/
def curAfter (x : Decoder) (d cur : Nat) : Nat :=
  if x.dstate = .dOp ∨ x.dstate = .dArg then d else cur

theorem list_set_self {α : Type} {l : List α} {i : Nat} {a : α} (h : l[i]? = some a) : l.set i a = l := by
  obtain ⟨hi, rfl⟩ := List.getElem?_eq_some_iff.mp h
  simp

theorem State.putDec_same {s : State} {d : Nat} {x : Decoder} (h : s.dec[d]? = some x) : s.putDec d x = s := by
  simp [State.putDec, list_set_self h]

/-- Everything a decoder's turn can do. -/
theorem decoderTurn_of_decoder (c : Params) {d : Nat} (ch : ReadAhead) (fr : Nat) {s : State} {x : Decoder}
    (h : s.dec[d]? = some x) :
    decoderTurn c d ch fr s = .next ({ s with cur := curAfter x d s.cur }.putDec d (x.turn c ch fr)) := by
  have hself : ∀ y, ({ s with cur := d }.putDec d y).dec[d]? = some y := fun y =>
    State.putDec_self (s := { s with cur := d }) h y
  cases hs : x.dstate
  case idle => simp [decoderTurn, h, hs, Decoder.turn, curAfter, State.putDec_same h]
  case done => simp [decoderTurn, h, hs, Decoder.turn, curAfter, State.putDec_same h]
  case err => simp [decoderTurn, h, hs, Decoder.turn, curAfter, State.putDec_same h]
  case dHdr => simp [decoderTurn, h, hs, Decoder.turn, curAfter]
  case dRun => simp [decoderTurn, h, hs, Decoder.turn, curAfter]
  case dTrl => simp [decoderTurn, h, hs, Decoder.turn, curAfter]
  case dRa => simp [decoderTurn, h, hs, Decoder.turn, curAfter]
  case dOp =>
    rcases x.readByte_cases with ⟨_, hr⟩ | ⟨b, rest, _, hr⟩ | ⟨rest, _, hr⟩
    · simp [decoderTurn, h, hs, fetchOpcode, Decoder.turn, hr, curAfter]
    · by_cases hl : len b = 1
      · simp [decoderTurn, h, hs, fetchOpcode, Decoder.turn, hr, curAfter, hl]
        rw [exec_of_decoder _ (hself _)]
        simp [State.putDec]
      · simp [decoderTurn, h, hs, fetchOpcode, Decoder.turn, hr, curAfter, hl]
    · simp [decoderTurn, h, hs, fetchOpcode, Decoder.turn, hr, curAfter]
  case dArg =>
    rcases x.readByte_cases with ⟨_, hr⟩ | ⟨b, rest, _, hr⟩ | ⟨rest, _, hr⟩
    · simp [decoderTurn, h, hs, fetchOperand, Decoder.turn, hr, curAfter]
    · by_cases hl : x.arg.length + 1 = len x.op - 1
      · simp [decoderTurn, h, hs, fetchOperand, Decoder.turn, hr, curAfter, hl]
        rw [exec_of_decoder _ (hself _)]
        simp [State.putDec]
      · simp [decoderTurn, h, hs, fetchOperand, Decoder.turn, hr, curAfter, hl]
    · simp [decoderTurn, h, hs, fetchOperand, Decoder.turn, hr, curAfter]

theorem decoderTurn_of_no_decoder (c : Params) {d : Nat} (ch : ReadAhead) (fr : Nat) {s : State}
    (h : s.dec[d]? = none) : decoderTurn c d ch fr s = .next s := by
  simp [decoderTurn, h]

/-- A step whose next move is known. -/
theorem step_of_move {s : State} {m : Move} (h : s.nextMove = m) :
    step s = takeMove Config.params m s.draws s.drawn := by
  simp [step, h]

@[simp] theorem State.nextMove_cons {s : State} {m : Move} {ag : List Move} (h : s.agenda = m :: ag) :
    s.nextMove = m := by
  simp [State.nextMove, h]

/-- A step in which a decoder takes its turn, as the agenda says. -/
theorem step_of_decoder_turn {s : State} {d : Nat} {x : Decoder} {ch : ReadAhead} {ag : List Move}
    (h : s.dec[d]? = some x) (ha : s.agenda = .turn (.dec d ch) :: ag) :
    step s = .next ({ s with cur := curAfter x d s.cur, agenda := ag, draws := s.draws + 1 }.putDec d
      (x.turn Config.params ch s.draws)) := by
  rw [step_of_move (State.nextMove_cons ha), takeMove, takeTurn, decoderTurn_of_decoder (x := x)]
  · simp [State.drawn, ha]
  · simpa using h

/-- A step in which an encoder takes its turn, as the agenda says. -/
theorem step_of_encoder_turn {s : State} {e : Nat} {x : Encoder} {a : EncAction} {ag : List Move}
    (h : s.enc[e]? = some x) (ha : s.agenda = .turn (.enc e a) :: ag) :
    step s = .next ({ s with agenda := ag, draws := s.draws + 1 }.putEnc e (x.act Config.params a s.draws)) := by
  rw [step_of_move (State.nextMove_cons ha)]
  simp [takeMove, takeTurn, encoderTurn, h, State.drawn, ha]

theorem runSteps_succ_of_next {s t : State} (h : step s = .next t) (n : Nat) :
    runSteps (n + 1) s = runSteps n t := by
  simp [runSteps, h]

@[simp] theorem runSteps_one (s : State) : runSteps 1 s = step s := by
  simp only [runSteps]; cases step s <;> rfl

/-- A run in two parts. -/
theorem runSteps_add {s t : State} {m : Nat} (h : runSteps m s = .next t) (n : Nat) :
    runSteps (m + n) s = runSteps n t := by
  induction m generalizing s with
  | zero => simp only [runSteps] at h; cases h; simp
  | succ m ih =>
    cases hs : step s with
    | next u =>
      rw [Nat.succ_add, runSteps_succ_of_next hs]
      exact ih (by simpa [runSteps, hs] using h)
    | fault r => simp [runSteps, hs] at h
    | refused r => simp [runSteps, hs] at h

/-- `n` turns of one decoder. -/
def Decoder.turns (c : Params) (ch : ReadAhead) : Nat → Nat → Decoder → Decoder
  | 0, _, x => x
  | n + 1, fr, x => Decoder.turns c ch n (fr + 1) (x.turn c ch fr)

theorem Decoder.turns_add (c : Params) (ch : ReadAhead) (m n fr : Nat) (x : Decoder) :
    Decoder.turns c ch (m + n) fr x = Decoder.turns c ch n (fr + m) (Decoder.turns c ch m fr x) := by
  induction m generalizing fr x with
  | zero => simp [Decoder.turns]
  | succ m ih =>
    rw [Nat.succ_add, Decoder.turns, Decoder.turns, ih]
    congr 1
    omega

/-- The decoder whose opcode is being run, after `n` turns of decoder `d`. -/
def Decoder.curTurns (c : Params) (ch : ReadAhead) (d : Nat) : Nat → Nat → Decoder → Nat → Nat
  | 0, _, _, cur => cur
  | n + 1, fr, x, cur => Decoder.curTurns c ch d n (fr + 1) (x.turn c ch fr) (curAfter x d cur)

/-- A run in which only decoder `d` takes turns changes no other engine, and that decoder by its turns alone. -/
theorem runSteps_of_decoder_turns {d : Nat} {ch : ReadAhead} {ag : List Move} (n : Nat) {s : State} {x : Decoder}
    (h : s.dec[d]? = some x) (ha : s.agenda = decTurns d ch n ++ ag) :
    runSteps n s = .next ({ s with
      cur := Decoder.curTurns Config.params ch d n s.draws x s.cur
      agenda := ag
      draws := s.draws + n }.putDec d (Decoder.turns Config.params ch n s.draws x)) := by
  induction n generalizing s x with
  | zero =>
    have ha' : s.agenda = ag := by simpa [decTurns] using ha
    simp [runSteps, Decoder.turns, Decoder.curTurns, State.putDec, list_set_self h, ← ha']
  | succ n ih =>
    have ha' : s.agenda = .turn (.dec d ch) :: (decTurns d ch n ++ ag) := by
      simpa [decTurns, List.replicate_succ] using ha
    have hd : d < s.dec.length := (List.getElem?_eq_some_iff.mp h).1
    rw [runSteps_succ_of_next (step_of_decoder_turn h ha'),
      ih (x := x.turn Config.params ch s.draws) (by simp [State.putDec, hd]) (by simp [State.putDec])]
    simp [State.putDec, Decoder.turns, Decoder.curTurns, Nat.add_assoc, Nat.add_comm 1]

/-- Everything a step can do to the block: nothing but the agenda, one encoder, one decoder, or the host's data.
Which change it is says the move. -/
theorem step_cases {s t : State} (h : step s = .next t) :
    t = s.drawn ∨
    (∃ e x a, s.nextMove = .turn (.enc e a) ∧ s.enc[e]? = some x ∧
      t = s.drawn.putEnc e (x.act Config.params a s.draws)) ∨
    (∃ d x ch, s.nextMove = .turn (.dec d ch) ∧ s.dec[d]? = some x ∧
      t = { s.drawn with cur := curAfter x d s.cur }.putDec d (x.turn Config.params ch s.draws)) ∨
    (∃ e x a v, s.nextMove = .hostWrite a v ∧ a.engine = .enc e ∧ s.enc[e]? = some x ∧
      t = s.drawn.putEnc e (x.writeReg Config.params a.offset v s.draws)) ∨
    (∃ d x a v, s.nextMove = .hostWrite a v ∧ a.engine = .dec d ∧ s.dec[d]? = some x ∧
      t = s.drawn.putDec d (x.writeReg a.offset v s.draws)) ∨
    (∃ a w, s.nextMove = .hostRead a ∧ t = { s.drawn with hostData := w }) ∨
    (∃ d x f, (s.nextMove = .connectPixelSink d ∧ f = Decoder.withPixelSink ∨
        ∃ items, s.nextMove = .connectSource d items ∧ f = Decoder.withSource items) ∧
      s.dec[d]? = some x ∧ x.busy = false ∧ t = s.drawn.putDec d (f x)) ∨
    (∃ e x f, ((∃ answers, s.nextMove = .connectSink e answers ∧ f = Encoder.withSink answers) ∨
        ∃ bytes, s.nextMove = .connectPixels e bytes ∧ f = Encoder.withPixels bytes) ∧
      s.enc[e]? = some x ∧ x.busy = false ∧ t = s.drawn.putEnc e (f x)) := by
  rw [step] at h
  have hdec : s.drawn.dec = s.dec := by simp
  have henc : s.drawn.enc = s.enc := by simp
  cases hm : s.nextMove with
  | turn tn =>
    cases tn with
    | enc e a =>
      cases he : s.enc[e]? with
      | none => simp [hm, takeMove, takeTurn, encoderTurn, he] at h; exact .inl h.symm
      | some x =>
        simp [hm, takeMove, takeTurn, encoderTurn, he] at h
        exact .inr (.inl ⟨e, x, a, rfl, he, h.symm⟩)
    | dec d ch =>
      cases hd : s.dec[d]? with
      | none =>
        rw [hm, takeMove, takeTurn, decoderTurn_of_no_decoder _ _ _ (by simpa using hd)] at h
        exact .inl (by simpa using h.symm)
      | some x =>
        rw [hm, takeMove, takeTurn, decoderTurn_of_decoder _ _ _ (x := x) (by simpa using hd)] at h
        exact .inr (.inr (.inl ⟨d, x, ch, rfl, hd, by simpa using h.symm⟩))
  | hostWrite a v =>
    rw [hm] at h
    simp only [takeMove, State.hostWrite] at h
    split at h
    · cases he : a.engine with
      | enc e =>
        cases hx : s.enc[e]? with
        | none => simp [he, hx] at h
        | some x =>
          simp [he, hx] at h
          exact .inr (.inr (.inr (.inl ⟨e, x, a, v, rfl, he, hx, h.symm⟩)))
      | dec d =>
        cases hx : s.dec[d]? with
        | none => simp [he, hx] at h
        | some x =>
          simp [he, hx] at h
          exact .inr (.inr (.inr (.inr (.inl ⟨d, x, a, v, rfl, he, hx, h.symm⟩))))
    · simp at h
  | hostRead a =>
    rw [hm] at h
    simp only [takeMove, State.hostRead] at h
    split at h
    · cases he : a.engine with
      | enc e =>
        cases hx : s.enc[e]? with
        | none => simp [he, hx] at h
        | some x =>
          simp [he, hx] at h
          exact .inr (.inr (.inr (.inr (.inr (.inl ⟨a, _, rfl, h.symm⟩)))))
      | dec d =>
        cases hx : s.dec[d]? with
        | none => simp [he, hx] at h
        | some x =>
          simp [he, hx] at h
          exact .inr (.inr (.inr (.inr (.inr (.inl ⟨a, _, rfl, h.symm⟩)))))
    · simp at h
  | connectSource d items =>
    cases hd : s.dec[d]? with
    | none => simp [hm, takeMove, State.connectDec, hd] at h
    | some x =>
      cases hb : x.busy with
      | true => simp [hm, takeMove, State.connectDec, hd, hb] at h
      | false =>
        simp [hm, takeMove, State.connectDec, hd, hb] at h
        exact .inr (.inr (.inr (.inr (.inr (.inr (.inl
          ⟨d, x, _, .inr ⟨items, rfl, rfl⟩, hd, hb, h.symm⟩))))))
  | connectPixelSink d =>
    cases hd : s.dec[d]? with
    | none => simp [hm, takeMove, State.connectDec, hd] at h
    | some x =>
      cases hb : x.busy with
      | true => simp [hm, takeMove, State.connectDec, hd, hb] at h
      | false =>
        simp [hm, takeMove, State.connectDec, hd, hb] at h
        exact .inr (.inr (.inr (.inr (.inr (.inr (.inl
          ⟨d, x, _, .inl ⟨rfl, rfl⟩, hd, hb, h.symm⟩))))))
  | connectSink e answers =>
    cases he : s.enc[e]? with
    | none => simp [hm, takeMove, State.connectEnc, he] at h
    | some x =>
      cases hb : x.busy with
      | true => simp [hm, takeMove, State.connectEnc, he, hb] at h
      | false =>
        simp [hm, takeMove, State.connectEnc, he, hb] at h
        exact .inr (.inr (.inr (.inr (.inr (.inr (.inr
          ⟨e, x, _, .inl ⟨answers, rfl, rfl⟩, he, hb, h.symm⟩))))))
  | connectPixels e bytes =>
    cases he : s.enc[e]? with
    | none => simp [hm, takeMove, State.connectEnc, he] at h
    | some x =>
      cases hb : x.busy with
      | true => simp [hm, takeMove, State.connectEnc, he, hb] at h
      | false =>
        simp [hm, takeMove, State.connectEnc, he, hb] at h
        exact .inr (.inr (.inr (.inr (.inr (.inr (.inr
          ⟨e, x, _, .inr ⟨bytes, rfl, rfl⟩, he, hb, h.symm⟩))))))

end Sys2Proof.Machine
end

