-- ==== Sys2Proof/Tests/Slice0.lean ====
section
/-! SUPPORT. The model's own tests, with expected values from the spec's examples and tables, and for each statement
with hypotheses a concrete case that meets them. -/

namespace Sys2Proof.Tests

open Sys2Proof.Machine

/-! ### WellFormed refuses a term that fails any one check (R96) -/

theorem test_wf_diff_red_low : ¬(Instr.diff (-3) 0 0).WellFormed := by decide
theorem test_wf_diff_red_high : ¬(Instr.diff 2 0 0).WellFormed := by decide
theorem test_wf_diff_green_high : ¬(Instr.diff 0 2 0).WellFormed := by decide
theorem test_wf_diff_blue_low : ¬(Instr.diff 0 0 (-3)).WellFormed := by decide
theorem test_wf_luma_green_low : ¬(Instr.luma (-33) 0 0).WellFormed := by decide
theorem test_wf_luma_green_high : ¬(Instr.luma 32 0 0).WellFormed := by decide
theorem test_wf_luma_red_high : ¬(Instr.luma 0 8 0).WellFormed := by decide
theorem test_wf_luma_blue_low : ¬(Instr.luma 0 0 (-9)).WellFormed := by decide
theorem test_wf_run_zero : ¬(Instr.run 0).WellFormed := by decide
theorem test_wf_run_63 : ¬(Instr.run 63).WellFormed := by decide
theorem test_wf_edges :
    (Instr.diff (-2) 1 (-2)).WellFormed ∧ (Instr.luma (-32) (-8) 7).WellFormed ∧
      (Instr.luma 31 7 (-8)).WellFormed ∧ (Instr.run 1).WellFormed ∧ (Instr.run 62).WellFormed := by decide

/-! ### Decoding, from the formats of R90-R95 written out bit by bit -/

theorem test_decode_rgb : decode [0b11111110, 1, 2, 3, 9] = .ok (.rgb 1 2 3, [9]) := by decide
theorem test_decode_rgba : decode [0b11111111, 1, 2, 3, 4, 9] = .ok (.rgba 1 2 3 4, [9]) := by decide
theorem test_decode_index : decode [0b00110101] = .ok (.index 53, []) := by decide
theorem test_decode_diff : decode [0b01001101] = .ok (.diff (-2) 1 (-1), []) := by decide
theorem test_decode_luma : decode [0b10000001, 0b11110000] = .ok (.luma (-31) 7 (-8), []) := by decide
theorem test_decode_run : decode [0b11000010] = .ok (.run 3, []) := by decide
theorem test_decode_run_longest : decode [0b11111101] = .ok (.run 62, []) := by decide
theorem test_decode_nothing : decode [] = .error .noOpcode := by decide
theorem test_decode_short : decode [0xFF, 1, 2, 3] = .error .missingOperands := by decide

theorem test_table_rgb : decodeTableWord 32 0x1E140AFE = some (.rgb 10 20 30) := by decide
theorem test_table_rgba : decodeTableWord 40 0x803C3228FF = some (.rgba 40 50 60 128) := by decide
theorem test_table_index : decodeTableWord 8 0x0E = some (.index 14) := by decide
theorem test_table_diff : decodeTableWord 8 0x7F = some (.diff 1 1 1) := by decide
theorem test_table_luma : decodeTableWord 16 0x62A4 = some (.luma 4 (-2) (-6)) := by decide
theorem test_table_run : decodeTableWord 8 0xC1 = some (.run 2) := by decide
/-- Operand bytes that the table gives no bits are 0. -/
theorem test_table_short : decodeTableWord 8 0xFF = some (.rgba 0 0 0 0) := by decide

/-! ### Encoding, from the functions of R102 -/

theorem test_encode_diff : encode (.diff 1 (-1) 0) = [0x76] := by decide
theorem test_encode_luma : encode (.luma 4 (-2) (-6)) = [0xA4, 0x62] := by decide

/-! ### Small states -/

/-- A decoder in the opcode stream of a 4 × 1 RGBA image, no pixel produced, previous pixel `p`. -/
def decoder (p : Pixel) : Decoder :=
  { Decoder.reset with dstate := .dOp, hk := 14, W := 4, H := 1, SCH := 4, OCH := 4, N := 4, prev := p, inCount := 14 }

/-- An encoder in a 4 × 1 RGBA image, no pixel consumed, nothing queued, previous pixel `p`. -/
def encoder (p : Pixel) : Encoder :=
  { Encoder.reset with estate := .ePix, W := 4, H := 1, CH := 4, N := 4, prev := p }

/-- One decoder, and the moves to come. -/
def decState (x : Decoder) (ag : List Move) : State := { State.reset with dec := [x], agenda := ag }

/-- One encoder, and the moves to come. -/
def encState (x : Encoder) (ag : List Move) : State := { State.reset with enc := [x], agenda := ag }

/-- Decoder 0 after a step, where there is one. -/
def dec0 : Host.Outcome State Fault Refusal → Option Decoder
  | .next t => t.dec[0]?
  | .fault _ => none
  | .refused _ => none

/-- The pixel produced, the contents of a slot, the pixel count, the state and the repetitions left. -/
def summary (slot : BitVec 6) (x : Decoder) : Pixel × Pixel × Word64 × DState × BitVec 6 :=
  (x.prev, cacheRead x.cache slot, x.i, x.dstate, x.rrem)

/-! ### One opcode each (95_test_vectors.md section 2.2) -/

theorem test_rgb_keeps_alpha :
    (dec0 (exec (.rgb 1 2 3) (decState (decoder ⟨10, 20, 30, 40⟩) []))).map (summary 26) =
      some (⟨1, 2, 3, 40⟩, ⟨1, 2, 3, 40⟩, 1, .dOp, 0) := by decide
theorem test_rgba :
    (dec0 (exec (.rgba 1 2 3 4) (decState (decoder Pixel.start) []))).map (summary 14) =
      some (⟨1, 2, 3, 4⟩, ⟨1, 2, 3, 4⟩, 1, .dOp, 0) := by decide
theorem test_index_of_unwritten_slot :
    (dec0 (exec (.index 53) (decState (decoder Pixel.start) []))).map (summary 0) =
      some (⟨0, 0, 0, 0⟩, ⟨0, 0, 0, 0⟩, 1, .dOp, 0) := by decide
theorem test_diff_wraps_below :
    (dec0 (exec (.diff (-2) (-2) (-2)) (decState (decoder Pixel.start) []))).map (summary 23) =
      some (⟨254, 254, 254, 255⟩, ⟨254, 254, 254, 255⟩, 1, .dOp, 0) := by decide
theorem test_diff_wraps_above :
    (dec0 (exec (.diff 1 0 0) (decState (decoder ⟨255, 0, 0, 255⟩) []))).map (summary 53) =
      some (⟨0, 0, 0, 255⟩, ⟨0, 0, 0, 255⟩, 1, .dOp, 0) := by decide
/-- R144's example: bytes `80 00`. -/
theorem test_luma_wraps :
    (dec0 (exec (.luma (-32) (-8) (-8)) (decState (decoder Pixel.start) []))).map (·.prev) =
      some ⟨216, 224, 216, 255⟩ := by decide
/-- R145's example: the first of three repetitions. -/
theorem test_run_first_repetition :
    (dec0 (exec (.run 3) (decState (decoder Pixel.start) []))).map (summary 53) =
      some (⟨0, 0, 0, 255⟩, ⟨0, 0, 0, 255⟩, 1, .dRun, 2) := by decide
/-- R146's example: a run that passes the last pixel is cut short. -/
theorem test_run_cut_short :
    (dec0 (exec (.run 5) (decState { decoder Pixel.start with N := 1 } []))).map (summary 53) =
      some (⟨0, 0, 0, 255⟩, ⟨0, 0, 0, 255⟩, 1, .dTrl, 0) := by decide

/-! ### The very next step runs the word that is placed -/

theorem test_step_rgb :
    (dec0 (step (State.reset.withFetchWord 32 0x1E140AFE))).map (summary 9) =
      some (⟨10, 20, 30, 255⟩, ⟨10, 20, 30, 255⟩, 1, .dOp, 0) := by decide
theorem test_step_rgba :
    (dec0 (step (State.reset.withFetchWord 40 0x04030201FF))).map (·.prev) = some ⟨1, 2, 3, 4⟩ := by decide
theorem test_step_index :
    (dec0 (step (State.reset.withFetchWord 8 0x35))).map (·.prev) = some ⟨0, 0, 0, 0⟩ := by decide
theorem test_step_diff :
    (dec0 (step (State.reset.withFetchWord 8 0x7F))).map (·.prev) = some ⟨1, 1, 1, 255⟩ := by decide
theorem test_step_luma :
    (dec0 (step (State.reset.withFetchWord 16 0x0080))).map (·.prev) = some ⟨216, 224, 216, 255⟩ := by decide
theorem test_step_run :
    (dec0 (step (State.reset.withFetchWord 8 0xC2))).map (summary 53) =
      some (⟨0, 0, 0, 255⟩, ⟨0, 0, 0, 255⟩, 1, .dRun, 2) := by decide

/-! ### The selector (examples of R173-R180) -/

/-- The bytes queued, the run counter and a slot, after a pixel. -/
def selected (slot : BitVec 6) (x : Encoder) : List Byte × BitVec 6 × Pixel := (x.q, x.run, cacheRead x.cache slot)

theorem test_select_run_62 :
    selected 0 ({ encoder ⟨9, 9, 9, 255⟩ with run := 61, N := 100 }.selectPixel ⟨9, 9, 9, 255⟩) =
      ([0xFD], 0, ⟨0, 0, 0, 0⟩) := by decide
theorem test_select_flushes_run :
    selected 4 ({ encoder Pixel.start with run := 2 }.selectPixel ⟨1, 1, 1, 255⟩) =
      ([0xC1, 0x7F], 0, ⟨1, 1, 1, 255⟩) := by decide
theorem test_select_index :
    selected 0 ((encoder Pixel.start).selectPixel ⟨0, 0, 0, 0⟩) = ([0x00], 0, ⟨0, 0, 0, 0⟩) := by decide
theorem test_select_diff_wraps :
    ((encoder ⟨255, 0, 0, 255⟩).selectPixel ⟨0, 254, 0, 255⟩).q = [0x72] := by decide
theorem test_select_luma :
    ((encoder Pixel.start).selectPixel ⟨216, 224, 216, 255⟩).q = [0x80, 0x00] := by decide
theorem test_select_rgb :
    ((encoder Pixel.start).selectPixel ⟨100, 0, 0, 255⟩).q = [0xFE, 100, 0, 0] := by decide
theorem test_select_rgba :
    selected 14 ((encoder Pixel.start).selectPixel ⟨1, 2, 3, 4⟩) = ([0xFF, 1, 2, 3, 4], 0, ⟨1, 2, 3, 4⟩) := by
  decide

/-! ### Host accesses -/

theorem test_misaligned_access :
    step { State.reset with agenda := [.hostRead ⟨.enc 0, 0x06, 4⟩] } = .refused .notAWordAccess := rfl
theorem test_narrow_access :
    step { State.reset with agenda := [.hostWrite ⟨.dec 0, 0x08, 1⟩ 3] } = .refused .notAWordAccess := rfl
theorem test_absent_engine :
    step { State.reset with agenda := [.hostWrite ⟨.enc 1, 0x08, 4⟩ 3] } = .fault .noSuchEngine := rfl

/-! ### What the statements assume can be met -/

/-- Encoder 0 after a step, where there is one. -/
def enc0 : Host.Outcome State Fault Refusal → Option Encoder
  | .next t => t.enc[0]?
  | .fault _ => none
  | .refused _ => none

/-- The stream `S1` (95_test_vectors.md): the 2 × 1 RGBA image 1,2,3,4 5,6,7,8. -/
def streamS1 : List Byte :=
  [0x71, 0x6F, 0x69, 0x66, 0, 0, 0, 2, 0, 0, 0, 1, 4, 0, 0xFF, 1, 2, 3, 4, 0xFF, 5, 6, 7, 8, 0, 0, 0, 0, 0, 0, 0, 1]

/-- Parameters the spec allows (R6). -/
def small : Params := ⟨2 ^ 31 - 1, 2, 3⟩

theorem witness_DecodeOfEncodeIsIdentity :
    (Instr.diff (-2) 1 (-2)).WellFormed ∧ (Instr.luma 31 7 (-8)).WellFormed ∧ (Instr.run 62).WellFormed := by decide

theorem witness_EncodeOfDecodeIsIdentity :
    decode [0x80, 0x00, 7] = .ok (.luma (-32) (-8) (-8), [7]) := by decide

theorem witness_LengthFollowsFromTheLeadingByte :
    len 0xFF ≤ [0xFF, 1, 2, 3, 4].length ∧ [0xFF, 1, 2, 3].length < len 0xFF := by decide

theorem witness_OpcodeMapByLeadingByte :
    (0xFE : Byte).toNat = 0xFE ∧ (0xFF : Byte).toNat = 0xFF ∧ (0x3F : Byte).toNat ≤ 0x3F ∧
    (0x40 ≤ (0x40 : Byte).toNat ∧ (0x7F : Byte).toNat ≤ 0x7F) ∧
    (0x80 ≤ (0x80 : Byte).toNat ∧ (0xBF : Byte).toNat ≤ 0xBF) ∧
    (0xC0 ≤ (0xC0 : Byte).toNat ∧ (0xFD : Byte).toNat ≤ 0xFD) := by decide

theorem witness_EveryByteStringIsALegalOpcode :
    [1, 2, 3, 4].length = len 0xFF - 1 ∧
      (decState (decoder Pixel.start) []).dec[(decState (decoder Pixel.start) []).cur]? =
        some (decoder Pixel.start) := ⟨by decide, rfl⟩

theorem witness_RunByteIsNeverALiteral : 1 ≤ 1 ∧ 1 ≤ 62 ∧ 62 ≤ 62 := by decide

theorem witness_CacheWriteReplacesOneSlot : (62 : BitVec 6) ≠ 63 := by decide

/-- The two caches differ after (0,0,0,255), and agree again after a pixel that hashes to 53. -/
theorem witness_CachesAgreeButForSlot53 :
    cacheRead (encoderCache [⟨0, 0, 0, 255⟩]) 53 ≠ cacheRead (decoderCache [⟨0, 0, 0, 255⟩]) 53 ∧
    hashOf ⟨64, 0, 0, 255⟩ = 53 ∧
    cacheRead (encoderCache [⟨0, 0, 0, 255⟩, ⟨64, 0, 0, 255⟩]) 53 =
      cacheRead (decoderCache [⟨0, 0, 0, 255⟩, ⟨64, 0, 0, 255⟩]) 53 := by decide

/-- The hypotheses of both clauses of `FetchesAndRuns` can be met, the second for an end and for a failure of the source
after `k` bytes. -/
def CanFetch (bytes : List Byte) (k : Nat) : Prop :=
  (∃ (s : State) (d : Nat) (x : Decoder) (ch : ReadAhead) (rest : List SourceItem) (ag : List Move),
    s.dec[d]? = some x ∧ x.dstate = .dOp ∧ x.source = bytes.map SourceItem.byte ++ rest ∧
      s.agenda = decTurns d ch bytes.length ++ ag) ∧
  (∃ (s : State) (d : Nat) (x : Decoder) (ch : ReadAhead) (ag : List Move),
    s.dec[d]? = some x ∧ x.dstate = .dOp ∧ k < bytes.length ∧ s.agenda = decTurns d ch (k + 1) ++ ag ∧
      x.source = (bytes.take k).map SourceItem.byte) ∧
  (∃ (s : State) (d : Nat) (x : Decoder) (ch : ReadAhead) (rest : List SourceItem) (ag : List Move),
    s.dec[d]? = some x ∧ x.dstate = .dOp ∧ k < bytes.length ∧ s.agenda = decTurns d ch (k + 1) ++ ag ∧
      x.source = (bytes.take k).map SourceItem.byte ++ .error :: rest)

theorem canFetch (bytes : List Byte) (k : Nat) (h : k < bytes.length) : CanFetch bytes k :=
  ⟨⟨decState { decoder Pixel.start with source := bytes.map SourceItem.byte ++ [.byte 9] }
      (decTurns 0 .complete bytes.length ++ []), 0, _, .complete, [.byte 9], [], rfl, rfl, rfl, rfl⟩,
   ⟨decState { decoder Pixel.start with source := (bytes.take k).map SourceItem.byte }
      (decTurns 0 .complete (k + 1) ++ []), 0, _, .complete, [], rfl, rfl, h, rfl, rfl⟩,
   ⟨decState { decoder Pixel.start with source := (bytes.take k).map SourceItem.byte ++ .error :: [] }
      (decTurns 0 .complete (k + 1) ++ []), 0, _, .complete, [], [], rfl, rfl, h, rfl, rfl⟩⟩

/-- The decoder every opcode statement asks for. -/
theorem witness_current_decoder :
    (decState (decoder Pixel.start) []).dec[(decState (decoder Pixel.start) []).cur]? = some (decoder Pixel.start) := rfl

theorem witness_RgbGivesItsChannels : CanFetch [0xFE, 1, 2, 3] 3 := canFetch _ _ (by decide)
theorem witness_RgbaGivesItsChannels : CanFetch [0xFF, 1, 2, 3, 4] 4 := canFetch _ _ (by decide)
theorem witness_IndexGivesItsSlot : CanFetch [0x3F] 0 := canFetch _ _ (by decide)
theorem witness_DiffAddsItsDeltas : CanFetch [0x7F] 0 := canFetch _ _ (by decide)
theorem witness_LumaAddsItsDeltas : CanFetch [0xBF, 0xFF] 1 := canFetch _ _ (by decide)
theorem witness_RunStartsItsRepetitions : CanFetch [0xFD] 0 ∧ (61 : BitVec 6).toNat ≤ 61 :=
  ⟨canFetch _ _ (by decide), by decide⟩

/-- A decoder in the middle of a run: `r` repetitions left, one pixel produced. -/
def running (r : BitVec 6) : Decoder := { decoder Pixel.start with dstate := .dRun, rrem := r, i := 1 }

theorem witness_RunRepetitionIsOnePixel :
    (decState (running 61) [.turn (.dec 0 .read)]).dec[0]? = some (running 61) ∧ (running 61).dstate = .dRun ∧
      0 < (running 61).rrem ∧ (running 61).i < (running 61).N ∧
      (decState (running 61) [.turn (.dec 0 .read)]).agenda = .turn (.dec 0 .read) :: [] :=
  ⟨rfl, rfl, by decide, by decide, rfl⟩

/-- A decoder about to read `RUN 62`, with 4 pixels to go. -/
def beforeRun : Decoder := { decoder Pixel.start with source := [.byte 0xFD, .byte 0] }

theorem witness_RunProducesItsCountOrWhatIsLeft :
    (decState beforeRun (decTurns 0 .read 4)).dec[0]? = some beforeRun ∧ beforeRun.dstate = .dOp ∧
      beforeRun.i < beforeRun.N ∧ 1 ≤ 62 ∧ 62 ≤ 62 ∧
      beforeRun.source = .byte (BitVec.ofNat 8 (0xC0 + (62 - 1))) :: [.byte 0] ∧
      4 = min 62 (beforeRun.N.toNat - beforeRun.i.toNat) ∧
      (decState beforeRun (decTurns 0 .read 4)).agenda = decTurns 0 .read 4 ++ [] :=
  ⟨rfl, rfl, by decide, by decide, by decide, rfl, by decide, rfl⟩

/-- A decoder for each pair of channel counts of R136. -/
def decoderOf (OCH SCH : Byte) (p : Pixel) : Decoder := { decoder p with OCH := OCH, SCH := SCH }

theorem witness_OpcodesChangeNothingElse :
    ∀ c ∈ [((3 : Byte), (3 : Byte)), (3, 4), (4, 3), (4, 4)],
      (decoderOf c.1 c.2 Pixel.start).OCH = c.1 ∧ (decoderOf c.1 c.2 Pixel.start).SCH = c.2 ∧
        ∃ t, exec (.index 5) (decState (decoderOf c.1 c.2 Pixel.start) []) = .next t :=
  fun _ _ => ⟨rfl, rfl, _, rfl⟩

/-- Stored 3, requested 4, a pixel whose alpha is not 255: the beat carries 255 (R136, P3). -/
theorem test_beat_alpha_synthesized :
    (dec0 (exec (.rgba 1 2 3 4) (decState (decoderOf 4 3 Pixel.start) []))).map (·.pixelSink) =
      some [[1, 2, 3, 255]] := by decide

/-- An Image is the job's own N beats, whatever the sink held before (R152). -/
theorem test_image_of_a_second_job :
    { decoderOf 3 3 Pixel.start with
      dstate := .done, W := 2, N := 2, i := 2, CS := 1, pixelSink := [[7, 7, 7], [1, 2, 3], [4, 5, 6]] }.image =
      ⟨2, 1, 3, 1, [1, 2, 3, 4, 5, 6]⟩ := by decide

theorem witness_OpcodesStopOnlyWithoutADecoder :
    exec (.index 5) { State.reset with cur := 1 } = .fault .noSuchEngine := rfl

/-- One turn of decoder 0. -/
def turn0 (ch : ReadAhead) : List Move := [.turn (.dec 0 ch)]

theorem witness_StepRunsTheDecodedOpcode :
    let x : Decoder := { decoder Pixel.start with source := [.byte 0x3F] }
    (decState x (turn0 .read)).dec[0]? = some x ∧ x.dstate = .dOp ∧
      (decState x (turn0 .read)).agenda = .turn (.dec 0 .read) :: [] ∧ x.source = .byte 0x3F :: [] ∧
      decode [0x3F] = .ok (.index 63, []) ∧ decode [0xFE] = .error .missingOperands :=
  ⟨rfl, rfl, rfl, rfl, by decide, by decide⟩

theorem witness_StepRunsTheCompletedOpcode :
    let x : Decoder := { decoder Pixel.start with dstate := .dArg, op := 0xFE, arg := [1, 2], source := [.byte 3] }
    (decState x (turn0 .read)).dec[0]? = some x ∧ x.dstate = .dArg ∧ x.arg.length + 1 < len x.op ∧
      (decState x (turn0 .read)).agenda = .turn (.dec 0 .read) :: [] ∧ x.source = .byte 3 :: [] ∧
      decode (x.op :: (x.arg ++ [3])) = .ok (.rgb 1 2 3, []) ∧
      decode (x.op :: ([] ++ [3])) = .error .missingOperands :=
  ⟨rfl, rfl, by decide, rfl, rfl, by decide, by decide⟩

/-- A decoder in its header, `k` bytes in. -/
def inHeader (k : Nat) (source : List SourceItem) : Decoder :=
  { Decoder.reset with dstate := .dHdr, hk := k, source := source }

theorem witness_HeaderStepChecksEachField :
    ∀ k ∈ [0, 3, 4, 7, 11, 12, 13],
      (decState (inHeader k [.byte 3]) (turn0 .read)).dec[0]? = some (inHeader k [.byte 3]) ∧
        (inHeader k [.byte 3]).dstate = .dHdr ∧ (inHeader k [.byte 3]).hk = k ∧
        (inHeader k [.byte 3]).source = .byte 3 :: [] :=
  fun _ _ => ⟨rfl, rfl, rfl, rfl⟩

/-- A dimension that every implementation accepts. -/
theorem dimOk_largest : dimOk Config.params 0x7FFFFFFF = true := by
  cases h : Config.maxDimIsU32 <;> simp [dimOk, Config.params, h]

theorem dimOk_one : dimOk Config.params 1 = true := by
  cases h : Config.maxDimIsU32 <;> simp [dimOk, Config.params, h]

/-- A decoder before the header of a 2147483647 × 1 image. -/
def beforeHeader : Decoder :=
  inHeader 0 ((headerBytes 0x7FFFFFFF 1 4 1).map SourceItem.byte ++ [.byte 0xC0])

theorem witness_LegalHeaderOpensTheOpcodeStream :
    (decState beforeHeader (decTurns 0 .read 14)).dec[0]? = some beforeHeader ∧ beforeHeader.dstate = .dHdr ∧
      beforeHeader.hk = 0 ∧ dimOk Config.params 0x7FFFFFFF = true ∧ dimOk Config.params 1 = true ∧
      channelsOk 4 = true ∧ colorspaceOk 1 = true ∧
      beforeHeader.source = (headerBytes 0x7FFFFFFF 1 4 1).map SourceItem.byte ++ [.byte 0xC0] ∧
      (decState beforeHeader (decTurns 0 .read 14)).agenda = decTurns 0 .read 14 ++ [] := by
  refine ⟨rfl, rfl, rfl, dimOk_largest, dimOk_one, by decide, by decide, rfl, ?_⟩
  simp [decState]

/-- A decoder that has read `bytes` of its trailer. -/
def inTrailer (bytes : List Byte) (strict : Bool) (source : List SourceItem) : Decoder :=
  { decoder Pixel.start with dstate := .dTrl, i := 4, tbuf := bytes, STRICT := strict, source := source }

theorem witness_TrailerIsReadWholeThenCompared :
    ∀ strict : Bool,
      (decState (inTrailer [0, 0, 0, 0, 0, 0, 0] strict [.byte 1]) (turn0 .read)).dec[0]? =
          some (inTrailer [0, 0, 0, 0, 0, 0, 0] strict [.byte 1]) ∧
        (inTrailer [0, 0, 0, 0, 0, 0, 0] strict [.byte 1]).dstate = .dTrl ∧
        (inTrailer [0, 0, 0, 0, 0, 0, 0] strict [.byte 1]).tbuf.length = 7 ∧
        (inTrailer [0, 0, 0, 0, 0, 0, 0] strict [.byte 1]).tbuf ++ [1] = [0, 0, 0, 0, 0, 0, 0, 1] ∧
        (inTrailer [0, 0, 0, 0, 0, 0, 0] strict [.byte 1]).tbuf ++ [2] ≠ [0, 0, 0, 0, 0, 0, 0, 1] ∧
        (inTrailer [0, 0, 0, 0, 0, 0, 0] strict [.byte 1]).STRICT = strict ∧
        (inTrailer [0, 0, 0, 0, 0, 0] strict [.byte 1]).tbuf.length < 7 := by
  intro strict
  exact ⟨rfl, rfl, rfl, rfl, fun h => by simp [inTrailer] at h, rfl, Nat.lt_succ_self 6⟩

/-- A decoder in read-ahead, `k` bytes in. -/
def readingAhead (k : Nat) (source : List SourceItem) : Decoder :=
  { inTrailer trailerBytes false source with dstate := .dRa, ra := k }

theorem witness_ReadAheadDiscardsOrCompletes :
    (decState (readingAhead 2 [.byte 7]) (turn0 .read)).dec[0]? = some (readingAhead 2 [.byte 7]) ∧
      (readingAhead 2 [.byte 7]).dstate = .dRa ∧ (readingAhead 2 [.byte 7]).ra < small.raMax ∧
      small.raMax ≤ (readingAhead 3 [.byte 7]).ra ∧ (readingAhead 2 [.byte 7]).source = .byte 7 :: [] ∧
      (readingAhead 2 []).source = [] ∧ (readingAhead 2 [.error]).source = .error :: [] ∧
      (decState (readingAhead 2 [.byte 7]) (turn0 .read)).agenda = .turn (.dec 0 .read) :: [] :=
  ⟨rfl, rfl, by decide, by decide, rfl, rfl, rfl, rfl⟩

theorem witness_ReadModesAgreeBeforeReadAhead :
    let x := inTrailer [0, 0, 0, 0, 0, 0, 0] true [.byte 1]
    (decState x (turn0 .read)).dec[0]? = some x ∧ x.dstate ≠ .dRa ∧
      (decState x (turn0 .read)).agenda = .turn (.dec 0 .read) :: [] ∧
      ∃ t y, step (decState x (turn0 .read)) = .next t ∧ t.dec[0]? = some y :=
  ⟨rfl, by decide, rfl, _, _, rfl, rfl⟩

/-- A job's state and agenda; and that both results of `DecodeStream` occur. -/
theorem witness_DecoderComputesDecodeStream :
    let y : Decoder := { Decoder.reset with regReq := 4, source := streamS1.map SourceItem.byte }
    requestOk y.regReq = true ∧
      (∀ n, (decState y.initJob (decTurns 0 .complete n)).dec[0]? = some y.initJob ∧
        (decState y.initJob (decTurns 0 .complete n)).agenda = decTurns 0 .complete n ++ []) ∧
      decodeStream small 4 (streamS1.map SourceItem.byte) = .ok (⟨2, 1, 4, 0⟩, [⟨1, 2, 3, 4⟩, ⟨5, 6, 7, 8⟩], []) ∧
      decodeStream small 4 [.byte 0x71] = .error .truncatedHeader := by
  refine ⟨by decide, fun n => ⟨rfl, ?_⟩, by decide, by decide⟩
  simp [decState]

/-- A decoder and an encoder that have ended a job, and an accepted START. -/
theorem witness_OnlyStartLeavesErrAndDone :
    (∃ t, step (decState { decoder Pixel.start with dstate := .done } [.hostWrite ⟨.dec 0, 0, 4⟩ 1]) = .next t) ∧
    (∃ t, step (encState { encoder Pixel.start with estate := .err } [.hostWrite ⟨.enc 0, 0, 4⟩ 1]) = .next t) :=
  ⟨⟨_, rfl⟩, ⟨_, rfl⟩⟩

theorem witness_EnginesTakeNoStepUnlessBusy :
    { State.reset with agenda := turn0 .read }.dec[0]? = some Decoder.reset ∧ Decoder.reset.busy = false ∧
      { State.reset with agenda := [.turn (.enc 0 .drain)] }.enc[0]? = some Encoder.reset ∧
      Encoder.reset.busy = false := ⟨rfl, rfl, rfl, rfl⟩

theorem witness_StartOnADecoder :
    { State.reset with agenda := [.hostWrite ⟨.dec 0, 0, 4⟩ 1] }.dec[0]? = some Decoder.reset ∧
      Decoder.reset.busy = false ∧ (1 : Word32).getLsbD 0 = true := ⟨rfl, rfl, by decide⟩

theorem witness_StartOnAnEncoder :
    { State.reset with agenda := [.hostWrite ⟨.enc 0, 0, 4⟩ 1] }.enc[0]? = some Encoder.reset ∧
      Encoder.reset.busy = false ∧ (1 : Word32).getLsbD 0 = true := ⟨rfl, rfl, by decide⟩

theorem witness_HostReadsTheRegisterMap :
    { State.reset with agenda := [.hostRead ⟨.enc 0, 0x18, 4⟩] }.enc[0]? = some Encoder.reset ∧
      { State.reset with agenda := [.hostRead ⟨.dec 0, 0x1C, 4⟩] }.dec[0]? = some Decoder.reset ∧
      (∀ off ∈ [0x00, 0x04, 0x08, 0x0C, 0x10, 0x14, 0x18, 0x1C, 0x20], off % 4 = 0) := ⟨rfl, rfl, by decide⟩

theorem witness_HostWritesTheParameterRegisters :
    { State.reset with agenda := [.hostWrite ⟨.enc 0, 0x10, 4⟩ 0x104] }.enc[0]? = some Encoder.reset ∧
      Encoder.reset.busy = false ∧
      { State.reset with agenda := [.hostWrite ⟨.dec 0, 0x08, 4⟩ 0x103] }.dec[0]? = some Decoder.reset ∧
      Decoder.reset.busy = false ∧ (2 : Word32).getLsbD 0 = false := ⟨rfl, rfl, rfl, rfl, by decide⟩

theorem witness_BusyEnginesIgnoreWrites :
    (HostAddr.mk (.dec 0) 0 4).isWord = true ∧
      (decState (decoder Pixel.start) [.hostWrite ⟨.dec 0, 0, 4⟩ 1]).engineBusy (.dec 0) = true ∧
      (encState (encoder Pixel.start) [.hostWrite ⟨.enc 0, 0, 4⟩ 1]).engineBusy (.enc 0) = true := by decide

theorem witness_StatusWordShowsTheFlags :
    (decoder Pixel.start).busy = true ∧ (encoder Pixel.start).busy = true := by decide

theorem witness_ParametersSurviveJobs :
    let x : Decoder := { decoder Pixel.start with dstate := .done }
    let y : Encoder := { encoder Pixel.start with estate := .err }
    (∃ t, step (decState x (turn0 .read)) = .next t) ∧ (decState x (turn0 .read)).dec[0]? = some x ∧
      x.dstate = .done ∧ (∃ t, step (encState y [.turn (.enc 0 .drain)]) = .next t) ∧
      (encState y [.turn (.enc 0 .drain)]).enc[0]? = some y ∧ y.estate = .err :=
  ⟨⟨_, rfl⟩, rfl, rfl, ⟨_, rfl⟩, rfl, rfl⟩

/-- Two states that differ in the other engine only. -/
theorem witness_EnginesAreIsolated :
    let s := decState (decoder Pixel.start) (turn0 .read)
    let s' := { s with enc := [encoder Pixel.start] }
    (∃ t, step s = .next t) ∧ (∃ t', step s' = .next t') ∧ s.nextMove = s'.nextMove ∧ s.draws = s'.draws ∧
      s.nextMove.engine = .dec 0 ∧ s.dec[0]? = s'.dec[0]? :=
  ⟨⟨_, rfl⟩, ⟨_, rfl⟩, rfl, rfl, rfl, rfl⟩

theorem witness_StepStopsOnlyOnForbiddenMoves :
    State.reset.forbids (.hostRead ⟨.enc 0, 4, 4⟩) = false ∧ State.reset.forbids (.hostRead ⟨.enc 0, 5, 4⟩) = true := by
  decide

theorem witness_ResetLeavesTheEnginesIdle :
    Encoder.reset ∈ (State.resetWith 1 1).enc ∧ Decoder.reset ∈ (State.resetWith 1 1).dec ∧
      ∃ t, step (State.resetWith 1 1) = .next t := by
  refine ⟨by simp [State.resetWith], by simp [State.resetWith], ?_⟩
  cases h : Config.freeTurn 0 with
  | enc e a =>
    cases e <;> exact ⟨_, by simp [step, State.nextMove, State.resetWith, State.drawn, h, takeMove, takeTurn, encoderTurn]; rfl⟩
  | dec d ch =>
    cases d <;> exact ⟨_, by
      simp [step, State.nextMove, State.resetWith, State.drawn, h, takeMove, takeTurn, decoderTurn, Decoder.reset]; rfl⟩

theorem witness_PortsAreConnectedBetweenJobs :
    { State.reset with agenda := [.connectSource 0 [.byte 1]] }.dec[0]? = some Decoder.reset ∧
      Decoder.reset.busy = false ∧ (decoder Pixel.start).busy = true ∧
      { State.reset with agenda := [.connectPixels 0 [1]] }.enc[0]? = some Encoder.reset ∧
      Encoder.reset.busy = false ∧ (encoder Pixel.start).busy = true := by
  exact ⟨rfl, rfl, by decide, rfl, rfl, by decide⟩

theorem witness_EncoderTakesOneEnabledAction :
    (encState (encoder Pixel.start) [.turn (.enc 0 .select)]).enc[0]? = some (encoder Pixel.start) ∧
      (encState (encoder Pixel.start) [.turn (.enc 0 .select)]).agenda = .turn (.enc 0 .select) :: [] := ⟨rfl, rfl⟩

theorem encoder_inv (p : Pixel) : Encoder.Inv small (encoder p) := by
  constructor <;> simp [encoder, Encoder.reset, Encoder.busy, dimOk, channelsOk, colorspaceOk, pixelCount, small]

theorem witness_BusyEncodersCanMove :
    Encoder.Inv small (encoder Pixel.start) ∧ (encoder Pixel.start).busy = true := ⟨encoder_inv _, by decide⟩

theorem witness_SerializerKeepsTheByteOrder :
    let x : Encoder := { encoder Pixel.start with q := [1, 2], fifo := [], sinkAnswers := [.ok] }
    let y : Encoder := { encoder Pixel.start with q := [1, 2], fifo := [8, 9], sinkAnswers := [.error] }
    x.q = 1 :: [2] ∧ x.fifo = [] ∧ x.sinkAnswers = .ok :: [] ∧ y.fifo = 8 :: [9] ∧ y.sinkAnswers = .error :: [] :=
  ⟨rfl, rfl, rfl, rfl, rfl⟩

theorem witness_PixelFetchFormsThePixel :
    let x : Encoder := { encoder Pixel.start with CH := 3, pixels := [1, 2, 3, 4] }
    let y : Encoder := { encoder Pixel.start with CH := 4, pixels := [1, 2, 3, 4] }
    let z : Encoder := { encoder Pixel.start with CH := 4, pixels := [1, 2, 3] }
    x.CH = 3 ∧ x.pixels = 1 :: 2 :: 3 :: [4] ∧ y.CH = 4 ∧ y.pixels = 1 :: 2 :: 3 :: 4 :: [] ∧
      z.pixels.length < z.CH.toNat := ⟨rfl, rfl, rfl, rfl, by decide⟩

/-- A pixel for each case of the selector. -/
theorem witness_SelectorFollowsThePriority :
    let x := encoder Pixel.start
    let full : Encoder := { x with run := 61 }
    let last : Encoder := { x with i := 3 }
    x.run ≤ 61 ∧ full.run ≤ 61 ∧ full.run = 61 ∧ last.i + 1 = last.N ∧ x.run ≠ 61 ∧ x.i + 1 ≠ x.N ∧
      ((⟨0, 0, 0, 0⟩ : Pixel) ≠ x.prev ∧ cacheRead x.cache (hashOf ⟨0, 0, 0, 0⟩) = ⟨0, 0, 0, 0⟩) ∧
      ((⟨1, 254, 0, 255⟩ : Pixel) ≠ x.prev ∧ cacheRead x.cache (hashOf ⟨1, 254, 0, 255⟩) ≠ ⟨1, 254, 0, 255⟩ ∧
        missOpcode x.prev ⟨1, 254, 0, 255⟩ = .diff 1 (-2) 0) ∧
      missOpcode x.prev ⟨216, 224, 231, 255⟩ = .luma (-32) (-8) 7 ∧
      missOpcode x.prev ⟨100, 0, 0, 255⟩ = .rgb 100 0 0 ∧
      missOpcode x.prev ⟨0, 0, 0, 254⟩ = .rgba 0 0 0 254 := by decide

theorem witness_EmittedOpcodesAreWellFormed :
    Instr.run 2 ∈ encodeOps EncodeLoop.start [⟨0, 0, 0, 255⟩, ⟨0, 0, 0, 255⟩, ⟨1, 2, 3, 4⟩] := by decide

/-- An image that takes each of the six opcodes. -/
def sixOpcodes : List Pixel :=
  [⟨0, 0, 0, 255⟩, ⟨1, 0, 0, 255⟩, ⟨11, 10, 10, 255⟩, ⟨100, 10, 10, 255⟩, ⟨100, 10, 10, 4⟩, ⟨1, 0, 0, 255⟩, ⟨1, 0, 0, 255⟩]

/-- Every opcode is emitted somewhere; a run of 63 from job start is two RUN opcodes (W4). -/
theorem witness_NonCanonicalFormsAreNeverEmitted :
    encodeOps EncodeLoop.start sixOpcodes =
        [.run 1, .diff 1 0 0, .luma 10 0 0, .rgb 100 10 10, .rgba 100 10 10 4, .index 56, .run 1] ∧
      (∀ p ∈ List.replicate 63 Pixel.start, p.a = 255) ∧
      encodeOps EncodeLoop.start (List.replicate 63 Pixel.start) = [] ++ .run 62 :: [.run 1] := by
  refine ⟨by decide, fun p hp => ?_, by decide⟩
  rw [List.eq_of_mem_replicate hp]
  rfl

theorem witness_EndOfImageFlushesTheSink :
    { encoder Pixel.start with estate := .eFlush, sinkAnswers := [.ok] }.sinkAnswers = .ok :: [] ∧
      { encoder Pixel.start with estate := .eFlush, sinkAnswers := [.error] }.sinkAnswers = .error :: [] := ⟨rfl, rfl⟩

/-- An encoder set up for the 2 × 1 image of `S1`. -/
def encodeS1 : Encoder :=
  { Encoder.reset with regWidth := 2, regHeight := 1, regChannels := 4, pixels := [1, 2, 3, 4, 5, 6, 7, 8] }

/-- `n` turns with one action. -/
def acts (n : Nat) (a : EncAction) : List (EncAction × Nat) := List.replicate n (a, 0)

/-- One order of enabled actions of that job, with `OUT_BUF` = 0. -/
def actionsS1 : List (EncAction × Nat) :=
  acts 14 .drain ++ acts 1 .select ++ acts 5 .drain ++ acts 1 .select ++ acts 5 .drain ++ acts 1 .endPixels ++
    acts 8 .drain ++ acts 1 .toFlush ++ acts 1 .flush

theorem witness_EncoderSendsEncodeStream :
    encodeS1.busy = false ∧
      (Encoder.actAll ⟨2 ^ 31 - 1, 0, 0⟩ actionsS1 (encodeS1.jobStart ⟨2 ^ 31 - 1, 0, 0⟩ 0)).estate = .done := by decide +kernel

/-- W1: what that job's sink has received. -/
theorem test_encode_S1 :
    (Encoder.actAll ⟨2 ^ 31 - 1, 0, 0⟩ actionsS1 (encodeS1.jobStart ⟨2 ^ 31 - 1, 0, 0⟩ 0)).sink = streamS1 := by decide +kernel

theorem witness_EncoderJobsCanReachDone :
    dimOk small encodeS1.regWidth = true ∧ dimOk small encodeS1.regHeight = true ∧
      channelsOk encodeS1.regChannels = true ∧ colorspaceOk encodeS1.regColorspace = true ∧
      encodeS1.sinkAnswers = [] ∧
      encodeS1.regWidth.toNat * encodeS1.regHeight.toNat * encodeS1.regChannels.toNat ≤ encodeS1.pixels.length := by decide

theorem witness_EncodedLengthBounds :
    (2 : Word32) ≠ 0 ∧ (1 : Word32) ≠ 0 ∧ channelsOk 3 = true ∧ channelsOk 4 = true ∧
      takePixels 3 ((2 : Word32).toNat * (1 : Word32).toNat) [0, 0, 0, 0, 0, 0] =
        List.replicate ((2 : Word32).toNat * (1 : Word32).toNat) ⟨0, 0, 0, 255⟩ := by decide

theorem witness_RunBoundaryDependsOnTheInitialPixel : (⟨0, 0, 0, 0⟩ : Pixel) ≠ ⟨0, 0, 0, 255⟩ := by decide

theorem witness_DecodingAnEncodedImageGivesItBack :
    dimOk small 2 = true ∧ dimOk small 1 = true ∧ channelsOk 4 = true ∧ colorspaceOk 0 = true ∧ requestOk 3 = true ∧
      [1, 2, 3, 4, 5, 6, 7, 8].length = (2 : Word32).toNat * (1 : Word32).toNat * (4 : Byte).toNat := by decide

/-- A state in the middle of a job that meets the invariant, and a step from it. -/
theorem witness_StepKeepsTheInvariant :
    ({ State.reset with agenda := [.hostWrite ⟨.dec 0, 0x08, 4⟩ 3] } : State).Inv ∧
      ∃ t, step { State.reset with agenda := [.hostWrite ⟨.dec 0, 0x08, 4⟩ 3] } = .next t := by
  refine ⟨⟨fun x hx => ?_, fun x hx => ?_⟩, _, rfl⟩
  · have hx' : x = Encoder.reset := by simpa [State.reset, State.resetWith] using hx
    subst hx'
    constructor <;> simp [Encoder.reset, Encoder.busy]
  · have hx' : x = Decoder.reset := by simpa [State.reset, State.resetWith] using hx
    subst hx'
    constructor <;> simp [Decoder.reset, Decoder.inImage]

end Sys2Proof.Tests
end

section
/-! PROOFS. The encoding (30_encoding.md): the opcode map by value, opcode lengths, and the totality of decoding. -/

namespace Sys2Proof.Machine

/-! ### The opcode map by value (R88, R89) -/

/-- The tag is the leading byte's quarter of the range 0..255 (R88). -/
theorem tag_toNat (b : Byte) : (tag b).toNat = b.toNat / 64 := by
  have hb : b.toNat < 256 := b.isLt
  rw [tag, BitVec.extractLsb'_toNat, Nat.shiftRight_eq_div_pow]
  omega

/-- R89's priority, with every test on the value of the leading byte. -/
theorem opcodeOf_eq_of_toNat (b : Byte) :
    opcodeOf b =
      if b.toNat = 0xFE then .rgb
      else if b.toNat = 0xFF then .rgba
      else if b.toNat / 64 = 0 then .index
      else if b.toNat / 64 = 1 then .diff
      else if b.toNat / 64 = 2 then .luma
      else .run := by
  simp only [opcodeOf, ← BitVec.toNat_inj, tag_toNat]
  rfl

/-- Settles O4: each range of values fails the tests before its own and passes that one. -/
theorem opcodeMapByLeadingByte : Obligations.OpcodeMapByLeadingByte := by
  intro b
  have selects {o : Opcode} (h : opcodeOf b = o) : opcodeOf b = o ∧ len b = 1 + o.trailing := ⟨h, by rw [len, h]⟩
  refine ⟨fun h => selects ?rgb, fun h => selects ?rgba, fun h => selects ?index, fun h => selects ?diff,
    fun h => selects ?luma, fun h => selects ?run⟩
  case rgb => rw [opcodeOf_eq_of_toNat, if_pos h]
  case rgba => rw [opcodeOf_eq_of_toNat, if_neg (by omega), if_pos h]
  case index => rw [opcodeOf_eq_of_toNat, if_neg (by omega), if_neg (by omega), if_pos (by omega)]
  case diff => rw [opcodeOf_eq_of_toNat, if_neg (by omega), if_neg (by omega), if_neg (by omega), if_pos (by omega)]
  case luma =>
    rw [opcodeOf_eq_of_toNat, if_neg (by omega), if_neg (by omega), if_neg (by omega),
      if_neg (by omega), if_pos (by omega)]
  case run =>
    rw [opcodeOf_eq_of_toNat, if_neg (by omega), if_neg (by omega), if_neg (by omega),
      if_neg (by omega), if_neg (by omega)]

/-! ### Opcode lengths (R97) -/

/-- Whatever the trailing bytes are, the decoded opcode's encoding is as long as its leading byte says. -/
theorem encode_decodeFields_length (b : Byte) (arg : List Byte) : (encode (decodeFields b arg)).length = len b := by
  unfold decodeFields len
  cases opcodeOf b <;> rfl

theorem decode_cons_of_le {b : Byte} {args : List Byte} (h : len b - 1 ≤ args.length) :
    decode (b :: args) = .ok (decodeFields b (args.take (len b - 1)), args.drop (len b - 1)) := if_pos h

theorem decode_cons_of_lt {b : Byte} {args : List Byte} (h : args.length < len b - 1) :
    decode (b :: args) = .error .missingOperands := if_neg (Nat.not_le.mpr h)

/-- R97's table: the literal bytes come first, then the tag alone decides. -/
theorem len_eq (b : Byte) :
    len b = if b = 0xFE then 4 else if b = 0xFF then 5 else if tag b = 0b10 then 2 else 1 := by
  unfold len opcodeOf
  split_ifs <;> simp_all [Opcode.trailing]

/-- Settles O3: the table of lengths, and decoding with enough bytes and with too few. -/
theorem lengthFollowsFromTheLeadingByte : Obligations.LengthFollowsFromTheLeadingByte := by
  refine ⟨len_eq, fun b args => ⟨fun hle => ?_, fun hlt => ?_⟩⟩
  · have hdrop : (b :: args).drop (len b) = args.drop (len b - 1) := List.drop_cons (len_pos b)
    have hargs : len b - 1 ≤ args.length := Nat.sub_le_of_le_add hle
    exact ⟨_, by rw [decode_cons_of_le hargs, hdrop], encode_decodeFields_length b _⟩
  · exact decode_cons_of_lt (Nat.lt_sub_of_add_lt hlt)

/-! ### Totality (R99) -/

/-- After an opcode its decoder repeats a run, fetches the next opcode, or reads the trailer. -/
theorem Decoder.execute_dstate_ne_err (i : Instr) (x : Decoder) : (x.execute i).dstate ≠ .err := by
  unfold execute afterPixel
  dsimp only
  split_ifs <;> decide

/-- Settles O5: the count of leading bytes of each opcode, decoding with any trailing bytes, and no error from an
opcode's execution. -/
theorem everyByteStringIsALegalOpcode : Obligations.EveryByteStringIsALegalOpcode := by
  refine ⟨by decide, fun b args hargs => ?_, fun i s x hx => ?_⟩
  · have hrest : args.drop (len b - 1) = [] := List.drop_eq_nil_of_le hargs.le
    exact ⟨_, by rw [decode_cons_of_le hargs.ge, hrest]⟩
  · exact ⟨x.execute i, exec_of_decoder i hx, x.execute_dstate_ne_err i, rfl, rfl⟩

end Sys2Proof.Machine
end

section
/-! PROOFS. The color cache (40_color_cache.md): the hash indexer and its six-bit and signed forms, and the slot a
write replaces. -/

namespace Sys2Proof.Machine

/-! ### The hash indexer (R110, R111) -/

/-- R110's formula: the sum, cut to the six bits of a slot index. -/
theorem hashOf_toNat (p : Pixel) :
    (hashOf p).toNat = (p.r.toNat * 3 + p.g.toNat * 5 + p.b.toNat * 7 + p.a.toNat * 11) % 64 :=
  BitVec.toNat_ofNat ..

/-- Settles O8: the sum is largest where all four channels are 255. -/
theorem hashIsTheWeightedSumMod64 : Obligations.HashIsTheWeightedSumMod64 := by
  refine ⟨fun p => ⟨hashOf_toNat p, ?_⟩, by decide⟩
  have channel_le (v : Byte) : v.toNat ≤ 255 := Nat.le_of_lt_succ v.isLt
  have := channel_le p.r
  have := channel_le p.g
  have := channel_le p.b
  have := channel_le p.a
  omega

/-- The hash as a residue of integers: any four values congruent to the channels modulo 64 give the same slot. -/
theorem hashOf_toNat_eq_emod_of_modEq {p : Pixel} {r g b a : Int} (hr : r ≡ p.r.toNat [ZMOD 64])
    (hg : g ≡ p.g.toNat [ZMOD 64]) (hb : b ≡ p.b.toNat [ZMOD 64]) (ha : a ≡ p.a.toNat [ZMOD 64]) :
    ((hashOf p).toNat : Int) = (r * 3 + g * 5 + b * 7 + a * 11) % 64 := by
  have hsum := (((hr.mul_right 3).add (hg.mul_right 5)).add (hb.mul_right 7)).add (ha.mul_right 11)
  rw [hashOf_toNat, hsum.eq]
  push_cast
  rfl

/-- Bits [5:0] of a channel are its residue modulo 64. -/
theorem lowSixBits_modEq (v : Byte) : ((v.extractLsb' 0 6).toNat : Int) ≡ v.toNat [ZMOD 64] := by
  rw [BitVec.extractLsb'_toNat, Nat.shiftRight_zero]
  exact Int.natCast_modEq_iff.mpr (Nat.mod_modEq v.toNat 64)

/-- The signed reading differs from the unsigned one by a multiple of 256, hence of 64. -/
theorem s8_modEq (v : Byte) : s8 v ≡ v.toNat [ZMOD 64] := by
  have hmod256 : s8 v ≡ v.toNat [ZMOD 256] := by
    rw [s8, BitVec.toInt_eq_toNat_bmod]
    exact Int.bmod_emod
  exact hmod256.of_dvd (by decide)

/-- Settles O9: both readings of the channels are congruent to the unsigned one modulo 64. -/
theorem hashNeedsSixBitsOfEachChannel : Obligations.HashNeedsSixBitsOfEachChannel := by
  intro p
  constructor
  · have hlow := hashOf_toNat_eq_emod_of_modEq (lowSixBits_modEq p.r) (lowSixBits_modEq p.g) (lowSixBits_modEq p.b)
      (lowSixBits_modEq p.a)
    omega
  · exact hashOf_toNat_eq_emod_of_modEq (s8_modEq p.r) (s8_modEq p.g) (s8_modEq p.b) (s8_modEq p.a)

/-! ### The register array (R112, R113) -/

/-- Settles O10: the cache's rules for a read of the slot just written, of another slot, and at job start. -/
theorem cacheWriteReplacesOneSlot : Obligations.CacheWriteReplacesOneSlot := by
  intro c s p
  exact ⟨cacheRead_cacheWrite_self c s p, fun t hne => cacheRead_cacheWrite_of_ne c p hne.symm, cacheRead_initial⟩

end Sys2Proof.Machine
end

section
/-! PROOFS. The decoder's steps around the opcodes (41_decoder.md): a turn in each state that reads the byte source,
and what a step of the block makes of it. -/

namespace Sys2Proof.Machine

section

variable {c : Params} {ch : ReadAhead} {fr : Nat} {x : Decoder} {b : Byte} {rest : List SourceItem}

/-! ### A turn in which the source has no byte (R127, R138, R139, R150) -/

/-- The error that `End` raises in a state that reads the stream. -/
def DState.endError : DState → Option JobError
  | .dHdr => some .truncatedHeader
  | .dOp => some .truncatedOpcode
  | .dArg => some .truncatedOpcode
  | .dTrl => some .truncatedTrailer
  | _ => none

theorem Decoder.turn_of_ended {e : JobError} (he : x.dstate.endError = some e) (hs : x.source = []) :
    x.turn c ch fr = x.raise e fr := by
  have hr := readByte_ended hs
  cases h : x.dstate <;> rw [h] at he <;> cases he
  · simp [turn, h, headerStep, hr]
  · simp [turn, h, hr]
  · simp [turn, h, hr]
  · simp [turn, h, trailerStep, hr]

/-- The source's position after an error is a free value (R232), so the consumed answer does not show. -/
theorem Decoder.turn_of_source_error {e : JobError} (he : x.dstate.endError = some e)
    (hs : x.source = .error :: rest) : x.turn c ch fr = x.raise .ioSource fr := by
  have hr := readByte_error hs
  cases h : x.dstate <;> rw [h] at he <;> cases he
  · simp [turn, h, headerStep, hr, raise]
  · simp [turn, h, hr, raise]
  · simp [turn, h, hr, raise]
  · simp [turn, h, trailerStep, hr, raise]

/-! ### A turn that takes a byte -/

/-- A leading byte is recorded (R138). -/
def Decoder.takeLeading (b : Byte) (rest : List SourceItem) (x : Decoder) : Decoder :=
  { x with source := rest, inCount := x.inCount + 1, op := b, arg := [] }

/-- An operand byte is kept (R139). -/
def Decoder.takeOperand (b : Byte) (rest : List SourceItem) (x : Decoder) : Decoder :=
  { x with source := rest, inCount := x.inCount + 1, arg := x.arg ++ [b] }

/-- A header byte is shifted into the assembly register (R127). -/
def Decoder.takeHeaderByte (b : Byte) (rest : List SourceItem) (x : Decoder) : Decoder :=
  { x with source := rest, inCount := x.inCount + 1, hk := x.hk + 1, hbuf := shiftIn x.hbuf b }

/-- A trailer byte is kept (R150). -/
def Decoder.takeTrailerByte (b : Byte) (rest : List SourceItem) (x : Decoder) : Decoder :=
  { x with source := rest, inCount := x.inCount + 1, tbuf := x.tbuf ++ [b] }

theorem Decoder.turn_of_dOp (h : x.dstate = .dOp) (hs : x.source = .byte b :: rest) :
    x.turn c ch fr =
      if len b = 1 then (x.takeLeading b rest).execute (decodeFields b [])
      else { x.takeLeading b rest with dstate := .dArg } := by
  simp [turn, h, readByte_byte hs, takeLeading]

theorem Decoder.turn_of_dArg (h : x.dstate = .dArg) (hs : x.source = .byte b :: rest) :
    x.turn c ch fr =
      if x.arg.length + 1 = len x.op - 1 then
        (x.takeOperand b rest).execute (decodeFields x.op (x.arg ++ [b]))
      else x.takeOperand b rest := by
  simp [turn, h, readByte_byte hs, takeOperand]

theorem Decoder.turn_of_dHdr (h : x.dstate = .dHdr) (hs : x.source = .byte b :: rest) :
    x.turn c ch fr = (x.takeHeaderByte b rest).headerField c b fr := by
  simp [turn, h, headerStep, readByte_byte hs, takeHeaderByte]

theorem Decoder.turn_of_dTrl (h : x.dstate = .dTrl) (hs : x.source = .byte b :: rest) :
    x.turn c ch fr =
      if x.tbuf.length = 7 then (x.takeTrailerByte b rest).checkTrailer fr else x.takeTrailerByte b rest := by
  simp [turn, h, trailerStep, readByte_byte hs, takeTrailerByte]

end

/-! ### The step that gives the turn to a decoder -/

section

variable {s : State} {d : Nat} {x : Decoder} {ch : ReadAhead} {ag : List Move}

/-- Opcode and operand fetch name their decoder in `cur` (log 20). -/
theorem step_of_fetch_turn (hf : x.dstate = .dOp ∨ x.dstate = .dArg) (h : s.dec[d]? = some x)
    (ha : s.agenda = .turn (.dec d ch) :: ag) :
    step s = .next ({ s with cur := d, agenda := ag, draws := s.draws + 1 }.putDec d
      (x.turn Config.params ch s.draws)) := by
  rw [step_of_decoder_turn h ha, curAfter, if_pos hf]

/-- The other turns leave `cur` as it is. -/
theorem step_of_framing_turn (hf : ¬(x.dstate = .dOp ∨ x.dstate = .dArg)) (h : s.dec[d]? = some x)
    (ha : s.agenda = .turn (.dec d ch) :: ag) :
    step s = .next ({ s with agenda := ag, draws := s.draws + 1 }.putDec d
      (x.turn Config.params ch s.draws)) := by
  rw [step_of_decoder_turn h ha, curAfter, if_neg hf]

/-- Settles O18: a turn in `D_RUN` is a repetition, which is `Produce` and `Next` of the previous pixel. -/
theorem runRepetitionIsOnePixel : Obligations.RunRepetitionIsOnePixel := by
  intro s d x ch ag h hrun _ _ ha
  rw [step_of_framing_turn (by simp [hrun]) h ha, Decoder.turn_of_dRun _ _ _ hrun]

end

/-! ### The header (R127-R135) -/

theorem ite_dimOk {α : Type} (c : Params) (v : Word32) (passed failed : α) :
    (if dimOk c v then passed else failed) = if v.toNat = 0 ∨ c.maxDim < v.toNat then failed else passed := by
  have hfails : v.toNat = 0 ∨ c.maxDim < v.toNat ↔ ¬dimOk c v = true := by
    rw [dimOk_iff, not_and_or, not_not, not_le]
  rw [if_congr hfails rfl rfl, ite_not]

theorem pixelCount_eq_ofNat (W H : Word32) : pixelCount W H = BitVec.ofNat 64 (W.toNat * H.toNat) := by
  rw [← pixelCount_toNat, BitVec.ofNat_toNat, BitVec.setWidth_eq]

section

variable (c : Params) (b : Byte) (fr : Nat) {x : Decoder}

theorem Decoder.headerField_of_magic (h : x.hk = 4) : x.headerField c b fr = x.checkMagic fr := by
  simp [headerField, h]

theorem Decoder.headerField_of_width (h : x.hk = 8) : x.headerField c b fr = x.checkWidth c fr := by
  simp [headerField, h]

theorem Decoder.headerField_of_height (h : x.hk = 12) : x.headerField c b fr = x.checkHeight c fr := by
  simp [headerField, h]

theorem Decoder.headerField_of_channels (h : x.hk = 13) : x.headerField c b fr = x.checkChannels b fr := by
  simp [headerField, h]

theorem Decoder.headerField_of_colorspace (h : x.hk = 14) : x.headerField c b fr = x.checkColorspace b fr := by
  simp [headerField, h]

theorem Decoder.headerField_of_incomplete (h4 : x.hk ≠ 4) (h8 : x.hk ≠ 8) (h12 : x.hk ≠ 12) (h13 : x.hk ≠ 13)
    (h14 : x.hk ≠ 14) : x.headerField c b fr = x := by
  simp [headerField, h4, h8, h12, h13, h14]

end

/-- Settles O24: the byte's place in the header says which field it completes, and each check is the model's own, read
as a condition on the field's value. -/
theorem headerStepChecksEachField : Obligations.HeaderStepChecksEachField := by
  intro s d x ch ag h hhdr ha
  have hstep := step_of_framing_turn (by simp [hhdr]) h ha
  have hend : x.dstate.endError = some .truncatedHeader := by rw [hhdr]; rfl
  refine ⟨fun hs => ?_, fun rest hs => ?_, fun b rest hs => ?_⟩
  · rw [hstep, Decoder.turn_of_ended hend hs]
  · rw [hstep, Decoder.turn_of_source_error hend hs]
    rfl
  have hk : (x.takeHeaderByte b rest).hk = x.hk + 1 := rfl
  rw [hstep, Decoder.turn_of_dHdr hhdr hs]
  refine ⟨fun h3 => ?magic, fun h7 => ?width, fun h11 => ?height, fun h12 => ?channels, fun h13 => ?colorspace,
    fun h3 h7 h11 h12 h13 => ?incomplete⟩
  case magic =>
    rw [Decoder.headerField_of_magic _ _ _ (by omega)]
    rfl
  case width =>
    rw [Decoder.headerField_of_width _ _ _ (by omega), Decoder.checkWidth, ite_dimOk]
    rfl
  case height =>
    rw [Decoder.headerField_of_height _ _ _ (by omega), Decoder.checkHeight, ite_dimOk]
    rfl
  case channels =>
    rw [Decoder.headerField_of_channels _ _ _ (by omega), Decoder.checkChannels,
      if_congr (channelsOk_iff b) rfl rfl]
    rfl
  case colorspace =>
    rw [Decoder.headerField_of_colorspace _ _ _ (by omega), Decoder.checkColorspace,
      if_congr (colorspaceOk_iff b) rfl rfl, pixelCount_eq_ofNat]
    rfl
  case incomplete =>
    rw [Decoder.headerField_of_incomplete _ _ _ (by omega) (by omega) (by omega) (by omega) (by omega)]
    rfl

/-! ### The trailer (R150) -/

section

variable {fr : Nat} {x : Decoder}

theorem Decoder.checkTrailer_of_ne (h : x.tbuf ≠ trailerBytes) : x.checkTrailer fr = x.raise .formatTrailer fr :=
  if_neg h

theorem Decoder.checkTrailer_of_strict (h : x.tbuf = trailerBytes) (hs : x.STRICT = true) :
    x.checkTrailer fr = x.complete := by
  rw [checkTrailer, if_pos h, if_pos hs]

theorem Decoder.checkTrailer_of_default (h : x.tbuf = trailerBytes) (hs : x.STRICT = false) :
    x.checkTrailer fr = { x with dstate := .dRa } := by
  rw [checkTrailer, if_pos h, if_neg (by simp [hs])]

end

/-- Settles O26: a byte before the eighth is kept, the eighth starts the comparison of all eight. -/
theorem trailerIsReadWholeThenCompared : Obligations.TrailerIsReadWholeThenCompared := by
  intro s d x ch ag h htrl _ ha
  have hstep := step_of_framing_turn (by simp [htrl]) h ha
  have hend : x.dstate.endError = some .truncatedTrailer := by rw [htrl]; rfl
  refine ⟨fun hs => ?_, fun rest hs => ?_, fun b rest hs => ?_⟩
  · rw [hstep, Decoder.turn_of_ended hend hs]
  · rw [hstep, Decoder.turn_of_source_error hend hs]
    rfl
  rw [hstep, Decoder.turn_of_dTrl htrl hs]
  refine ⟨fun hlt => ?kept, fun h7 => ?_⟩
  case kept =>
    rw [if_neg hlt.ne]
    rfl
  rw [if_pos h7]
  refine ⟨fun hne => ?mismatch, fun heq hstrict => ?strict, fun heq hdefault => ?default⟩
  case mismatch =>
    rw [Decoder.checkTrailer_of_ne]
    exacts [rfl, hne]
  case strict =>
    rw [Decoder.checkTrailer_of_strict]
    exacts [rfl, heq, hstrict]
  case default =>
    rw [Decoder.checkTrailer_of_default]
    exacts [rfl, heq, hdefault]

end Sys2Proof.Machine
end

section
/-! PROOFS. Fetching an opcode (41_decoder.md R138, R139): the step that takes one of its bytes, and the turns that take
all of them. -/

namespace Sys2Proof.Machine

/-! ### When bytes are one opcode (R97) -/

theorem decode_append {b : Byte} {args : List Byte} (h : args.length = len b - 1) (rest : List Byte) :
    decode (b :: args ++ rest) = .ok (decodeFields b args, rest) := by
  rw [List.cons_append, decode_cons_of_le (by simp [h]), ← h, List.take_left, List.drop_left]

theorem decode_eq_ok_nil {b : Byte} {args : List Byte} {i : Instr} (h : decode (b :: args) = .ok (i, [])) :
    args.length = len b - 1 ∧ i = decodeFields b args := by
  rcases Nat.lt_or_ge args.length (len b - 1) with hlt | hge
  · rw [decode_cons_of_lt hlt] at h
    cases h
  · rw [decode_cons_of_le hge] at h
    injection h with h
    injection h with hi hrest
    have hlen : args.length = len b - 1 := Nat.le_antisymm (List.drop_eq_nil_iff.mp hrest) hge
    exact ⟨hlen, by rw [← hi, ← hlen, List.take_length]⟩

theorem decode_eq_missingOperands {b : Byte} {args : List Byte}
    (h : decode (b :: args) = .error .missingOperands) : args.length < len b - 1 := by
  by_contra hge
  rw [decode_cons_of_le (Nat.not_lt.mp hge)] at h
  cases h

/-! ### The step that takes a byte of an opcode -/

/-- Settles O22: a byte that decodes alone has length 1 and is executed, a byte of a longer opcode opens `D_ARG`. -/
theorem stepRunsTheDecodedOpcode : Obligations.StepRunsTheDecodedOpcode := by
  intro s d x ch ag h hop ha
  have hd : d < s.dec.length := (List.getElem?_eq_some_iff.mp h).1
  have hstep := step_of_fetch_turn (.inl hop) h ha
  have hend : x.dstate.endError = some .truncatedOpcode := by rw [hop]; rfl
  refine ⟨fun hs => ?_, fun rest hs => ?_, fun b rest hs => ⟨fun i hi => ?_, fun hmissing => ?_⟩⟩
  · rw [hstep, Decoder.turn_of_ended hend hs]
  · rw [hstep, Decoder.turn_of_source_error hend hs]
    rfl
  · obtain ⟨hlen, rfl⟩ := decode_eq_ok_nil hi
    have hone : len b = 1 := Nat.le_antisymm (Nat.sub_eq_zero_iff_le.mp hlen.symm) (len_pos b)
    rw [hstep, Decoder.turn_of_dOp hop hs, if_pos hone]
    exact (exec_putDec _ _ hd).symm
  · have hmore : len b ≠ 1 := fun hone => by simpa [hone] using decode_eq_missingOperands hmissing
    rw [hstep, Decoder.turn_of_dOp hop hs, if_neg hmore]
    rfl

/-- Settles O23: the operand bytes kept so far and the new one are an opcode exactly where they are as many as its
length says. -/
theorem stepRunsTheCompletedOpcode : Obligations.StepRunsTheCompletedOpcode := by
  intro s d x ch ag h harg _ ha
  have hd : d < s.dec.length := (List.getElem?_eq_some_iff.mp h).1
  have hstep := step_of_fetch_turn (.inr harg) h ha
  have hend : x.dstate.endError = some .truncatedOpcode := by rw [harg]; rfl
  refine ⟨fun hs => ?_, fun rest hs => ?_, fun b rest hs => ⟨fun i hi => ?_, fun hmissing => ?_⟩⟩
  · rw [hstep, Decoder.turn_of_ended hend hs]
  · rw [hstep, Decoder.turn_of_source_error hend hs]
    rfl
  · obtain ⟨hlen, rfl⟩ := decode_eq_ok_nil hi
    rw [hstep, Decoder.turn_of_dArg harg hs, if_pos (by simpa using hlen)]
    exact (exec_putDec _ _ hd).symm
  · have hmore : x.arg.length + 1 < len x.op - 1 := by simpa using decode_eq_missingOperands hmissing
    rw [hstep, Decoder.turn_of_dArg harg hs, if_neg hmore.ne]
    rfl

/-! ### The turns that take all the bytes of an opcode -/

/-- Decoder `x` in `D_ARG` with some bytes of an opcode read and operand bytes still to come. -/
def Decoder.awaiting (bytes : List Byte) (rest : List SourceItem) (x : Decoder) : Decoder :=
  { x.fetched bytes rest with dstate := .dArg }

section

variable {c : Params} {ch : ReadAhead} {x : Decoder} {b a : Byte} {args : List Byte} {rest : List SourceItem}

theorem Decoder.fetched_singleton (h : x.dstate = .dOp) : x.fetched [b] rest = x.takeLeading b rest := by
  simp [fetched, takeLeading, ← h]

theorem Decoder.fetched_of_operands (h : args ≠ []) : x.fetched (b :: args) rest = x.awaiting (b :: args) rest := by
  simp [fetched, awaiting, h]

theorem Decoder.takeOperand_awaiting :
    (x.awaiting (b :: args) (.byte a :: rest)).takeOperand a rest = x.awaiting (b :: (args ++ [a])) rest := by
  simp [awaiting, fetched, takeOperand, BitVec.ofNat_add, BitVec.add_assoc]

theorem Decoder.turns_one (fr : Nat) : Decoder.turns c ch 1 fr x = x.turn c ch fr := rfl

theorem Decoder.turns_succ_last (n fr : Nat) :
    Decoder.turns c ch (n + 1) fr x = (Decoder.turns c ch n fr x).turn c ch (fr + n) := turns_add ..

/-- Every turn before the one that completes the opcode keeps its byte. -/
theorem Decoder.turns_awaiting (fr : Nat) (h : x.dstate = .dOp) (hopen : args.length + 1 < len b)
    (hs : x.source = (b :: args).map .byte ++ rest) :
    Decoder.turns c ch (args.length + 1) fr x = x.awaiting (b :: args) rest := by
  induction args using List.reverseRecOn generalizing rest with
  | nil =>
    have hmore : len b ≠ 1 := Nat.ne_of_gt hopen
    rw [List.length_nil, turns_one, turn_of_dOp (rest := rest) h hs, if_neg hmore]
    rfl
  | append_singleton args a ih =>
    rw [List.length_append, List.length_singleton] at hopen ⊢
    have hs' : x.source = (b :: args).map .byte ++ .byte a :: rest := by simpa using hs
    rw [turns_succ_last, ih (by omega) hs', turn_of_dArg rfl rfl, if_neg, takeOperand_awaiting]
    simp only [awaiting, fetched, List.tail_cons, List.getD_cons_zero]
    omega

/-- The turn that takes the last byte executes the opcode. -/
theorem Decoder.turns_fetched (fr : Nat) (h : x.dstate = .dOp) (hlen : args.length = len b - 1)
    (hs : x.source = (b :: args).map .byte ++ rest) :
    Decoder.turns c ch (b :: args).length fr x = (x.fetched (b :: args) rest).execute (decodeFields b args) := by
  have hpos := len_pos b
  rcases List.eq_nil_or_concat args with rfl | ⟨init, a, rfl⟩
  · have hone : len b = 1 := by simp at hlen; omega
    rw [List.length_singleton, turns_one, turn_of_dOp (rest := rest) h hs, if_pos hone, fetched_singleton h]
  · rw [List.concat_eq_append] at hlen hs ⊢
    have hinit : init.length + 1 = len b - 1 := by simpa using hlen
    have hs' : x.source = (b :: init).map .byte ++ .byte a :: rest := by simpa using hs
    rw [fetched_of_operands (by simp), List.length_cons, List.length_append, List.length_singleton, turns_succ_last,
      turns_awaiting fr h (by omega) hs', turn_of_dArg rfl rfl, if_pos (by exact hinit), takeOperand_awaiting]
    rfl

/-- After `k` bytes of an opcode, short of the last, its decoder waits for the next one, and only the registers of the
fetch have changed. -/
theorem Decoder.turns_unfinished (fr : Nat) {k : Nat} (h : x.dstate = .dOp) (hlen : args.length = len b - 1)
    (hk : k < (b :: args).length) (hs : x.source = ((b :: args).take k).map .byte ++ rest) :
    ∃ (st : DState) (op : Byte) (arg : List Byte), (st = .dOp ∨ st = .dArg) ∧
      Decoder.turns c ch k fr x =
        { x with
          dstate := st, op := op, arg := arg, source := rest
          inCount := x.inCount + BitVec.ofNat 64 k } := by
  rw [List.length_cons] at hk
  cases k with
  | zero =>
    have hs' : x.source = rest := hs
    exact ⟨x.dstate, x.op, x.arg, .inl h, by simp [turns, ← hs']⟩
  | succ j =>
    have hread : (args.take j).length = j := List.length_take_of_le (by omega)
    have hturns := turns_awaiting (c := c) (ch := ch) fr h (by omega) hs
    rw [hread] at hturns
    exact ⟨.dArg, b, args.take j, .inr rfl, by simp [hturns, awaiting, fetched, hread]⟩

/-- The turn that meets the end or a failure of the source raises the error. -/
theorem Decoder.turns_fetch_fails (fr : Nat) {k : Nat} {e : JobError} (h : x.dstate = .dOp)
    (hlen : args.length = len b - 1) (hk : k < (b :: args).length)
    (hfail : x.source = ((b :: args).take k).map .byte ∧ e = .truncatedOpcode ∨
      x.source = ((b :: args).take k).map .byte ++ .error :: rest ∧ e = .ioSource) :
    ∃ (op : Byte) (arg : List Byte),
      Decoder.turns c ch (k + 1) fr x =
        { x with op := op, arg := arg, inCount := x.inCount + BitVec.ofNat 64 k }.raise e (fr + k) := by
  have endError_of_fetch {st : DState} (hst : st = .dOp ∨ st = .dArg) : st.endError = some .truncatedOpcode := by
    rcases hst with rfl | rfl <;> rfl
  rcases hfail with ⟨hs, rfl⟩ | ⟨hs, rfl⟩
  · rw [← List.append_nil (List.map ..)] at hs
    obtain ⟨st, op, arg, hst, hturns⟩ := turns_unfinished (c := c) (ch := ch) fr h hlen hk hs
    refine ⟨op, arg, ?_⟩
    rw [turns_succ_last, hturns, turn_of_ended (endError_of_fetch hst) rfl]
    rfl
  · obtain ⟨st, op, arg, hst, hturns⟩ := turns_unfinished (c := c) (ch := ch) fr h hlen hk hs
    refine ⟨op, arg, ?_⟩
    rw [turns_succ_last, hturns, turn_of_source_error (endError_of_fetch hst) rfl]
    rfl

end

/-! ### The steps of the block that fetch an opcode -/

theorem Decoder.curTurns_same (c : Params) (ch : ReadAhead) (d n fr : Nat) (x : Decoder) :
    Decoder.curTurns c ch d n fr x d = d := by
  induction n generalizing fr x with
  | zero => rfl
  | succ n ih => rw [curTurns, curAfter, ite_self, ih]

/-- Turns of a decoder that begin with an opcode fetch leave it the current one. -/
theorem runSteps_of_fetch_turns {s : State} {d : Nat} {x : Decoder} {ch : ReadAhead} {ag : List Move} (n : Nat)
    (h : s.dec[d]? = some x) (hop : x.dstate = .dOp) (ha : s.agenda = decTurns d ch (n + 1) ++ ag) :
    runSteps (n + 1) s =
      .next (s.fetching d (n + 1) (Decoder.turns Config.params ch (n + 1) s.draws x) ag) := by
  rw [runSteps_of_decoder_turns (n + 1) h ha, Decoder.curTurns, curAfter, if_pos (.inl hop), Decoder.curTurns_same]
  rfl

theorem exec_fetching {s : State} {d : Nat} {x : Decoder} (i : Instr) (n : Nat) (y : Decoder) (ag : List Move)
    (h : s.dec[d]? = some x) : exec i (s.fetching d n y ag) = .next (s.fetching d n (y.execute i) ag) := by
  rw [exec_of_decoder i (x := y) (State.putDec_self h y)]
  simp [State.fetching, State.putDec]

/-- The bytes of an opcode, as many as its leading byte says, are fetched one a turn and run it. -/
theorem fetchesAndRuns_decodeFields {b : Byte} {args : List Byte} (hlen : args.length = len b - 1) :
    FetchesAndRuns (b :: args) (decodeFields b args) := by
  constructor
  · intro s d x ch rest ag h hop hs ha
    rw [exec_fetching _ _ _ _ h, ← Decoder.turns_fetched s.draws hop hlen hs]
    exact runSteps_of_fetch_turns args.length h hop ha
  · intro s d x ch k rest ag h hop hk ha e hfail
    obtain ⟨op, arg, hturns⟩ :=
      Decoder.turns_fetch_fails (c := Config.params) (ch := ch) s.draws hop hlen hk hfail
    have hrun := runSteps_of_fetch_turns k h hop ha
    rw [hturns] at hrun
    exact ⟨_, _, hrun, State.putDec_self h _, rfl, rfl, rfl, rfl, rfl, rfl, rfl, rfl⟩

/-- What an opcode's bytes are, for the decoder and for the fetch. -/
theorem decodes_and_fetches {b : Byte} {args : List Byte} {i : Instr} (hlen : args.length = len b - 1)
    (hi : decodeFields b args = i) :
    (∀ rest, decode (b :: args ++ rest) = .ok (i, rest)) ∧ FetchesAndRuns (b :: args) i := by
  subst hi
  exact ⟨decode_append hlen, fetchesAndRuns_decodeFields hlen⟩

end Sys2Proof.Machine
end

section
/-! PROOFS. The six opcodes (41_decoder.md R140-R145): their bytes, and the pixel each gives. -/

namespace Sys2Proof.Machine

/-! ### The tagged bytes by their fields (R88-R93) -/

theorem opcodeOf_indexByte : ∀ slot : BitVec 6, opcodeOf (0b00#2 ++ slot) = .index := by decide

theorem opcodeOf_diffByte : ∀ rr gg bb : BitVec 2, opcodeOf (0b01#2 ++ rr ++ gg ++ bb) = .diff := by decide

theorem opcodeOf_lumaByte : ∀ gg : BitVec 6, opcodeOf (0b10#2 ++ gg) = .luma := by decide

/-- The fields 62 and 63 are the literal bytes (R93). -/
theorem opcodeOf_runByte : ∀ n : BitVec 6, n.toNat ≤ 61 → opcodeOf (0b11#2 ++ n) = .run := by decide

theorem decodeFields_indexByte (slot : BitVec 6) : decodeFields (0b00#2 ++ slot) [] = .index slot := by
  simp only [decodeFields, opcodeOf_indexByte]
  rw [BitVec.extractLsb'_append_eq_right]

theorem decodeFields_diffByte (rr gg bb : BitVec 2) :
    decodeFields (0b01#2 ++ rr ++ gg ++ bb) [] = .diff (rr.toNat - 2) (gg.toNat - 2) (bb.toNat - 2) := by
  have hb : BitVec.extractLsb' 0 2 (0b01#2 ++ rr ++ gg ++ bb) = bb := BitVec.extractLsb'_append_eq_right
  have hg : BitVec.extractLsb' 2 2 (0b01#2 ++ rr ++ gg ++ bb) = gg := by
    rw [BitVec.extractLsb'_append_eq_of_le (Nat.le_refl 2), BitVec.extractLsb'_append_eq_right]
  have hr : BitVec.extractLsb' 4 2 (0b01#2 ++ rr ++ gg ++ bb) = rr := by
    rw [BitVec.extractLsb'_append_eq_of_le (by decide), BitVec.extractLsb'_append_eq_of_le (Nat.le_refl 2),
      BitVec.extractLsb'_append_eq_right]
  simp only [decodeFields, opcodeOf_diffByte]
  rw [hr, hg, hb]

theorem decodeFields_lumaByte (gg : BitVec 6) (rr bb : BitVec 4) :
    decodeFields (0b10#2 ++ gg) [rr ++ bb] = .luma (gg.toNat - 32) (rr.toNat - 8) (bb.toNat - 8) := by
  simp only [decodeFields, opcodeOf_lumaByte, List.getD_cons_zero]
  rw [BitVec.extractLsb'_append_eq_right, BitVec.extractLsb'_append_eq_left, BitVec.extractLsb'_append_eq_right]

theorem decodeFields_runByte {n : BitVec 6} (h : n.toNat ≤ 61) :
    decodeFields (0b11#2 ++ n) [] = .run (n.toNat + 1) := by
  simp only [decodeFields, opcodeOf_runByte n h]
  rw [BitVec.extractLsb'_append_eq_right]

/-! ### Sums modulo 256 (R8) -/

theorem toNat_wrap8 (v : Int) : ((wrap8 v).toNat : Int) = v % 256 := by
  rw [wrap8, BitVec.toNat_ofInt, Int.toNat_of_nonneg (Int.emod_nonneg _ (by decide))]
  rfl

/-! ### The opcodes -/

/-- Settles O12: R94's bytes, and the pixel `reconstruct` gives for them. -/
theorem rgbGivesItsChannels : Obligations.RgbGivesItsChannels := by
  intro r g b
  obtain ⟨hdecode, hfetch⟩ := decodes_and_fetches (b := 0xFE) (args := [r, g, b]) (i := .rgb r g b) rfl rfl
  exact ⟨hdecode, hfetch, fun s x h => exec_of_decoder _ h⟩

/-- Settles O13: R95's bytes, and the pixel `reconstruct` gives for them. -/
theorem rgbaGivesItsChannels : Obligations.RgbaGivesItsChannels := by
  intro r g b a
  obtain ⟨hdecode, hfetch⟩ := decodes_and_fetches (b := 0xFF) (args := [r, g, b, a]) (i := .rgba r g b a) rfl rfl
  exact ⟨hdecode, hfetch, fun s x h => exec_of_decoder _ h⟩

/-- Settles O14: the slot is read from the cache of the decoder before the step (R147). -/
theorem indexGivesItsSlot : Obligations.IndexGivesItsSlot := by
  intro slot
  have hlen : len (0b00#2 ++ slot) = 1 := by rw [len, opcodeOf_indexByte]; rfl
  obtain ⟨hdecode, hfetch⟩ := decodes_and_fetches (args := []) (by rw [hlen]; rfl) (decodeFields_indexByte slot)
  exact ⟨hdecode, hfetch, fun s x h => exec_of_decoder _ h⟩

/-- Settles O15: each channel of the pixel is `wrap8` of the sum. -/
theorem diffAddsItsDeltas : Obligations.DiffAddsItsDeltas := by
  intro rr gg bb
  have hlen : len (0b01#2 ++ rr ++ gg ++ bb) = 1 := by rw [len, opcodeOf_diffByte]; rfl
  obtain ⟨hdecode, hfetch⟩ :=
    decodes_and_fetches (args := []) (by rw [hlen]; rfl) (decodeFields_diffByte rr gg bb)
  exact ⟨hdecode, hfetch, fun s x h =>
    ⟨(reconstruct x.prev x.cache (.diff (rr.toNat - 2) (gg.toNat - 2) (bb.toNat - 2))).1,
      toNat_wrap8 _, toNat_wrap8 _, toNat_wrap8 _, rfl, exec_of_decoder _ h⟩⟩

/-- Settles O16: each channel of the pixel is `wrap8` of the sum, red and blue with both deltas. -/
theorem lumaAddsItsDeltas : Obligations.LumaAddsItsDeltas := by
  intro gg rr bb
  have hlen : len (0b10#2 ++ gg) = 2 := by rw [len, opcodeOf_lumaByte]; rfl
  obtain ⟨hdecode, hfetch⟩ :=
    decodes_and_fetches (args := [rr ++ bb]) (by rw [hlen]; rfl) (decodeFields_lumaByte gg rr bb)
  refine ⟨hdecode, hfetch, fun s x h =>
    ⟨(reconstruct x.prev x.cache (.luma (gg.toNat - 32) (rr.toNat - 8) (bb.toNat - 8))).1,
      ?_, toNat_wrap8 _, ?_, rfl, exec_of_decoder _ h⟩⟩
  · rw [Int.add_assoc]
    exact toNat_wrap8 _
  · rw [Int.add_assoc]
    exact toNat_wrap8 _

/-- Settles O17: the count is the field plus 1, of which the step produces one. -/
theorem runStartsItsRepetitions : Obligations.RunStartsItsRepetitions := by
  intro n hn
  have hlen : len (0b11#2 ++ n) = 1 := by rw [len, opcodeOf_runByte n hn]; rfl
  obtain ⟨hdecode, hfetch⟩ := decodes_and_fetches (args := []) (by rw [hlen]; rfl) (decodeFields_runByte hn)
  refine ⟨hdecode, hfetch, fun s x h => ?_⟩
  have hreps : Instr.repsLeft (.run (n.toNat + 1)) x.rrem = n := by simp [Instr.repsLeft]
  rw [exec_of_decoder _ h, Decoder.execute, hreps]
  rfl

end Sys2Proof.Machine
end

section
/-! PROOFS. START on a decoder (41_decoder.md R125). -/

namespace Sys2Proof.Machine

/-- A step in which the host writes a register of a decoder, as the agenda says. -/
theorem step_of_decoder_write {s : State} {d : Nat} {x : Decoder} {a : HostAddr} {v : Word32} {ag : List Move}
    (h : s.dec[d]? = some x) (hengine : a.engine = .dec d) (hword : a.isWord = true)
    (ha : s.agenda = .hostWrite a v :: ag) :
    step s = .next ({ s with agenda := ag, draws := s.draws + 1 }.putDec d (x.writeReg a.offset v s.draws)) := by
  rw [step_of_move (State.nextMove_cons ha)]
  simp [takeMove, State.hostWrite, hword, hengine, h, State.drawn, ha]

theorem Decoder.writeReg_start {x : Decoder} {v : Word32} (fr : Nat) (hidle : x.busy = false)
    (hstart : v.getLsbD 0 = true) : x.writeReg 0x00 v fr = x.jobStart fr := by
  simp only [writeReg, hidle, hstart, if_true]
  rfl

theorem Decoder.status_initJob (x : Decoder) : x.initJob.status = 1 := by
  have hflags : x.initJob.status = statusWord true false false 0 0 := rfl
  rw [hflags]
  decide

/-- Settles O34: the write starts a job, and the channels requested are checked by value. -/
theorem startOnADecoder : Obligations.StartOnADecoder := by
  intro s d x v ag h hidle hstart ha
  refine ⟨x.status_initJob, ?_⟩
  rw [step_of_decoder_write h rfl rfl ha, Decoder.writeReg_start _ hidle hstart, Decoder.jobStart,
    if_congr (requestOk_iff x.regReq) rfl rfl]
  rfl

end Sys2Proof.Machine
end

section
/-! PROOFS. The encoder's functional reference (42_encoder.md R172, R190): the selector case by case, and the length of
what it emits. -/

namespace Sys2Proof.Machine

/-! ### Opcode lists and their bytes -/

@[simp] theorem encodeAll_nil : encodeAll [] = [] := rfl

@[simp] theorem encodeAll_singleton (op : Instr) : encodeAll [op] = encode op := List.flatMap_singleton ..

@[simp] theorem encodeAll_append (ops ops' : List Instr) : encodeAll (ops ++ ops') = encodeAll ops ++ encodeAll ops' :=
  List.flatMap_append

theorem encode_length_pos (i : Instr) : 1 ≤ (encode i).length := by cases i <;> simp [encode]

@[simp] theorem encode_run_length (n : Nat) : (encode (.run n)).length = 1 := rfl

@[simp] theorem encode_index_length (s : BitVec 6) : (encode (.index s)).length = 1 := rfl

/-- A pending run costs one byte, no run costs none. -/
@[simp] theorem encodeAll_pendingRun_length (n : Nat) : (encodeAll (pendingRun n)).length = min n 1 := by
  unfold pendingRun
  split
  · rw [encodeAll_singleton, encode_run_length]; omega
  · rw [encodeAll_nil, List.length_nil]; omega

/-! ### The pixels of a buffer (R64, R171) -/

@[simp] theorem takePixels_length (CH : Byte) (n : Nat) (bytes : List Byte) : (takePixels CH n bytes).length = n := by
  induction n generalizing bytes with
  | zero => rfl
  | succ n ih => rw [takePixels, List.length_cons, ih]

/-- Pixels of a 3-channel buffer are opaque. -/
theorem takePixels_three_alpha {n : Nat} {bytes : List Byte} : ∀ p ∈ takePixels 3 n bytes, p.a = 255 := by
  induction n generalizing bytes with
  | zero => simp [takePixels]
  | succ n ih =>
    rw [takePixels, List.forall_mem_cons]
    exact ⟨rfl, ih⟩

/-- One pixel more is the beat after the first `n`. -/
theorem takePixels_succ_last (CH : Byte) (n : Nat) (bytes : List Byte) :
    takePixels CH (n + 1) bytes =
      takePixels CH n bytes ++ [formPixel CH ((bytes.drop (n * CH.toNat)).take CH.toNat)] := by
  induction n generalizing bytes with
  | zero => simp [takePixels]
  | succ n ih =>
    have hbeat : CH.toNat + n * CH.toNat = (n + 1) * CH.toNat := by rw [Nat.add_mul, Nat.one_mul, Nat.add_comm]
    rw [takePixels, ih, List.drop_drop, hbeat, takePixels, List.cons_append]

/-! ### The opcode of a miss (R177-R180) -/

/-- The priority of a miss on the 8-bit differences, read as two's complement. -/
theorem missOpcode_eq (prev p : Pixel) :
    let dr := (p.r - prev.r).toInt
    let dg := (p.g - prev.g).toInt
    let db := (p.b - prev.b).toInt
    let drdg := ((p.r - prev.r) - (p.g - prev.g)).toInt
    let dbdg := ((p.b - prev.b) - (p.g - prev.g)).toInt
    missOpcode prev p =
      if p.a = prev.a then
        if (-2 ≤ dr ∧ dr ≤ 1) ∧ (-2 ≤ dg ∧ dg ≤ 1) ∧ (-2 ≤ db ∧ db ≤ 1) then .diff dr dg db
        else if (-32 ≤ dg ∧ dg ≤ 31) ∧ (-8 ≤ drdg ∧ drdg ≤ 7) ∧ (-8 ≤ dbdg ∧ dbdg ≤ 7) then .luma dg drdg dbdg
        else .rgb p.r p.g p.b
      else .rgba p.r p.g p.b p.a := by
  simp only [missOpcode, delta_eq_sub, deltaDiff_eq_sub, Bool.and_eq_true, inRange_iff, and_assoc]

/-- Only a change of alpha takes five bytes. -/
theorem encode_missOpcode_length_le {prev p : Pixel} (h : p.a = prev.a) : (encode (missOpcode prev p)).length ≤ 4 := by
  rw [missOpcode_eq, if_pos h]
  split_ifs <;> simp [encode]

/-! ### The selector's three paths (R173-R180) -/

section

variable {last : Bool} {p : Pixel} {st : EncodeLoop}

theorem EncodeLoop.select_of_eq (h : p = st.prev) :
    st.select last p =
      if st.run = 61 ∨ last = true then ([.run (st.run + 1)], ⟨p, st.cache, 0⟩)
      else ([], ⟨p, st.cache, st.run + 1⟩) := by
  simp only [select, if_pos h, Bool.or_eq_true, decide_eq_true_eq, Nat.reduceEqDiff]

theorem EncodeLoop.select_of_hit (h : p ≠ st.prev) (hit : cacheRead st.cache (hashOf p) = p) :
    st.select last p = (pendingRun st.run ++ [.index (hashOf p)], ⟨p, st.cache, 0⟩) := by
  rw [select, if_neg h, if_pos hit]

theorem EncodeLoop.select_of_miss (h : p ≠ st.prev) (hmiss : cacheRead st.cache (hashOf p) ≠ p) :
    st.select last p =
      (pendingRun st.run ++ [missOpcode st.prev p], ⟨p, cacheWrite st.cache (hashOf p) p, 0⟩) := by
  rw [select, if_neg h, if_neg hmiss]

/-- Everything the selector can do: a run is emitted or extended, or some opcode follows the pending run. -/
theorem EncodeLoop.select_cases (last : Bool) (p : Pixel) (st : EncodeLoop) :
    st.select last p = ([.run (st.run + 1)], ⟨p, st.cache, 0⟩) ∨
    (st.run ≠ 61 ∧ last = false ∧ st.select last p = ([], ⟨p, st.cache, st.run + 1⟩)) ∨
    ∃ op cache, (op = .index (hashOf p) ∨ op = missOpcode st.prev p) ∧
      st.select last p = (pendingRun st.run ++ [op], ⟨p, cache, 0⟩) := by
  by_cases h : p = st.prev
  · rw [select_of_eq h]
    split
    case isTrue => exact .inl rfl
    case isFalse hrun =>
      rw [not_or, Bool.not_eq_true] at hrun
      exact .inr (.inl ⟨hrun.1, hrun.2, rfl⟩)
  · by_cases hit : cacheRead st.cache (hashOf p) = p
    · exact .inr (.inr ⟨_, _, .inl rfl, select_of_hit h hit⟩)
    · exact .inr (.inr ⟨_, _, .inr rfl, select_of_miss h hit⟩)

@[simp] theorem EncodeLoop.select_prev : (st.select last p).2.prev = p := by
  rcases st.select_cases last p with h | ⟨-, -, h⟩ | ⟨_, _, -, h⟩ <;> rw [h]

/-- The run stays below 62 (R173). -/
theorem EncodeLoop.select_run_le (hr : st.run ≤ 61) : (st.select last p).2.run ≤ 61 := by
  rcases st.select_cases last p with h | ⟨hne, -, h⟩ | ⟨_, _, -, h⟩ <;> rw [h]
  · exact Nat.zero_le _
  · exact Nat.lt_of_le_of_ne hr hne
  · exact Nat.zero_le _

/-- No run is pending after the last pixel (R183). -/
theorem EncodeLoop.select_run_of_last (hl : last = true) : (st.select last p).2.run = 0 := by
  rcases st.select_cases last p with h | ⟨-, hl', -⟩ | ⟨_, _, -, h⟩
  · rw [h]
  · rw [hl] at hl'; cases hl'
  · rw [h]

/-! ### The bytes of one pixel (R192) -/

/-- A byte stands for at most 62 pixels, those of a pending run included. -/
theorem EncodeLoop.select_pixels_le (hr : st.run ≤ 61) :
    st.run + 1 ≤ 62 * (encodeAll (st.select last p).1).length + (st.select last p).2.run := by
  rcases st.select_cases last p with h | ⟨-, -, h⟩ | ⟨op, _, -, h⟩ <;> rw [h]
  · rw [encodeAll_singleton, encode_run_length]
    dsimp only
    omega
  · exact Nat.le_add_left ..
  · have hop := encode_length_pos op
    rw [encodeAll_append, encodeAll_singleton, List.length_append, encodeAll_pendingRun_length]
    dsimp only
    omega

/-- A pixel costs at most its opcode, where the byte of a run is paid by the pixel that opens it. -/
theorem EncodeLoop.select_bytes_le {B : Nat} (hB : 1 ≤ B) (hmiss : (encode (missOpcode st.prev p)).length ≤ B) :
    (encodeAll (st.select last p).1).length + min (st.select last p).2.run 1 ≤ B + min st.run 1 := by
  rcases st.select_cases last p with h | ⟨-, -, h⟩ | ⟨op, _, hop, h⟩ <;> rw [h]
  · rw [encodeAll_singleton, encode_run_length]
    dsimp only
    omega
  · rw [encodeAll_nil, List.length_nil]
    dsimp only
    omega
  · have hle : (encode op).length ≤ B := by
      rcases hop with rfl | rfl
      · exact hB
      · exact hmiss
    rw [encodeAll_append, encodeAll_singleton, List.length_append, encodeAll_pendingRun_length]
    dsimp only
    omega

end

/-! ### The bytes of an image (R192) -/

theorem encodeOps_pixels_le {ps : List Pixel} {st : EncodeLoop} (hr : st.run ≤ 61) (hend : ps = [] → st.run = 0) :
    st.run + ps.length ≤ 62 * (encodeAll (encodeOps st ps)).length := by
  induction ps generalizing st with
  | nil => rw [hend rfl]; simp
  | cons p rest ih =>
    have hhead := EncodeLoop.select_pixels_le (last := rest.isEmpty) (p := p) hr
    have htail := ih (EncodeLoop.select_run_le hr) fun hnil =>
      EncodeLoop.select_run_of_last (last := rest.isEmpty) (p := p) (List.isEmpty_iff.mpr hnil)
    rw [encodeOps, encodeAll_append, List.length_append, List.length_cons]
    omega

/-- `P` holds of every pixel of the image, and between such pixels a miss costs at most `B` bytes. -/
theorem encodeOps_bytes_le {P : Pixel → Prop} {B : Nat} (hB : 1 ≤ B)
    (hmiss : ∀ prev p, P prev → P p → (encode (missOpcode prev p)).length ≤ B)
    {ps : List Pixel} {st : EncodeLoop} (hprev : P st.prev) (hps : ∀ p ∈ ps, P p) :
    (encodeAll (encodeOps st ps)).length ≤ B * ps.length + min st.run 1 := by
  induction ps generalizing st with
  | nil => simp [encodeOps]
  | cons p rest ih =>
    obtain ⟨hp, hrest⟩ := List.forall_mem_cons.mp hps
    have hhead := EncodeLoop.select_bytes_le (last := rest.isEmpty) hB (hmiss st.prev p hprev hp)
    have htail := ih (st := (st.select rest.isEmpty p).2) (by rwa [EncodeLoop.select_prev]) hrest
    rw [encodeOps, encodeAll_append, List.length_append, List.length_cons, Nat.mul_succ]
    omega

/-- Pixels equal to the previous one cost a byte for every 62 of them. -/
theorem encodeOps_replicate_length {n : Nat} {st : EncodeLoop} (hr : st.run ≤ 61) (hend : n = 0 → st.run = 0) :
    (encodeAll (encodeOps st (List.replicate n st.prev))).length = (st.run + n + 61) / 62 := by
  induction n generalizing st with
  | zero => rw [hend rfl]; rfl
  | succ n ih =>
    have hlast : (List.replicate n st.prev).isEmpty = true ↔ n = 0 := by simp
    rw [List.replicate_succ, encodeOps, EncodeLoop.select_of_eq rfl]
    split
    case isTrue hflush =>
      rw [hlast] at hflush
      have htail := ih (st := ⟨st.prev, st.cache, 0⟩) (Nat.zero_le _) fun _ => rfl
      rw [encodeAll_append, List.length_append, htail, encodeAll_singleton, encode_run_length]
      dsimp only
      omega
    case isFalse hrun =>
      rw [hlast] at hrun
      have htail := ih (st := ⟨st.prev, st.cache, st.run + 1⟩) (by dsimp only; omega) (by omega)
      rw [List.nil_append, htail]
      dsimp only
      omega

theorem encodeStream_length (W H : Word32) (CH CS : Byte) (bytes : List Byte) :
    (encodeStream W H CH CS bytes).length =
      22 + (encodeAll (encodeOps EncodeLoop.start (takePixels CH (W.toNat * H.toNat) bytes))).length := by
  have hheader : (headerBytes W H CH CS).length = 14 := rfl
  have htrailer : trailerBytes.length = 8 := rfl
  rw [encodeStream, List.length_append, List.length_append, hheader, htrailer]
  omega

/-- Settles O56: header and trailer take 22 bytes, and each bound is one on the bytes of the pixels. -/
theorem encodedLengthBounds : Obligations.EncodedLengthBounds := by
  intro W H CH CS bytes _ _ _ n
  have hn : (takePixels CH n bytes).length = n := takePixels_length ..
  have hstart : EncodeLoop.start.run = 0 := rfl
  have hlength : (encodeStream W H CH CS bytes).length =
      22 + (encodeAll (encodeOps EncodeLoop.start (takePixels CH n bytes))).length := encodeStream_length ..
  rw [hlength]
  refine ⟨?lower, fun hall => ?equality, fun _ => ?four, fun hCH => ?three⟩
  case lower =>
    have hle := encodeOps_pixels_le (ps := takePixels CH n bytes) (st := EncodeLoop.start) (by decide) fun _ => rfl
    omega
  case equality =>
    have heq := encodeOps_replicate_length (n := n) (st := EncodeLoop.start) (by decide) fun _ => rfl
    have hpixels : takePixels CH n bytes = List.replicate n EncodeLoop.start.prev := hall
    rw [hpixels, heq, hstart, Nat.zero_add]
  case four =>
    have hle := encodeOps_bytes_le (P := fun _ => True) (B := 5) (ps := takePixels CH n bytes) (st := EncodeLoop.start)
      (by decide) (fun _ _ _ _ => encode_length_le _) trivial fun _ _ => trivial
    omega
  case three =>
    subst hCH
    have hle := encodeOps_bytes_le (P := fun p => p.a = 255) (B := 4) (ps := takePixels 3 n bytes)
      (st := EncodeLoop.start) (by decide) (fun _ _ hprev hp => encode_missOpcode_length_le (hp.trans hprev.symm)) rfl
      takePixels_three_alpha
    omega

end Sys2Proof.Machine
end

section
/-! PROOFS. The encoder's opcode selector (42_encoder.md R172-R182). -/

namespace Sys2Proof.Machine

/-- The selector writes the registers of R181, the run, the queue and the cache, and nothing else. -/
theorem Encoder.selectPixel_frame {x : Encoder} (p : Pixel) (hr : x.run ≤ 61) :
    let y := x.selectPixel p
    y = { x with prev := p, i := x.i + 1, run := y.run, q := y.q, cache := y.cache } := by
  by_cases h : p = x.prev
  · rw [selectPixel_of_eq h hr]
    split <;> rfl
  · rw [selectPixel_of_ne h]
    split <;> rfl

/-- Settles O50: the run path and the other paths, where a miss takes the first opcode that fits. -/
theorem selectorFollowsThePriority : Obligations.SelectorFollowsThePriority := by
  intro x p hr y pending dr dg db drdg dbdg diffFits lumaFits
  refine ⟨Encoder.selectPixel_frame p hr, fun heq hflush => ?flush, fun heq h61 hlast => ?extend,
    fun hne hit => ?hit, fun hne hmiss => ?miss⟩
  case flush =>
    simp only [y, Encoder.selectPixel_of_eq heq hr, if_pos hflush, and_self]
  case extend =>
    simp only [y, Encoder.selectPixel_of_eq heq hr, if_neg (not_or.mpr ⟨h61, hlast⟩), and_self]
  case hit =>
    simp only [y, pending, Encoder.selectPixel_of_ne hne, if_pos hit, and_self]
  case miss =>
    have hy := Encoder.selectPixel_of_ne hne
    rw [if_neg hmiss] at hy
    have hq : y.q = x.q ++ pending ++ encode (missOpcode x.prev p) := congrArg Encoder.q hy
    rw [missOpcode_eq] at hq
    refine ⟨congrArg Encoder.run hy, congrArg Encoder.cache hy, fun ha hd => ?diff, fun ha hd hl => ?luma,
      fun ha hd hl => ?rgb, fun ha => ?rgba⟩
    case diff => rw [hq, if_pos ha, if_pos hd]
    case luma => rw [hq, if_pos ha, if_neg hd, if_pos hl]
    case rgb => rw [hq, if_pos ha, if_neg hd, if_neg hl]
    case rgba => rw [hq, if_neg ha]

end Sys2Proof.Machine
end

section
/-! PROOFS. An encoder job as a whole (42_encoder.md R190): what an action can do, what every point of a job has, and
what the job has sent when it is DONE. -/

namespace Sys2Proof.Machine

/-! ### What an encoder's turn can do (R166-R186) -/

/-- The pixel that Select fetches (R170, R171). -/
def Encoder.nextPixel (x : Encoder) : Pixel := formPixel x.CH (x.pixels.take x.CH.toNat)

/-- The encoder once Select has fetched that pixel and chosen its opcode (R170-R172). -/
def Encoder.selectNext (x : Encoder) : Encoder :=
  { x with pixels := x.pixels.drop x.CH.toNat }.selectPixel x.nextPixel

/-- The effects of the actions, with what R166 asks of the state before. -/
inductive Encoder.Effect (fr : Nat) (x : Encoder) : Encoder → Prop
  /-- No step (R166, log 13). -/
  | stay : Effect fr x x
  /-- The sink fails, or the pixel source has no beat left (R63, R64). -/
  | fail (e : JobError) (answers : List SinkAnswer) : Effect fr x ({ x with sinkAnswers := answers }.raise e fr)
  /-- The oldest byte goes to the sink (R168). -/
  | send (b : Byte) (fifo q : List Byte) (answers : List SinkAnswer) (hbytes : x.fifo ++ x.q = b :: (fifo ++ q)) :
    Effect fr x
      { x with sink := x.sink ++ [b], outCount := x.outCount + 1, sinkAnswers := answers, fifo := fifo, q := q }
  /-- A byte moves from the queue to the FIFO (R168). -/
  | shift (fifo q : List Byte) (hbytes : x.fifo ++ x.q = fifo ++ q) : Effect fr x { x with fifo := fifo, q := q }
  | select (hstate : x.estate = .ePix) (hq : x.q = []) (hmore : x.i < x.N) : Effect fr x x.selectNext
  | endPixels (hstate : x.estate = .ePix) (hq : x.q = []) (hall : x.i = x.N) : Effect fr x x.endPixels
  | toFlush (hstate : x.estate = .eTrl) (hq : x.q = []) (hfifo : x.fifo = []) :
    Effect fr x { x with estate := .eFlush }
  | flush (answers : List SinkAnswer) (hstate : x.estate = .eFlush) :
    Effect fr x { x with flushes := x.flushes + 1, sinkAnswers := answers, estate := .done }

theorem Encoder.effect_serialize (fr : Nat) (x : Encoder) : x.Effect fr x.serialize := by
  unfold serialize
  split
  case h_1 => exact .stay
  case h_2 b rest hq => exact .shift _ _ (by rw [hq, List.append_assoc]; rfl)

theorem Encoder.effect_drain (fr : Nat) (x : Encoder) : x.Effect fr (x.drain fr) := by
  unfold drain
  split
  case h_1 b rest hfifo =>
    have hbytes : x.fifo ++ x.q = b :: (rest ++ x.q) := by rw [hfifo]; rfl
    rcases x.writeByte_cases b with ⟨answers, hw⟩ | ⟨answers, -, hw⟩ <;> rw [hw]
    · exact .send b rest x.q answers hbytes
    · exact .fail .ioSink answers
  case h_2 b rest hfifo hq =>
    have hbytes : x.fifo ++ x.q = b :: (x.fifo ++ rest) := by rw [hfifo, hq]; rfl
    rcases x.writeByte_cases b with ⟨answers, hw⟩ | ⟨answers, -, hw⟩ <;> rw [hw]
    · exact .send b x.fifo rest answers hbytes
    · exact .fail .ioSink answers
  case h_3 => exact .stay

theorem Encoder.effect_selectStep (fr : Nat) {x : Encoder} (hstate : x.estate = .ePix) (hq : x.q = [])
    (hmore : x.i < x.N) : x.Effect fr (x.selectStep fr) := by
  unfold selectStep readPixel
  by_cases hbeat : x.CH.toNat ≤ x.pixels.length
  · rw [if_pos hbeat]
    exact .select hstate hq hmore
  · rw [if_neg hbeat]
    exact .fail .argPixelCount x.sinkAnswers

theorem Encoder.effect_flushStep (fr : Nat) {x : Encoder} (hstate : x.estate = .eFlush) :
    x.Effect fr (x.flushStep fr) := by
  unfold flushStep
  rcases x.flushPort_cases with ⟨answers, hf⟩ | ⟨answers, -, hf⟩ <;> rw [hf]
  · exact .flush answers hstate
  · exact .fail .ioSink answers

theorem Encoder.enabled_select_iff {c : Params} {x : Encoder} :
    x.enabled c .select = true ↔ x.estate = .ePix ∧ x.q = [] ∧ x.i < x.N := by
  simp [enabled, and_assoc]

theorem Encoder.enabled_endPixels_iff {c : Params} {x : Encoder} :
    x.enabled c .endPixels = true ↔ x.estate = .ePix ∧ x.q = [] ∧ x.i = x.N := by
  simp [enabled, and_assoc]

theorem Encoder.enabled_toFlush_iff {c : Params} {x : Encoder} :
    x.enabled c .toFlush = true ↔ x.estate = .eTrl ∧ x.q = [] ∧ x.fifo = [] := by
  simp [enabled, and_assoc]

theorem Encoder.enabled_flush_iff {c : Params} {x : Encoder} :
    x.enabled c .flush = true ↔ x.estate = .eFlush := by
  simp [enabled]

/-- Everything an encoder's turn can do. -/
theorem Encoder.effect_act (c : Params) (a : EncAction) (fr : Nat) (x : Encoder) : x.Effect fr (x.act c a fr) := by
  unfold act
  split
  case isFalse => exact .stay
  case isTrue hen =>
    cases a with
    | drain => exact x.effect_drain fr
    | serialize => exact x.effect_serialize fr
    | select =>
      obtain ⟨hstate, hq, hmore⟩ := enabled_select_iff.mp hen
      exact effect_selectStep fr hstate hq hmore
    | endPixels =>
      obtain ⟨hstate, hq, hall⟩ := enabled_endPixels_iff.mp hen
      exact .endPixels hstate hq hall
    | toFlush =>
      obtain ⟨hstate, hq, hfifo⟩ := enabled_toFlush_iff.mp hen
      exact .toFlush hstate hq hfifo
    | flush => exact effect_flushStep fr (enabled_flush_iff.mp hen)

/-- What every effect keeps holds after any order of actions. -/
theorem Encoder.actAll_keeps {P : Encoder → Prop} (hkeeps : ∀ fr y z, y.Effect fr z → P y → P z) (c : Params)
    (acts : List (EncAction × Nat)) {y : Encoder} (hy : P y) : P (actAll c acts y) := by
  induction acts generalizing y with
  | nil => exact hy
  | cons act rest ih =>
    obtain ⟨a, fr⟩ := act
    exact ih (hkeeps fr y _ (y.effect_act c a fr) hy)

/-! ### The selector of the engine and that of the reference (R172, R190) -/

/-- The encoder's registers that the selector reads. -/
def Encoder.loop (x : Encoder) : EncodeLoop := ⟨x.prev, x.cache, x.run.toNat⟩

theorem encodeAll_pendingRun (r : BitVec 6) :
    encodeAll (pendingRun r.toNat) = if 0 < r then encode (.run r.toNat) else [] := by
  have hpos : 0 < r ↔ 0 < r.toNat := BitVec.lt_def
  rw [pendingRun, if_congr hpos rfl rfl]
  split
  · exact encodeAll_singleton _
  · rfl

/-- The engine's selector is the reference's on its registers. -/
theorem Encoder.selectPixel_eq_select {x : Encoder} (p : Pixel) (hr : x.run ≤ 61) :
    let sel := x.loop.select (decide (x.i + 1 = x.N)) p
    x.selectPixel p =
      { x with
        prev := sel.2.prev, cache := sel.2.cache, run := BitVec.ofNat 6 sel.2.run, i := x.i + 1
        q := x.q ++ encodeAll sel.1 } := by
  dsimp only
  by_cases h : p = x.prev
  · have hrun : x.run = 61 ↔ x.loop.run = 61 := BitVec.toNat_inj.symm
    rw [selectPixel_of_eq h hr, EncodeLoop.select_of_eq h, if_congr (or_congr hrun decide_eq_true_iff.symm) rfl rfl]
    split
    · rw [encodeAll_singleton]; rfl
    · simp [loop, BitVec.ofNat_add]
  · by_cases hit : cacheRead x.cache (hashOf p) = p
    · rw [selectPixel_of_ne h, if_pos hit, EncodeLoop.select_of_hit h hit, encodeAll_append, encodeAll_singleton, loop,
        encodeAll_pendingRun, List.append_assoc]
      rfl
    · rw [selectPixel_of_ne h, if_neg hit, EncodeLoop.select_of_miss h hit, encodeAll_append, encodeAll_singleton, loop,
        encodeAll_pendingRun, List.append_assoc]
      rfl

/-- Everything Select does, where the source has a beat. -/
theorem Encoder.selectNext_eq {x : Encoder} (hr : x.run ≤ 61) :
    let sel := x.loop.select (decide (x.i + 1 = x.N)) x.nextPixel
    x.selectNext =
      { x with
        pixels := x.pixels.drop x.CH.toNat, prev := x.nextPixel, cache := sel.2.cache
        run := BitVec.ofNat 6 sel.2.run, i := x.i + 1, q := x.q ++ encodeAll sel.1 } := by
  dsimp only
  rw [selectNext, selectPixel_eq_select _ (by exact hr), EncodeLoop.select_prev]
  rfl

theorem Encoder.selectNext_loop {x : Encoder} (hr : x.run ≤ 61) :
    x.selectNext.loop = (x.loop.select (decide (x.i + 1 = x.N)) x.nextPixel).2 := by
  have hle := EncodeLoop.select_run_le (last := decide (x.i + 1 = x.N)) (p := x.nextPixel) (st := x.loop) hr
  have hrun : _ % 2 ^ 6 = _ := Nat.mod_eq_of_lt (Nat.lt_of_le_of_lt hle (by decide))
  have hprev : _ = x.nextPixel := EncodeLoop.select_prev (last := decide (x.i + 1 = x.N)) (st := x.loop)
  rw [selectNext_eq hr, loop, BitVec.toNat_ofNat, hrun]
  exact congrArg (EncodeLoop.mk · _ _) hprev.symm

theorem Encoder.selectNext_run_le {x : Encoder} (hr : x.run ≤ 61) : x.selectNext.run ≤ 61 := by
  have hrun : x.selectNext.run.toNat = _ := congrArg EncodeLoop.run (selectNext_loop hr)
  rw [BitVec.le_def, hrun]
  exact EncodeLoop.select_run_le hr

/-- The engine's cache moves as R117 says. -/
theorem Encoder.selectNext_cache {x : Encoder} (hr : x.run ≤ 61) :
    x.selectNext.cache = (encoderCacheStep (x.prev, x.cache) x.nextPixel).2 := by
  rw [selectNext_eq hr]
  exact congrArg Prod.snd (EncodeLoop.select_state _ x.nextPixel x.loop)

/-! ### The pixels a job has processed (R117, R118) -/

/-- A pixel fetched below `N` is counted without overflow (R28). -/
theorem toNat_succ_of_lt {i n : Word64} (h : i < n) : (i + 1).toNat = i.toNat + 1 := by bv_omega

/-- What every point `z` of the job that START begins on encoder `x` has, errors included. -/
structure Encoder.Processed (x z : Encoder) : Prop where
  channels : z.CH = x.regChannels
  unread : z.pixels = x.pixels.drop (z.i.toNat * x.regChannels.toNat)
  run_le : z.run ≤ 61
  prev : z.prev = lastPixel (takePixels x.regChannels z.i.toNat x.pixels)
  cache : z.cache = encoderCache (takePixels x.regChannels z.i.toNat x.pixels)

theorem Encoder.processed_initJob (x : Encoder) : x.Processed x.initJob where
  channels := rfl
  unread := by simp
  run_le := by simp
  prev := rfl
  cache := rfl

/-- The pixel selected is the next of the buffer. -/
theorem Encoder.Processed.selectNext {x z : Encoder} (h : x.Processed z) (hmore : z.i < z.N) :
    x.Processed z.selectNext := by
  obtain ⟨hCH, hunread, hr, hprev, hcache⟩ := h
  have heq := selectNext_eq hr
  have hi : z.selectNext.i.toNat = z.i.toNat + 1 := by rw [heq]; exact toNat_succ_of_lt hmore
  have hpixels : takePixels x.regChannels (z.i.toNat + 1) x.pixels =
      takePixels x.regChannels z.i.toNat x.pixels ++ [z.nextPixel] := by
    rw [takePixels_succ_last, ← hunread, nextPixel, hCH]
  constructor
  case channels => rw [heq]; exact hCH
  case unread =>
    have hrest : z.selectNext.pixels = z.pixels.drop z.CH.toNat := by rw [heq]
    rw [hrest, hi, hunread, hCH, List.drop_drop, Nat.add_mul, Nat.one_mul]
  case run_le => exact selectNext_run_le hr
  case prev => rw [hi, hpixels, lastPixel_append, heq]
  case cache => rw [hi, hpixels, encoderCache_append, ← hprev, ← hcache, selectNext_cache hr]

/-- Only Select processes a pixel. -/
theorem Encoder.Processed.of_effect {x y z : Encoder} {fr : Nat} (heff : y.Effect fr z) (h : x.Processed y) :
    x.Processed z := by
  cases heff with
  | stay => exact h
  | select _ _ hmore => exact h.selectNext hmore
  | fail | send | shift | endPixels | toFlush | flush => exact ⟨h.channels, h.unread, h.run_le, h.prev, h.cache⟩

/-! ### The bytes a job has sent and has yet to send (R190) -/

/-- What the job that START begins on an encoder sends. -/
def Encoder.stream (x : Encoder) : List Byte :=
  encodeStream x.regWidth x.regHeight x.regChannels x.regColorspace x.pixels

/-- What is to be emitted after the bytes that stand in the queue. -/
def Encoder.toEmit (x : Encoder) : List Byte :=
  if x.estate = .ePix then
    encodeAll (encodeOps x.loop (takePixels x.CH (x.N.toNat - x.i.toNat) x.pixels)) ++ trailerBytes
  else []

theorem Encoder.toEmit_of_ne {x : Encoder} (h : x.estate ≠ .ePix) : x.toEmit = [] := if_neg h

theorem Encoder.toEmit_of_last {x : Encoder} (hstate : x.estate = .ePix) (hall : x.i = x.N) :
    x.toEmit = trailerBytes := by
  rw [toEmit, if_pos hstate, hall, Nat.sub_self]
  rfl

/-- Select moves the opcodes of its pixel from what is to be emitted into the queue. -/
theorem Encoder.selectNext_bytes {x : Encoder} (hr : x.run ≤ 61) (hstate : x.estate = .ePix) (hq : x.q = [])
    (hmore : x.i < x.N) : x.selectNext.q ++ x.selectNext.toEmit = x.toEmit := by
  have heq := selectNext_eq hr
  have hqueue : x.selectNext.q = encodeAll (x.loop.select (decide (x.i + 1 = x.N)) x.nextPixel).1 := by
    rw [heq, hq]; rfl
  have hemit : x.selectNext.toEmit = encodeAll (encodeOps x.selectNext.loop (takePixels x.CH
      (x.N.toNat - (x.i + 1).toNat) (x.pixels.drop x.CH.toNat))) ++ trailerBytes := by
    rw [toEmit, heq]; exact if_pos hstate
  have hleft : x.N.toNat - x.i.toNat = x.N.toNat - (x.i + 1).toNat + 1 := by bv_omega
  have hlast : (takePixels x.CH (x.N.toNat - (x.i + 1).toNat) (x.pixels.drop x.CH.toNat)).isEmpty =
      decide (x.i + 1 = x.N) := by
    rw [Bool.eq_iff_iff, List.isEmpty_iff_length_eq_zero, takePixels_length, decide_eq_true_iff]
    constructor <;> intro h <;> bv_omega
  rw [hqueue, hemit, toEmit, if_pos hstate, hleft, takePixels, encodeOps, hlast, selectNext_loop hr, encodeAll_append,
    List.append_assoc]
  rfl

/-- What the points `z` of the job that START begins on encoder `x` have, as long as no error is raised. -/
structure Encoder.Sends (x z : Encoder) : Prop where
  total : z.N = pixelCount x.regWidth x.regHeight
  bytes : ∃ sent, z.sink = x.sink ++ sent ∧ z.outCount = BitVec.ofNat 64 sent.length ∧
    sent ++ (z.fifo ++ z.q) ++ z.toEmit = x.stream
  drained : z.estate = .eFlush ∨ z.estate = .done → z.fifo = [] ∧ z.q = []
  all_pixels : z.estate ≠ .ePix → z.i = z.N
  flushes : z.flushes = x.flushes + if z.estate = .done then 1 else 0

theorem Encoder.sends_initJob (x : Encoder) : x.Sends x.initJob where
  total := rfl
  bytes := by
    have hleft : x.initJob.N.toNat - x.initJob.i.toNat = x.regWidth.toNat * x.regHeight.toNat := pixelCount_toNat ..
    refine ⟨[], (List.append_nil _).symm, rfl, ?_⟩
    rw [toEmit, if_pos x.initJob_estate, hleft, stream, encodeStream, List.append_assoc]
    rfl
  drained := by simp
  all_pixels := by simp
  flushes := rfl

/-- Select sends nothing by itself: the opcodes it emits are the next to be sent. -/
theorem Encoder.Sends.selectNext {x y : Encoder} (h : x.Sends y) (hr : y.run ≤ 61) (hstate : y.estate = .ePix)
    (hq : y.q = []) (hmore : y.i < y.N) : x.Sends y.selectNext := by
  obtain ⟨htotal, ⟨sent, hsink, hcount, hstream⟩, -, -, hflushes⟩ := h
  have hbytes := selectNext_bytes hr hstate hq hmore
  have heq := selectNext_eq hr
  have hstate' : y.selectNext.estate = .ePix := by rw [heq]; exact hstate
  have hfifo : y.selectNext.fifo = y.fifo := by rw [heq]
  constructor
  case total => rw [heq]; exact htotal
  case bytes =>
    refine ⟨sent, by rw [heq]; exact hsink, by rw [heq]; exact hcount, ?_⟩
    rw [← hstream, hfifo, hq, List.append_nil, List.append_assoc, List.append_assoc, hbytes, List.append_assoc]
  case drained => simp [hstate']
  case all_pixels => simp [hstate']
  case flushes => rw [heq]; exact hflushes

/-- Bytes move from the emitter to the queue, the FIFO and the sink, and keep their order. -/
theorem Encoder.Sends.of_effect {x y z : Encoder} {fr : Nat} (heff : y.Effect fr z) (hr : y.run ≤ 61)
    (hz : z.estate ≠ .err) (h : x.Sends y) : x.Sends z := by
  have ⟨htotal, ⟨sent, hsink, hcount, hstream⟩, hdrained, hall, hflushes⟩ := h
  cases heff with
  | stay => exact h
  | fail => exact absurd rfl hz
  | send b fifo q answers hbytes =>
    have hcount' : y.outCount + 1 = BitVec.ofNat 64 (sent ++ [b]).length := by
      rw [List.length_append, List.length_singleton, BitVec.ofNat_add, ← hcount]
      rfl
    refine ⟨htotal, ⟨sent ++ [b], ?_, hcount', ?_⟩, fun hend => ?_, hall, hflushes⟩
    · exact (congrArg (· ++ [b]) hsink).trans (List.append_assoc ..)
    · rw [← hstream, hbytes, List.append_assoc sent, List.singleton_append]
      rfl
    · obtain ⟨hfifo, hq⟩ := hdrained hend
      rw [hfifo, hq] at hbytes
      cases hbytes
  | shift fifo q hbytes =>
    refine ⟨htotal, ⟨sent, hsink, hcount, ?_⟩, fun hend => ?_, hall, hflushes⟩
    · rw [← hstream, hbytes]
      rfl
    · obtain ⟨hfifo, hq⟩ := hdrained hend
      rw [hfifo, hq] at hbytes
      exact List.append_eq_nil_iff.mp hbytes.symm
  | select hstate hq hmore => exact h.selectNext hr hstate hq hmore
  | endPixels hstate hq hlast =>
    refine ⟨htotal, ⟨sent, hsink, hcount, ?_⟩, by simp, fun _ => hlast, by simpa [hstate] using hflushes⟩
    rw [← hstream, toEmit_of_last hstate hlast, toEmit_of_ne (by simp), endPixels_fifo, endPixels_q, hq]
    simp
  | toFlush hstate hq hfifo =>
    have hne : y.estate ≠ .ePix := by simp [hstate]
    refine ⟨htotal, ⟨sent, hsink, hcount, ?_⟩, fun _ => ⟨hfifo, hq⟩, fun _ => hall hne,
      by simpa [hstate] using hflushes⟩
    rw [← hstream, toEmit_of_ne hne]
    rfl
  | flush answers hstate =>
    have hne : y.estate ≠ .ePix := by simp [hstate]
    refine ⟨htotal, ⟨sent, hsink, hcount, ?_⟩, fun _ => hdrained (.inl hstate), fun _ => hall hne,
      by simpa [hstate] using hflushes⟩
    rw [← hstream, toEmit_of_ne hne]
    rfl

theorem Encoder.Sends.sink_of_done {x z : Encoder} (h : x.Sends z) (hdone : z.estate = .done) :
    z.sink = x.sink ++ x.stream ∧ z.outCount = BitVec.ofNat 64 x.stream.length := by
  obtain ⟨sent, hsink, hcount, hstream⟩ := h.bytes
  obtain ⟨hfifo, hq⟩ := h.drained (.inr hdone)
  have hsent : sent = x.stream := by simpa [hfifo, hq, toEmit_of_ne (x := z) (by simp [hdone])] using hstream
  exact ⟨hsent ▸ hsink, hsent ▸ hcount⟩

/-! ### The job as a whole -/

/-- What every point `z` of the job that START begins on encoder `x` has. -/
def Encoder.InJob (x z : Encoder) : Prop := x.Processed z ∧ (z.estate ≠ .err → x.Sends z)

theorem Encoder.inJob_jobStart (c : Params) (fr : Nat) (x : Encoder) : x.InJob (x.jobStart c fr) := by
  have hinit := x.processed_initJob
  rcases x.jobStart_cases c fr with ⟨-, h⟩ | ⟨e, -, h⟩ <;> rw [h]
  · exact ⟨hinit, fun _ => x.sends_initJob⟩
  · exact ⟨⟨hinit.channels, hinit.unread, hinit.run_le, hinit.prev, hinit.cache⟩, fun hne => absurd rfl hne⟩

/-- No action leaves ERR (R239). -/
theorem Encoder.Effect.estate_ne_err {fr : Nat} {y z : Encoder} (heff : y.Effect fr z) (hz : z.estate ≠ .err) :
    y.estate ≠ .err := by
  cases heff with
  | stay | send | shift => exact hz
  | fail => exact absurd rfl hz
  | select hstate | endPixels hstate | toFlush hstate | flush _ hstate => simp [hstate]

theorem Encoder.InJob.of_effect {x y z : Encoder} {fr : Nat} (heff : y.Effect fr z) (h : x.InJob y) : x.InJob z :=
  ⟨h.1.of_effect heff, fun hz => (h.2 (heff.estate_ne_err hz)).of_effect heff h.1.run_le hz⟩

/-- Settles O54, by induction on the actions: at every point of a job the bytes sent, those in the FIFO and the queue,
and those to be emitted for the pixels left make up `EncodeStream`. -/
theorem encoderSendsEncodeStream : Obligations.EncoderSendsEncodeStream := by
  intro c x fr acts _ z stream processed
  obtain ⟨hprocessed, hsends⟩ : x.InJob z :=
    Encoder.actAll_keeps (fun _ _ _ heff h => h.of_effect heff) c acts (x.inJob_jobStart c fr)
  refine ⟨hprocessed.prev, hprocessed.cache, fun hdone => ?_⟩
  have hs := hsends (by simp [hdone])
  obtain ⟨hsink, hcount⟩ := hs.sink_of_done hdone
  refine ⟨hsink, hcount, ?flushes, ?pixels⟩
  case flushes => rw [hs.flushes, if_pos hdone]
  case pixels => rw [hs.all_pixels (by simp [hdone]), hs.total, pixelCount_toNat]

end Sys2Proof.Machine
end

section
/-! PROOFS. What survives a job (70_reset_and_hazards.md R258): what a step makes of one engine, which of those changes
write the host's registers, and which an engine in DONE or ERR can make. -/

namespace Sys2Proof.Machine

/-! ### What a step makes of one engine (R20, R218) -/

/-- What a step of the block can make of its encoder `e`, which is `x` before it, with the move that does it. -/
inductive Encoder.Next (s : State) (e : Nat) (x : Encoder) : Encoder → Prop
  /-- The move is about something else, or the write has no effect (R40). -/
  | stay : Next s e x x
  | turn (a : EncAction) (hm : s.nextMove = .turn (.enc e a)) : Next s e x (x.act Config.params a s.draws)
  | start (v : Word32) (hm : s.nextMove = .hostWrite ⟨.enc e, 0x00, 4⟩ v) (hidle : x.busy = false)
    (hstart : v.getLsbD 0 = true) : Next s e x (x.jobStart Config.params s.draws)
  | writeWidth (v : Word32) (hm : s.nextMove = .hostWrite ⟨.enc e, 0x08, 4⟩ v) (hidle : x.busy = false) :
    Next s e x { x with regWidth := v }
  | writeHeight (v : Word32) (hm : s.nextMove = .hostWrite ⟨.enc e, 0x0C, 4⟩ v) (hidle : x.busy = false) :
    Next s e x { x with regHeight := v }
  | writeFormat (v : Word32) (hm : s.nextMove = .hostWrite ⟨.enc e, 0x10, 4⟩ v) (hidle : x.busy = false) :
    Next s e x { x with regChannels := v.extractLsb' 0 8, regColorspace := v.extractLsb' 8 8 }
  | connectSink (answers : List SinkAnswer) (hm : s.nextMove = .connectSink e answers) (hidle : x.busy = false) :
    Next s e x (x.withSink answers)
  | connectPixels (bytes : List Byte) (hm : s.nextMove = .connectPixels e bytes) (hidle : x.busy = false) :
    Next s e x (x.withPixels bytes)

/-- What a step of the block can make of its decoder `d`, which is `x` before it, with the move that does it. -/
inductive Decoder.Next (s : State) (d : Nat) (x : Decoder) : Decoder → Prop
  /-- The move is about something else, or the write has no effect (R40). -/
  | stay : Next s d x x
  | turn (ch : ReadAhead) (hm : s.nextMove = .turn (.dec d ch)) : Next s d x (x.turn Config.params ch s.draws)
  | start (v : Word32) (hm : s.nextMove = .hostWrite ⟨.dec d, 0x00, 4⟩ v) (hidle : x.busy = false)
    (hstart : v.getLsbD 0 = true) : Next s d x (x.jobStart s.draws)
  | writeConfig (v : Word32) (hm : s.nextMove = .hostWrite ⟨.dec d, 0x08, 4⟩ v) (hidle : x.busy = false) :
    Next s d x { x with regReq := v.extractLsb' 0 8, regStrict := v.getLsbD 8 }
  | connectSource (items : List SourceItem) (hm : s.nextMove = .connectSource d items) (hidle : x.busy = false) :
    Next s d x (x.withSource items)
  | connectPixelSink (hm : s.nextMove = .connectPixelSink d) (hidle : x.busy = false) : Next s d x x.withPixelSink

/-- A host write that is a step is one of a word (R69). -/
theorem nextMove_eq_word_write {s t : State} {a : HostAddr} {v : Word32} (h : step s = .next t)
    (hm : s.nextMove = .hostWrite a v) : s.nextMove = .hostWrite ⟨a.engine, a.offset, 4⟩ v := by
  rw [step_of_move hm, takeMove, State.hostWrite] at h
  split at h
  case isTrue hword =>
    obtain ⟨hsize, -⟩ : a.size = 4 ∧ a.offset % 4 = 0 := by simpa [HostAddr.isWord] using hword
    rw [hm, ← hsize]
  case isFalse => cases h

theorem Encoder.next_writeReg {s : State} {e : Nat} {x : Encoder} {offset : Nat} {v : Word32}
    (hm : s.nextMove = .hostWrite ⟨.enc e, offset, 4⟩ v) :
    x.Next s e (x.writeReg Config.params offset v s.draws) := by
  rcases x.writeReg_cases Config.params offset v s.draws with
    hw | ⟨hidle, ⟨rfl, hstart, hw⟩ | ⟨rfl, hw⟩ | ⟨rfl, hw⟩ | ⟨rfl, hw⟩⟩ <;> rw [hw]
  · exact .stay
  · exact .start v hm hidle hstart
  · exact .writeWidth v hm hidle
  · exact .writeHeight v hm hidle
  · exact .writeFormat v hm hidle

theorem Decoder.next_writeReg {s : State} {d : Nat} {x : Decoder} {offset : Nat} {v : Word32}
    (hm : s.nextMove = .hostWrite ⟨.dec d, offset, 4⟩ v) : x.Next s d (x.writeReg offset v s.draws) := by
  rcases x.writeReg_cases offset v s.draws with hw | ⟨hidle, ⟨rfl, hstart, hw⟩ | ⟨rfl, hw⟩⟩ <;> rw [hw]
  · exact .stay
  · exact .start v hm hidle hstart
  · exact .writeConfig v hm hidle

/-- Writing one encoder of the block leaves encoder `e` as it was or is the write of that very encoder. -/
theorem State.putEnc_either {s : State} {e e' : Nat} {x x' z : Encoder} {P : Encoder → Prop}
    (hx : s.enc[e]? = some x) (hx' : s.enc[e']? = some x') (hother : P x) (hself : e' = e → x' = x → P z) :
    ∃ y, (s.putEnc e' z).enc[e]? = some y ∧ P y := by
  rcases eq_or_ne e' e with rfl | hne
  · exact ⟨z, putEnc_self hx z, hself rfl (Option.some.inj (hx'.symm.trans hx))⟩
  · exact ⟨x, (s.putEnc_of_ne z hne).trans hx, hother⟩

/-- Writing one decoder of the block leaves decoder `d` as it was or is the write of that very decoder. -/
theorem State.putDec_either {s : State} {d d' : Nat} {x x' z : Decoder} {P : Decoder → Prop}
    (hx : s.dec[d]? = some x) (hx' : s.dec[d']? = some x') (hother : P x) (hself : d' = d → x' = x → P z) :
    ∃ y, (s.putDec d' z).dec[d]? = some y ∧ P y := by
  rcases eq_or_ne d' d with rfl | hne
  · exact ⟨z, putDec_self hx z, hself rfl (Option.some.inj (hx'.symm.trans hx))⟩
  · exact ⟨x, (s.putDec_of_ne z hne).trans hx, hother⟩

/-- Everything a step can do to encoder `e`. -/
theorem Encoder.next_of_step {s t : State} {e : Nat} {x : Encoder} (h : step s = .next t) (hx : s.enc[e]? = some x) :
    ∃ y, t.enc[e]? = some y ∧ x.Next s e y := by
  have hstay : ∃ y, s.enc[e]? = some y ∧ x.Next s e y := ⟨x, hx, .stay⟩
  rcases step_cases h with rfl | ⟨e', x', a, hm, hx', rfl⟩ | ⟨_, _, _, _, _, rfl⟩ | ⟨e', x', a, v, hm, ha, hx', rfl⟩ |
    ⟨_, _, _, _, _, _, _, rfl⟩ | ⟨_, _, _, rfl⟩ | ⟨_, _, _, _, _, _, rfl⟩ | ⟨e', x', f, hm, hx', hidle, rfl⟩
  · exact hstay
  · exact State.putEnc_either (s := s.drawn) hx hx' .stay fun | rfl, rfl => .turn a hm
  · exact hstay
  · have hword := nextMove_eq_word_write h hm
    rw [ha] at hword
    exact State.putEnc_either (s := s.drawn) hx hx' .stay fun | rfl, rfl => next_writeReg hword
  · exact hstay
  · exact hstay
  · exact hstay
  · rcases hm with ⟨answers, hm, rfl⟩ | ⟨bytes, hm, rfl⟩
    · exact State.putEnc_either (s := s.drawn) hx hx' .stay fun | rfl, rfl => .connectSink answers hm hidle
    · exact State.putEnc_either (s := s.drawn) hx hx' .stay fun | rfl, rfl => .connectPixels bytes hm hidle

/-- Everything a step can do to decoder `d`. -/
theorem Decoder.next_of_step {s t : State} {d : Nat} {x : Decoder} (h : step s = .next t) (hx : s.dec[d]? = some x) :
    ∃ y, t.dec[d]? = some y ∧ x.Next s d y := by
  have hstay : ∃ y, s.dec[d]? = some y ∧ x.Next s d y := ⟨x, hx, .stay⟩
  rcases step_cases h with rfl | ⟨_, _, _, _, _, rfl⟩ | ⟨d', x', ch, hm, hx', rfl⟩ | ⟨_, _, _, _, _, _, _, rfl⟩ |
    ⟨d', x', a, v, hm, ha, hx', rfl⟩ | ⟨_, _, _, rfl⟩ | ⟨d', x', f, hm, hx', hidle, rfl⟩ | ⟨_, _, _, _, _, _, rfl⟩
  · exact hstay
  · exact hstay
  · exact State.putDec_either (s := { s.drawn with cur := _ }) hx hx' .stay fun | rfl, rfl => .turn ch hm
  · exact hstay
  · have hword := nextMove_eq_word_write h hm
    rw [ha] at hword
    exact State.putDec_either (s := s.drawn) hx hx' .stay fun | rfl, rfl => next_writeReg hword
  · exact hstay
  · rcases hm with ⟨hm, rfl⟩ | ⟨items, hm, rfl⟩
    · exact State.putDec_either (s := s.drawn) hx hx' .stay fun | rfl, rfl => .connectPixelSink hm hidle
    · exact State.putDec_either (s := s.drawn) hx hx' .stay fun | rfl, rfl => .connectSource items hm hidle
  · exact hstay

/-! ### An engine that is not BUSY takes no turn (R126, R166; log 13) -/

theorem Encoder.busy_of_enabled {c : Params} {a : EncAction} {x : Encoder} (h : x.enabled c a = true) :
    x.busy = true := by
  cases a with
  | drain | serialize => exact (Bool.and_eq_true_iff.mp h).1
  | select => simp [busy, (enabled_select_iff.mp h).1]
  | endPixels => simp [busy, (enabled_endPixels_iff.mp h).1]
  | toFlush => simp [busy, (enabled_toFlush_iff.mp h).1]
  | flush => simp [busy, enabled_flush_iff.mp h]

theorem Encoder.act_of_not_busy (c : Params) (a : EncAction) (fr : Nat) {x : Encoder} (h : x.busy = false) :
    x.act c a fr = x := by
  have hnone : ¬x.enabled c a = true := fun hen => by simp [busy_of_enabled hen] at h
  rw [act, if_neg hnone]

theorem Decoder.turn_of_not_busy (c : Params) (ch : ReadAhead) (fr : Nat) {x : Decoder} (h : x.busy = false) :
    x.turn c ch fr = x := by
  cases hs : x.dstate with
  | idle | done | err => rw [turn, hs]
  | dHdr | dOp | dArg | dRun | dTrl | dRa => simp [busy, hs] at h

theorem Encoder.not_busy_of_ended {x : Encoder} (h : x.estate = .done ∨ x.estate = .err) : x.busy = false := by
  rcases h with h | h <;> simp [busy, h]

theorem Decoder.not_busy_of_ended {x : Decoder} (h : x.dstate = .done ∨ x.dstate = .err) : x.busy = false := by
  rcases h with h | h <;> simp [busy, h]

/-! ### The registers only the host writes (R43-R45, R49) -/

/-- ENC.WIDTH, ENC.HEIGHT and the two fields of ENC.FORMAT (R43-R45). -/
def Encoder.hostRegs (x : Encoder) : Word32 × Word32 × Byte × Byte :=
  (x.regWidth, x.regHeight, x.regChannels, x.regColorspace)

/-- The two fields of DEC.CONFIG (R49). -/
def Decoder.hostRegs (x : Decoder) : Byte × Bool := (x.regReq, x.regStrict)

theorem Encoder.hostRegs_eq_iff {x y : Encoder} :
    y.hostRegs = x.hostRegs ↔ y.regWidth = x.regWidth ∧ y.regHeight = x.regHeight ∧ y.regChannels = x.regChannels ∧
      y.regColorspace = x.regColorspace := by
  simp only [hostRegs, Prod.mk.injEq]

theorem Decoder.hostRegs_eq_iff {x y : Decoder} :
    y.hostRegs = x.hostRegs ↔ y.regReq = x.regReq ∧ y.regStrict = x.regStrict := by
  simp only [hostRegs, Prod.mk.injEq]

theorem Encoder.hostRegs_flushRun (x : Encoder) : x.flushRun.hostRegs = x.hostRegs := by
  rw [flushRun_eq]
  rfl

theorem Encoder.hostRegs_extendRun (last : Bool) (x : Encoder) : (x.extendRun last).hostRegs = x.hostRegs := by
  unfold extendRun
  dsimp only
  split
  · exact hostRegs_flushRun _
  · rfl

theorem Encoder.hostRegs_selectPixel (p : Pixel) (x : Encoder) : (x.selectPixel p).hostRegs = x.hostRegs := by
  by_cases h : p = x.prev
  · rw [selectPixel, if_pos h]
    exact x.hostRegs_extendRun _
  · rw [selectPixel_of_ne h]
    split <;> rfl

theorem Encoder.Effect.hostRegs_eq {fr : Nat} {x y : Encoder} (h : x.Effect fr y) : y.hostRegs = x.hostRegs := by
  cases h with
  | select => exact hostRegs_selectPixel _ _
  | stay | fail | send | shift | endPixels | toFlush | flush => rfl

theorem Encoder.hostRegs_jobStart (c : Params) (fr : Nat) (x : Encoder) : (x.jobStart c fr).hostRegs = x.hostRegs := by
  rcases x.jobStart_cases c fr with ⟨-, h⟩ | ⟨e, -, h⟩ <;> rw [h] <;> rfl

theorem Decoder.hostRegs_jobStart (fr : Nat) (x : Decoder) : (x.jobStart fr).hostRegs = x.hostRegs := by
  rcases x.jobStart_cases fr with ⟨-, h⟩ | ⟨-, h⟩ <;> rw [h] <;> rfl

/-- A complete header field is stored, or its check raises an error (R128-R135). -/
theorem Decoder.hostRegs_headerField (c : Params) (b : Byte) (fr : Nat) (x : Decoder) :
    (x.headerField c b fr).hostRegs = x.hostRegs := by
  simp only [headerField, checkMagic, checkWidth, checkHeight, checkChannels, checkColorspace]
  split_ifs <;> rfl

theorem Decoder.hostRegs_checkTrailer (fr : Nat) (x : Decoder) : (x.checkTrailer fr).hostRegs = x.hostRegs := by
  unfold checkTrailer
  split_ifs <;> rfl

theorem Decoder.hostRegs_readAheadStep (c : Params) (ch : ReadAhead) (x : Decoder) :
    (x.readAheadStep c ch).hostRegs = x.hostRegs := by
  cases ch with
  | complete => rfl
  | read =>
    unfold readAheadStep
    dsimp only
    split
    · rcases x.readByte_cases with ⟨-, hr⟩ | ⟨b, rest, -, hr⟩ | ⟨rest, -, hr⟩ <;> rw [hr] <;> rfl
    · rfl

/-- In a state that reads the stream, a turn without a byte raises an error, so only a turn with one is of interest. -/
theorem Decoder.hostRegs_turn_of_byte {c : Params} {ch : ReadAhead} {fr : Nat} {x : Decoder} {e : JobError}
    (he : x.dstate.endError = some e)
    (hbyte : ∀ b rest, x.source = .byte b :: rest → (x.turn c ch fr).hostRegs = x.hostRegs) :
    (x.turn c ch fr).hostRegs = x.hostRegs := by
  rcases x.readByte_cases with ⟨hs, -⟩ | ⟨b, rest, hs, -⟩ | ⟨rest, hs, -⟩
  · rw [turn_of_ended he hs]
    rfl
  · exact hbyte b rest hs
  · rw [turn_of_source_error he hs]
    rfl

theorem Decoder.hostRegs_turn (c : Params) (ch : ReadAhead) (fr : Nat) (x : Decoder) :
    (x.turn c ch fr).hostRegs = x.hostRegs := by
  cases h : x.dstate with
  | idle | done | err => rw [turn_of_not_busy c ch fr (by simp [busy, h])]
  | dHdr =>
    refine hostRegs_turn_of_byte (by rw [h]; rfl) fun b rest hs => ?_
    rw [turn_of_dHdr h hs]
    exact hostRegs_headerField c b fr _
  | dOp =>
    refine hostRegs_turn_of_byte (by rw [h]; rfl) fun b rest hs => ?_
    rw [turn_of_dOp h hs]
    split <;> rfl
  | dArg =>
    refine hostRegs_turn_of_byte (by rw [h]; rfl) fun b rest hs => ?_
    rw [turn_of_dArg h hs]
    split <;> rfl
  | dRun =>
    rw [turn_of_dRun c ch fr h]
    rfl
  | dTrl =>
    refine hostRegs_turn_of_byte (by rw [h]; rfl) fun b rest hs => ?_
    rw [turn_of_dTrl h hs]
    split
    · exact hostRegs_checkTrailer fr _
    · rfl
  | dRa =>
    rw [turn, h]
    exact hostRegs_readAheadStep c ch x

/-! ### Survival (R258) -/

/-- Settles O40, by the moves that can change an engine: turns and START leave the host's registers, an engine in DONE
or ERR takes no turn, and the other moves write one register or a port. -/
theorem parametersSurviveJobs : Obligations.ParametersSurviveJobs := by
  intro s t hstep
  refine ⟨fun e x hx => ?encoder, fun d x hx => ?decoder⟩
  case encoder =>
    obtain ⟨y, hy, hnext⟩ := Encoder.next_of_step hstep hx
    refine ⟨y, hy, ?_⟩
    cases hnext with
    | stay | connectSink | connectPixels => exact ⟨.inl rfl, .inl rfl, .inl ⟨rfl, rfl⟩, fun _ => .inl ⟨rfl, rfl⟩⟩
    | turn a =>
      obtain ⟨hw, hh, hch, hcs⟩ := Encoder.hostRegs_eq_iff.mp (x.effect_act Config.params a s.draws).hostRegs_eq
      refine ⟨.inl hw, .inl hh, .inl ⟨hch, hcs⟩, fun hend => .inl ?_⟩
      rw [Encoder.act_of_not_busy _ _ _ (Encoder.not_busy_of_ended hend)]
      exact ⟨rfl, rfl⟩
    | start v hm _ hstart =>
      obtain ⟨hw, hh, hch, hcs⟩ := Encoder.hostRegs_eq_iff.mp (x.hostRegs_jobStart Config.params s.draws)
      exact ⟨.inl hw, .inl hh, .inl ⟨hch, hcs⟩, fun _ => .inr ⟨v, hm, hstart⟩⟩
    | writeWidth v hm => exact ⟨.inr ⟨v, hm⟩, .inl rfl, .inl ⟨rfl, rfl⟩, fun _ => .inl ⟨rfl, rfl⟩⟩
    | writeHeight v hm => exact ⟨.inl rfl, .inr ⟨v, hm⟩, .inl ⟨rfl, rfl⟩, fun _ => .inl ⟨rfl, rfl⟩⟩
    | writeFormat v hm => exact ⟨.inl rfl, .inl rfl, .inr ⟨v, hm⟩, fun _ => .inl ⟨rfl, rfl⟩⟩
  case decoder =>
    obtain ⟨y, hy, hnext⟩ := Decoder.next_of_step hstep hx
    refine ⟨y, hy, ?_⟩
    cases hnext with
    | stay | connectSource | connectPixelSink =>
      exact ⟨.inl ⟨rfl, rfl⟩, fun _ => .inl ⟨rfl, rfl, rfl, rfl, rfl, rfl, rfl⟩⟩
    | turn ch =>
      refine ⟨.inl (Decoder.hostRegs_eq_iff.mp (x.hostRegs_turn Config.params ch s.draws)), fun hend => .inl ?_⟩
      rw [Decoder.turn_of_not_busy _ _ _ (Decoder.not_busy_of_ended hend)]
      exact ⟨rfl, rfl, rfl, rfl, rfl, rfl, rfl⟩
    | start v hm _ hstart =>
      exact ⟨.inl (Decoder.hostRegs_eq_iff.mp (x.hostRegs_jobStart s.draws)), fun _ => .inr ⟨v, hm, hstart⟩⟩
    | writeConfig v hm => exact ⟨.inr ⟨v, hm⟩, fun _ => .inl ⟨rfl, rfl, rfl, rfl, rfl, rfl, rfl⟩⟩

end Sys2Proof.Machine
end

section
/-! PROOFS. Encoding and decoding are inverse (30_encoding.md R96, R99, R102). -/

namespace Sys2Proof.Machine

/-! ### The encoding of a decoded opcode (R96, R102) -/

theorem indexByte_fields : ∀ b : Byte, opcodeOf b = .index → encode (.index (b.extractLsb' 0 6)) = [b] := by decide

theorem diffByte_fields : ∀ b : Byte, opcodeOf b = .diff →
    encode (.diff ((b.extractLsb' 4 2).toNat - 2 : Int) ((b.extractLsb' 2 2).toNat - 2 : Int)
      ((b.extractLsb' 0 2).toNat - 2 : Int)) = [b] := by decide

theorem lumaByte_field : ∀ b : Byte, opcodeOf b = .luma →
    0x80#8 ||| BitVec.ofInt 8 ((b.extractLsb' 0 6).toNat - 32 + 32 : Int) = b := by decide

theorem lumaOperand_fields : ∀ a : Byte,
    BitVec.ofInt 8 ((a.extractLsb' 4 4).toNat - 8 + 8 : Int) <<< 4 |||
      BitVec.ofInt 8 ((a.extractLsb' 0 4).toNat - 8 + 8 : Int) = a := by decide

theorem runByte_field : ∀ b : Byte, opcodeOf b = .run → encode (.run ((b.extractLsb' 0 6).toNat + 1)) = [b] := by
  decide

theorem literalByte_rgb : ∀ b : Byte, opcodeOf b = .rgb → b = 0xFE := by decide

theorem literalByte_rgba : ∀ b : Byte, opcodeOf b = .rgba → b = 0xFF := by decide

/-- The fields of an opcode's bytes, put together again, are its bytes. -/
theorem encode_decodeFields {b : Byte} {args : List Byte} (hlen : args.length = len b - 1) :
    encode (decodeFields b args) = b :: args := by
  rw [len, Nat.add_sub_cancel_left] at hlen
  unfold decodeFields
  cases h : opcodeOf b <;> rw [h] at hlen <;> dsimp only
  case rgb =>
    obtain ⟨r, g, b', rfl⟩ := List.length_eq_three.mp hlen
    rw [literalByte_rgb b h]
    rfl
  case rgba =>
    obtain ⟨r, rest, rfl⟩ := List.exists_cons_of_length_eq_add_one hlen
    obtain ⟨g, b', a, rfl⟩ := List.length_eq_three.mp (Nat.succ.inj hlen)
    rw [literalByte_rgba b h]
    rfl
  case index =>
    rw [List.eq_nil_of_length_eq_zero hlen, indexByte_fields b h]
  case diff =>
    rw [List.eq_nil_of_length_eq_zero hlen, diffByte_fields b h]
  case luma =>
    obtain ⟨a, rfl⟩ := List.length_eq_one_iff.mp hlen
    rw [encode, lumaByte_field b h, List.getD_cons_zero, lumaOperand_fields]
  case run =>
    rw [List.eq_nil_of_length_eq_zero hlen, runByte_field b h]

/-! ### Operand ranges (R96) -/

/-- A field of `w` bits less its bias. -/
theorem inRange_biased {w : Nat} (v : BitVec w) {bias hi : Int} (hhi : (2 : Int) ^ w - 1 - bias = hi) :
    inRange (-bias) hi (v.toNat - bias) = true := by
  have hv : ((v.toNat : Nat) : Int) < 2 ^ w := by exact_mod_cast v.isLt
  rw [inRange_iff]
  omega

/-- Whatever the bytes are, the operands assembled from them are in their ranges. -/
theorem wellFormed_decodeFields (b : Byte) (args : List Byte) : (decodeFields b args).WellFormed := by
  have hrun : ∀ n, decodeFields b args = .run n → n ≤ 62 := fun n => run_count_le
  unfold decodeFields at hrun ⊢
  cases h : opcodeOf b <;> rw [h] at hrun <;> dsimp only at hrun ⊢
  case rgb | rgba | index => rfl
  case diff =>
    simp only [Instr.WellFormed, Instr.wf, Bool.and_eq_true]
    exact ⟨⟨inRange_biased _ rfl, inRange_biased _ rfl⟩, inRange_biased _ rfl⟩
  case luma =>
    simp only [Instr.WellFormed, Instr.wf, Bool.and_eq_true]
    exact ⟨⟨inRange_biased _ rfl, inRange_biased _ rfl⟩, inRange_biased _ rfl⟩
  case run =>
    simpa [Instr.WellFormed, Instr.wf] using hrun _ rfl

/-- An operand in the range of a biased field is some value of it. -/
theorem exists_biased_of_inRange {w : Nat} {bias hi v : Int} (hhi : (2 : Int) ^ w - 1 - bias = hi)
    (h : inRange (-bias) hi v = true) : ∃ f : BitVec w, (f.toNat - bias : Int) = v := by
  rw [inRange_iff] at h
  have hpos : 0 ≤ v + bias := by omega
  have hlt : (v + bias).toNat < 2 ^ w := by
    zify
    rw [Int.toNat_of_nonneg hpos]
    omega
  refine ⟨BitVec.ofNat w (v + bias).toNat, ?_⟩
  rw [BitVec.toNat_ofNat, Nat.mod_eq_of_lt hlt]
  omega

/-- Every well-formed opcode is decoded from some bytes, as many as their leading byte says. -/
theorem exists_fields_of_wellFormed {i : Instr} (h : i.WellFormed) :
    ∃ (b : Byte) (args : List Byte), args.length = len b - 1 ∧ decodeFields b args = i := by
  cases i with
  | rgb r g b => exact ⟨0xFE, [r, g, b], rfl, rfl⟩
  | rgba r g b a => exact ⟨0xFF, [r, g, b, a], rfl, rfl⟩
  | index slot => exact ⟨_, [], by rw [len, opcodeOf_indexByte]; rfl, decodeFields_indexByte slot⟩
  | diff dr dg db =>
    simp only [Instr.WellFormed, Instr.wf, Bool.and_eq_true] at h
    obtain ⟨⟨hr, hg⟩, hb⟩ := h
    obtain ⟨rr, rfl⟩ := exists_biased_of_inRange (w := 2) rfl hr
    obtain ⟨gg, rfl⟩ := exists_biased_of_inRange (w := 2) rfl hg
    obtain ⟨bb, rfl⟩ := exists_biased_of_inRange (w := 2) rfl hb
    exact ⟨_, [], by rw [len, opcodeOf_diffByte]; rfl, decodeFields_diffByte rr gg bb⟩
  | luma dg drdg dbdg =>
    simp only [Instr.WellFormed, Instr.wf, Bool.and_eq_true] at h
    obtain ⟨⟨hg, hr⟩, hb⟩ := h
    obtain ⟨gg, rfl⟩ := exists_biased_of_inRange (w := 6) rfl hg
    obtain ⟨rr, rfl⟩ := exists_biased_of_inRange (w := 4) rfl hr
    obtain ⟨bb, rfl⟩ := exists_biased_of_inRange (w := 4) rfl hb
    exact ⟨_, [rr ++ bb], by rw [len, opcodeOf_lumaByte]; rfl, decodeFields_lumaByte gg rr bb⟩
  | run count =>
    obtain ⟨hpos, hle⟩ : 1 ≤ count ∧ count ≤ 62 := by simpa [Instr.WellFormed, Instr.wf] using h
    have hn : (BitVec.ofNat 6 (count - 1)).toNat = count - 1 := by
      rw [BitVec.toNat_ofNat]
      omega
    have hle61 : (BitVec.ofNat 6 (count - 1)).toNat ≤ 61 := by omega
    refine ⟨_, [], by rw [len, opcodeOf_runByte _ hle61]; rfl, ?_⟩
    rw [decodeFields_runByte hle61, hn, Nat.sub_add_cancel hpos]

/-! ### Both directions -/

/-- Settles O1: a well-formed opcode is decoded from some bytes, and those are its encoding. -/
theorem decodeOfEncodeIsIdentity : Obligations.DecodeOfEncodeIsIdentity := by
  intro i rest hwf
  obtain ⟨b, args, hlen, rfl⟩ := exists_fields_of_wellFormed hwf
  rw [encode_decodeFields hlen, decode_append hlen]

/-- Settles O2: the bytes that decode are a leading byte, its trailing bytes, and the rest. -/
theorem encodeOfDecodeIsIdentity : Obligations.EncodeOfDecodeIsIdentity := by
  intro bytes i rest h
  cases bytes with
  | nil => cases h
  | cons b args =>
    rcases Nat.lt_or_ge args.length (len b - 1) with hlt | hge
    · rw [decode_cons_of_lt hlt] at h
      cases h
    · rw [decode_cons_of_le hge] at h
      cases h
      refine ⟨wellFormed_decodeFields b _, ?_⟩
      rw [encode_decodeFields (List.length_take_of_le hge), List.cons_append, List.take_append_drop]

/-- Settles O6: each listing is decoded as it stands. -/
theorem bytesOfTheListingsDecode : Obligations.BytesOfTheListingsDecode := by
  unfold Obligations.BytesOfTheListingsDecode
  decide

/-- Settles O7: the count less one takes the values 0 to 61. -/
theorem runByteIsNeverALiteral : Obligations.RunByteIsNeverALiteral := by
  have hbyte : ∀ n : Fin 62, (0xC0#8 ||| BitVec.ofNat 8 n).toNat = 0xC0 + n := by decide
  intro count hpos hle
  have hvalue := hbyte ⟨count - 1, by omega⟩
  refine ⟨_, rfl, hvalue, fun h => ?_, fun h => ?_⟩ <;> rw [h] at hvalue <;> simp at hvalue <;> omega

end Sys2Proof.Machine
end

section
/-! PROOFS. One step and the engines (10_state.md R20; 60_exceptions.md R239, R246; 70_reset_and_hazards.md R262): which
engine a step can change and to what, when an engine is left alone, and on which moves the machine stops. -/

namespace Sys2Proof.Machine

/-! ### A step as a function of the engine it is about (R20, R72, R246) -/

/-- What a move about an encoder makes of it, with free values number `fr`. -/
def Encoder.moved (m : Move) (fr : Nat) (x : Encoder) : Encoder :=
  match m with
  | .turn (.enc _ a) => x.act Config.params a fr
  | .hostWrite a v => x.writeReg Config.params a.offset v fr
  | .connectSink _ answers => x.withSink answers
  | .connectPixels _ bytes => x.withPixels bytes
  | _ => x

/-- What a move about a decoder makes of it, with free values number `fr`. -/
def Decoder.moved (m : Move) (fr : Nat) (x : Decoder) : Decoder :=
  match m with
  | .turn (.dec _ ch) => x.turn Config.params ch fr
  | .hostWrite a v => x.writeReg a.offset v fr
  | .connectSource _ items => x.withSource items
  | .connectPixelSink _ => x.withPixelSink
  | _ => x

/-- The encoders after a move: the one that the move is about is changed, if it is there. -/
def Move.onEnc (m : Move) (fr : Nat) (l : List Encoder) : List Encoder :=
  match m.engine with
  | .enc e => l.modify e (Encoder.moved m fr)
  | .dec _ => l

/-- The decoders after a move: the one that the move is about is changed, if it is there. -/
def Move.onDec (m : Move) (fr : Nat) (l : List Decoder) : List Decoder :=
  match m.engine with
  | .enc _ => l
  | .dec d => l.modify d (Decoder.moved m fr)

theorem list_modify_eq_set {α : Type} {l : List α} {i : Nat} {x : α} (f : α → α) (h : l[i]? = some x) :
    l.modify i f = l.set i (f x) := by
  rw [List.modify_eq_set_getElem?, h]
  rfl

theorem encoderTurn_engines {e : Nat} {a : EncAction} {fr : Nat} {s t : State}
    (h : encoderTurn Config.params e a fr s = .next t) :
    t.enc = s.enc.modify e (fun x => x.act Config.params a fr) ∧ t.dec = s.dec := by
  unfold encoderTurn at h
  split at h <;> cases h
  case h_1 hx => exact ⟨by simp [List.modify_eq_set_getElem?, hx], rfl⟩
  case h_2 x hx => exact ⟨(list_modify_eq_set _ hx).symm, rfl⟩

theorem decoderTurn_engines {d : Nat} {ch : ReadAhead} {fr : Nat} {s t : State}
    (h : decoderTurn Config.params d ch fr s = .next t) :
    t.enc = s.enc ∧ t.dec = s.dec.modify d (fun x => x.turn Config.params ch fr) := by
  cases hx : s.dec[d]? with
  | none =>
    rw [decoderTurn_of_no_decoder _ _ _ hx] at h
    cases h
    exact ⟨rfl, by simp [List.modify_eq_set_getElem?, hx]⟩
  | some x =>
    rw [decoderTurn_of_decoder _ _ _ hx] at h
    cases h
    exact ⟨rfl, (list_modify_eq_set _ hx).symm⟩

theorem hostWrite_engines {a : HostAddr} {v : Word32} {fr : Nat} {s t : State}
    (h : s.hostWrite Config.params a v fr = .next t) :
    t.enc = (Move.hostWrite a v).onEnc fr s.enc ∧ t.dec = (Move.hostWrite a v).onDec fr s.dec := by
  unfold State.hostWrite at h
  unfold Move.onEnc Move.onDec Move.engine
  dsimp only
  split at h
  case isFalse => cases h
  case isTrue =>
    cases he : a.engine with
    | enc e =>
      rw [he] at h
      cases hx : s.enc[e]? <;> simp only [hx] at h <;> cases h
      exact ⟨(list_modify_eq_set _ hx).symm, rfl⟩
    | dec d =>
      rw [he] at h
      cases hx : s.dec[d]? <;> simp only [hx] at h <;> cases h
      exact ⟨rfl, (list_modify_eq_set _ hx).symm⟩

/-- A read has no side effect on an engine (R70). -/
theorem hostRead_engines {a : HostAddr} {s t : State} (h : s.hostRead a = .next t) :
    t.enc = s.enc ∧ t.dec = s.dec := by
  unfold State.hostRead at h
  split at h
  case isFalse => cases h
  case isTrue => split at h <;> split at h <;> cases h <;> exact ⟨rfl, rfl⟩

theorem connectDec_engines {d : Nat} {f : Decoder → Decoder} {s t : State} (h : s.connectDec d f = .next t) :
    t.enc = s.enc ∧ t.dec = s.dec.modify d f := by
  unfold State.connectDec at h
  split at h
  case h_1 => cases h
  case h_2 x hx =>
    split at h <;> cases h
    exact ⟨rfl, (list_modify_eq_set _ hx).symm⟩

theorem connectEnc_engines {e : Nat} {f : Encoder → Encoder} {s t : State} (h : s.connectEnc e f = .next t) :
    t.enc = s.enc.modify e f ∧ t.dec = s.dec := by
  unfold State.connectEnc at h
  split at h
  case h_1 => cases h
  case h_2 x hx =>
    split at h <;> cases h
    exact ⟨(list_modify_eq_set _ hx).symm, rfl⟩

/-- The engines after any move. -/
theorem takeMove_engines {m : Move} {fr : Nat} {s t : State} (h : takeMove Config.params m fr s = .next t) :
    t.enc = m.onEnc fr s.enc ∧ t.dec = m.onDec fr s.dec := by
  cases m with
  | turn tn =>
    cases tn with
    | enc e a => exact encoderTurn_engines h
    | dec d ch => exact decoderTurn_engines h
  | hostWrite a v => exact hostWrite_engines h
  | hostRead a =>
    obtain ⟨he, hd⟩ := hostRead_engines h
    unfold Move.onEnc Move.onDec Move.engine
    dsimp only
    cases a.engine with
    | enc e => exact ⟨he.trans (List.modify_id e _).symm, hd⟩
    | dec d => exact ⟨he, hd.trans (List.modify_id d _).symm⟩
  | connectSource d items => exact connectDec_engines h
  | connectPixelSink d => exact connectDec_engines h
  | connectSink e answers => exact connectEnc_engines h
  | connectPixels e bytes => exact connectEnc_engines h

theorem step_engines {s t : State} (h : step s = .next t) :
    t.enc = s.nextMove.onEnc s.draws s.enc ∧ t.dec = s.nextMove.onDec s.draws s.dec :=
  takeMove_engines (s := s.drawn) h

section

variable {m : Move} {fr : Nat}

theorem Move.onEnc_length (l : List Encoder) : (m.onEnc fr l).length = l.length := by
  unfold onEnc
  split
  · exact List.length_modify ..
  · rfl

theorem Move.onDec_length (l : List Decoder) : (m.onDec fr l).length = l.length := by
  unfold onDec
  split
  · rfl
  · exact List.length_modify ..

theorem Move.onEnc_of_eq {e : Nat} (h : m.engine = .enc e) (l : List Encoder) :
    (m.onEnc fr l)[e]? = l[e]?.map (Encoder.moved m fr) := by
  rw [onEnc, h]
  exact List.getElem?_modify_eq ..

theorem Move.onDec_of_eq {d : Nat} (h : m.engine = .dec d) (l : List Decoder) :
    (m.onDec fr l)[d]? = l[d]?.map (Decoder.moved m fr) := by
  rw [onDec, h]
  exact List.getElem?_modify_eq ..

theorem Move.onEnc_of_ne {e : Nat} (h : m.engine ≠ .enc e) (l : List Encoder) : (m.onEnc fr l)[e]? = l[e]? := by
  unfold onEnc
  split
  case h_1 e' he => exact List.getElem?_modify_ne _ _ fun heq => h (heq ▸ he)
  case h_2 => rfl

theorem Move.onDec_of_ne {d : Nat} (h : m.engine ≠ .dec d) (l : List Decoder) : (m.onDec fr l)[d]? = l[d]? := by
  unfold onDec
  split
  case h_1 => rfl
  case h_2 d' hd => exact List.getElem?_modify_ne _ _ fun heq => h (heq ▸ hd)

end

/-- Settles O41: the engines after a step are a function of the move, the draw and the engine it is about. -/
theorem enginesAreIsolated : Obligations.EnginesAreIsolated := by
  refine ⟨fun s t h => ?frame, fun s s' t t' h h' hm hdraws => ?function⟩
  case frame =>
    obtain ⟨henc, hdec⟩ := step_engines h
    rw [henc, hdec]
    exact ⟨Move.onEnc_length _, Move.onDec_length _, fun e hne => Move.onEnc_of_ne hne _,
      fun d hne => Move.onDec_of_ne hne _⟩
  case function =>
    obtain ⟨henc, hdec⟩ := step_engines h
    obtain ⟨henc', hdec'⟩ := step_engines h'
    rw [henc, hdec, henc', hdec', ← hm, ← hdraws]
    refine ⟨fun e he hx => ?_, fun d hd hx => ?_⟩
    · rw [Move.onEnc_of_eq he, Move.onEnc_of_eq he, hx]
    · rw [Move.onDec_of_eq hd, Move.onDec_of_eq hd, hx]

/-! ### ERR and DONE (R239) -/

/-- Settles O32: such an engine takes no turn, and of the other moves START alone changes its state. -/
theorem onlyStartLeavesErrAndDone : Obligations.OnlyStartLeavesErrAndDone := by
  intro s t hstep
  refine ⟨fun d x hx hend => ?decoder, fun e x hx hend => ?encoder⟩
  case decoder =>
    obtain ⟨y, hy, hnext⟩ := Decoder.next_of_step hstep hx
    refine ⟨y, hy, ?_⟩
    cases hnext with
    | stay | writeConfig | connectSource | connectPixelSink => exact .inl ⟨rfl, rfl, rfl⟩
    | turn ch =>
      rw [Decoder.turn_of_not_busy _ _ _ (Decoder.not_busy_of_ended hend.symm)]
      exact .inl ⟨rfl, rfl, rfl⟩
    | start v hm _ hstart => exact .inr ⟨_, v, hm, rfl, rfl, hstart, rfl⟩
  case encoder =>
    obtain ⟨y, hy, hnext⟩ := Encoder.next_of_step hstep hx
    refine ⟨y, hy, ?_⟩
    cases hnext with
    | stay | writeWidth | writeHeight | writeFormat | connectSink | connectPixels => exact .inl ⟨rfl, rfl, rfl⟩
    | turn a =>
      rw [Encoder.act_of_not_busy _ _ _ (Encoder.not_busy_of_ended hend.symm)]
      exact .inl ⟨rfl, rfl, rfl⟩
    | start v hm _ hstart => exact .inr ⟨_, v, hm, rfl, rfl, hstart, rfl⟩

/-! ### Moves that change no engine (R126, R166, R219) -/

theorem State.putEnc_same {s : State} {e : Nat} {x : Encoder} (h : s.enc[e]? = some x) : s.putEnc e x = s := by
  simp [State.putEnc, list_set_self h]

/-- Settles O33: the turn of such an engine writes it back as it was. -/
theorem enginesTakeNoStepUnlessBusy : Obligations.EnginesTakeNoStepUnlessBusy := by
  refine ⟨fun s d x ch ag h hidle ha => ?decoder, fun s e x a ag h hidle ha => ?encoder⟩
  case decoder =>
    have hfetch : ¬(x.dstate = .dOp ∨ x.dstate = .dArg) := by
      rintro (hst | hst) <;> simp [Decoder.busy, hst] at hidle
    rw [step_of_framing_turn hfetch h ha, Decoder.turn_of_not_busy _ _ _ hidle]
    exact congrArg _ (State.putDec_same h)
  case encoder =>
    rw [step_of_encoder_turn h ha, Encoder.act_of_not_busy _ _ _ hidle]
    exact congrArg _ (State.putEnc_same h)

/-- A step in which the host writes a register of an encoder, as the agenda says. -/
theorem step_of_encoder_write {s : State} {e : Nat} {x : Encoder} {a : HostAddr} {v : Word32} {ag : List Move}
    (h : s.enc[e]? = some x) (hengine : a.engine = .enc e) (hword : a.isWord = true)
    (ha : s.agenda = .hostWrite a v :: ag) :
    step s = .next ({ s with agenda := ag, draws := s.draws + 1 }.putEnc e
      (x.writeReg Config.params a.offset v s.draws)) := by
  rw [step_of_move (State.nextMove_cons ha)]
  simp [takeMove, State.hostWrite, hword, hengine, h, State.drawn, ha]

theorem Encoder.writeReg_of_busy {x : Encoder} (h : x.busy = true) (c : Params) (offset : Nat) (v : Word32) (fr : Nat) :
    x.writeReg c offset v fr = x := if_pos h

theorem Decoder.writeReg_of_busy {x : Decoder} (h : x.busy = true) (offset : Nat) (v : Word32) (fr : Nat) :
    x.writeReg offset v fr = x := if_pos h

/-- Settles O38: the write of a BUSY engine's register writes the engine back as it was. -/
theorem busyEnginesIgnoreWrites : Obligations.BusyEnginesIgnoreWrites := by
  intro s a v ag hword hbusy ha
  cases hengine : a.engine with
  | enc e =>
    rw [hengine, State.engineBusy, Option.any_eq_true] at hbusy
    obtain ⟨x, hx, hbusy⟩ := hbusy
    rw [step_of_encoder_write hx hengine hword ha, Encoder.writeReg_of_busy hbusy]
    exact congrArg _ (State.putEnc_same hx)
  | dec d =>
    rw [hengine, State.engineBusy, Option.any_eq_true] at hbusy
    obtain ⟨x, hx, hbusy⟩ := hbusy
    rw [step_of_decoder_write hx hengine hword ha, Decoder.writeReg_of_busy hbusy]
    exact congrArg _ (State.putDec_same hx)

/-! ### Where the machine stops (R69, R262, R270) -/

section

variable {s : State}

theorem encoderTurn_answers (c : Params) (e : Nat) (a : EncAction) (fr : Nat) :
    ∃ t, encoderTurn c e a fr s = .next t := by
  unfold encoderTurn
  split <;> exact ⟨_, rfl⟩

theorem decoderTurn_answers (c : Params) (d : Nat) (ch : ReadAhead) (fr : Nat) :
    ∃ t, decoderTurn c d ch fr s = .next t := by
  cases hx : s.dec[d]? with
  | none => exact ⟨_, decoderTurn_of_no_decoder c ch fr hx⟩
  | some x => exact ⟨_, decoderTurn_of_decoder c ch fr hx⟩

theorem decide_lt_length_eq_isSome {α : Type} (l : List α) (i : Nat) : decide (i < l.length) = l[i]?.isSome := by
  rcases Nat.lt_or_ge i l.length with h | h <;> simp [h]

theorem State.hasEngine_enc (e : Nat) : s.hasEngine (.enc e) = (s.enc[e]?).isSome := decide_lt_length_eq_isSome ..

theorem State.hasEngine_dec (d : Nat) : s.hasEngine (.dec d) = (s.dec[d]?).isSome := decide_lt_length_eq_isSome ..

theorem hostWrite_answers_iff (c : Params) (a : HostAddr) (v : Word32) (fr : Nat) :
    (∃ t, s.hostWrite c a v fr = .next t) ↔ a.isWord = true ∧ s.hasEngine a.engine = true := by
  unfold State.hostWrite
  cases a.isWord with
  | false => simp
  | true =>
    cases a.engine with
    | enc e => rw [State.hasEngine_enc]; cases hx : s.enc[e]? <;> simp [hx]
    | dec d => rw [State.hasEngine_dec]; cases hx : s.dec[d]? <;> simp [hx]

theorem hostRead_answers_iff (a : HostAddr) :
    (∃ t, s.hostRead a = .next t) ↔ a.isWord = true ∧ s.hasEngine a.engine = true := by
  unfold State.hostRead
  cases a.isWord with
  | false => simp
  | true =>
    cases a.engine with
    | enc e => rw [State.hasEngine_enc]; cases hx : s.enc[e]? <;> simp [hx]
    | dec d => rw [State.hasEngine_dec]; cases hx : s.dec[d]? <;> simp [hx]

theorem connectDec_answers_iff (d : Nat) (f : Decoder → Decoder) :
    (∃ t, s.connectDec d f = .next t) ↔ s.hasEngine (.dec d) = true ∧ s.engineBusy (.dec d) = false := by
  rw [State.hasEngine_dec, State.connectDec, State.engineBusy]
  cases s.dec[d]? with
  | none => simp
  | some x => cases hb : x.busy <;> simp [hb]

theorem connectEnc_answers_iff (e : Nat) (f : Encoder → Encoder) :
    (∃ t, s.connectEnc e f = .next t) ↔ s.hasEngine (.enc e) = true ∧ s.engineBusy (.enc e) = false := by
  rw [State.hasEngine_enc, State.connectEnc, State.engineBusy]
  cases s.enc[e]? with
  | none => simp
  | some x => cases hb : x.busy <;> simp [hb]

end

/-- Settles O42: a turn always answers, and each host move answers where it has its engine, its form and its port. -/
theorem stepStopsOnlyOnForbiddenMoves : Obligations.StepStopsOnlyOnForbiddenMoves := by
  intro s
  rw [step]
  cases s.nextMove with
  | turn tn =>
    cases tn with
    | enc e a => exact iff_of_true (encoderTurn_answers ..) rfl
    | dec d ch => exact iff_of_true (decoderTurn_answers ..) rfl
  | hostWrite a v =>
    rw [takeMove, hostWrite_answers_iff, State.forbids, Bool.or_eq_false_iff, Bool.not_eq_false', Bool.not_eq_false']
    rfl
  | hostRead a =>
    rw [takeMove, hostRead_answers_iff, State.forbids, Bool.or_eq_false_iff, Bool.not_eq_false', Bool.not_eq_false']
    rfl
  | connectSource d items | connectPixelSink d =>
    rw [takeMove, connectDec_answers_iff, State.forbids, Bool.or_eq_false_iff, Bool.not_eq_false']
    rfl
  | connectSink e answers | connectPixels e bytes =>
    rw [takeMove, connectEnc_answers_iff, State.forbids, Bool.or_eq_false_iff, Bool.not_eq_false']
    rfl

end Sys2Proof.Machine
end

section
/-! PROOFS. The invariant of a decoder (41_decoder.md R127-R152; 60_exceptions.md R226): what it asks of each state of
the FSM, and that every turn keeps it. -/

namespace Sys2Proof.Machine

/-! ### The invariant state by state -/

/-- The registers stay within their ranges (R24, R30, R214). -/
structure Decoder.Bounded (c : Params) (x : Decoder) : Prop where
  count_le : x.i ≤ x.N
  hk_le : x.hk ≤ 14
  rrem_le : x.rrem ≤ 61
  arg_le : x.arg.length ≤ 4
  tbuf_le : x.tbuf.length ≤ 8
  ra_le : x.ra ≤ c.raMax

/-- The header is complete and has passed its checks (R128-R135). -/
def Decoder.HeaderPassed (c : Params) (x : Decoder) : Prop :=
  dimOk c x.W = true ∧ dimOk c x.H = true ∧ channelsOk x.SCH = true ∧ colorspaceOk x.CS = true ∧
    requestOk x.REQ = true ∧ x.N = pixelCount x.W x.H ∧ x.OCH = outChannels x.REQ x.SCH

/-- The fields among the first `hk` header bytes have passed their checks (R127-R131). -/
def Decoder.FieldsPassed (c : Params) (x : Decoder) : Prop :=
  (8 ≤ x.hk → dimOk c x.W = true) ∧ (12 ≤ x.hk → dimOk c x.H = true) ∧ (13 ≤ x.hk → channelsOk x.SCH = true)

/-- No error is recorded (R32). -/
def Decoder.NoRecord (x : Decoder) : Prop := x.errKind = 0 ∧ x.errDetail = 0

/-- What holds while the header is read (R127). -/
structure Decoder.InHeader (c : Params) (x : Decoder) : Prop where
  state : x.dstate = .dHdr
  bounded : x.Bounded c
  no_run : x.rrem = 0
  no_pixel : x.i = 0
  request : requestOk x.REQ = true
  no_trailer : x.tbuf = []
  no_record : x.NoRecord

/-- What holds while pixels are missing, whatever the opcode fetch has read (R137). -/
structure Decoder.InStream (c : Params) (x : Decoder) : Prop where
  bounded : x.Bounded c
  header : x.HeaderPassed c
  pixels_left : x.i < x.N
  no_trailer : x.tbuf = []
  no_record : x.NoRecord

/-- What holds once all pixels are produced (R137, R150). -/
structure Decoder.PastPixels (c : Params) (x : Decoder) : Prop where
  bounded : x.Bounded c
  header : x.HeaderPassed c
  all_pixels : x.i = x.N
  no_run : x.rrem = 0
  no_record : x.NoRecord

section

variable {c : Params} {x : Decoder}

theorem Decoder.Bounded.raise_inv {e : JobError} (he : e.ofDecoder = true) (fr : Nat) (hb : x.Bounded c)
    (hr : x.rrem = 0) : (x.raise e fr).Inv c := by
  obtain ⟨h1, h2, h3, h4, h5, h6⟩ := hb
  constructor
  case record => exact fun _ => ⟨e, he, rfl, rfl⟩
  all_goals simp [inImage, *]

theorem Decoder.InHeader.inv (h : x.InHeader c) (hk : x.hk < 14) (hf : x.FieldsPassed c) : x.Inv c := by
  obtain ⟨hst, ⟨h1, h2, h3, h4, h5, h6⟩, hr, hi, hreq, ht, hn⟩ := h
  constructor
  case count_le => exact h1
  case header_checked => exact fun _ => hf
  case no_record => exact fun _ => hn
  all_goals simp [inImage, *]

/-- In `D_OP`, `D_ARG` and `D_RUN` the repetitions and the operand bytes must fit the state as well. -/
theorem Decoder.InStream.inv (h : x.InStream c) (hst : x.dstate = .dOp ∨ x.dstate = .dArg ∨ x.dstate = .dRun)
    (hrun : x.dstate = .dRun ↔ 0 < x.rrem) (harg : x.dstate = .dArg → x.arg.length + 1 < len x.op) : x.Inv c := by
  obtain ⟨⟨h1, h2, h3, h4, h5, h6⟩, hp, hi, ht, hn⟩ := h
  constructor
  case run_left => exact hrun
  case arg_open => exact harg
  case image => exact fun _ => hp
  case no_record => exact fun _ => hn
  case rrem_le => exact h3
  all_goals rcases hst with hst | hst | hst <;> simp [*]

theorem Decoder.PastPixels.inv_of_dTrl (h : x.PastPixels c) (hst : x.dstate = .dTrl) (ht : x.tbuf.length < 8) :
    x.Inv c := by
  obtain ⟨⟨h1, h2, h3, h4, h5, h6⟩, hp, hi, hr, hn⟩ := h
  constructor
  case image => exact fun _ => hp
  case no_record => exact fun _ => hn
  all_goals simp [*]

theorem Decoder.PastPixels.inv_of_matched (h : x.PastPixels c) (ht : x.tbuf = trailerBytes)
    (hst : x.dstate = .done ∨ x.dstate = .dRa ∧ x.STRICT = false) : x.Inv c := by
  obtain ⟨⟨h1, h2, h3, h4, h5, h6⟩, hp, hi, hr, hn⟩ := h
  constructor
  case image => exact fun _ => hp
  case no_record => exact fun _ => hn
  case tbuf_le => exact h5
  all_goals rcases hst with hst | ⟨hst, hs⟩ <;> simp [*]

theorem Decoder.Inv.bounded (h : x.Inv c) : x.Bounded c :=
  ⟨h.count_le, h.hk_le, h.rrem_le, h.arg_le, h.tbuf_le, h.ra_le⟩

theorem Decoder.Inv.no_run (h : x.Inv c) (hst : x.dstate ≠ .dRun) : x.rrem = 0 := by
  have hr := mt h.run_left.mpr hst
  bv_omega

theorem Decoder.Inv.inHeader (h : x.Inv c) (hst : x.dstate = .dHdr) : x.InHeader c where
  state := hst
  bounded := h.bounded
  no_run := h.no_run (by simp [hst])
  no_pixel := (h.header_open hst).2.1
  request := (h.header_open hst).2.2
  no_trailer := h.no_trailer (.inl hst)
  no_record := h.no_record (by simp [hst])

theorem Decoder.Inv.inStream (h : x.Inv c) (hst : x.dstate = .dOp ∨ x.dstate = .dArg ∨ x.dstate = .dRun) :
    x.InStream c where
  bounded := h.bounded
  header := h.image (by rcases hst with hst | hst | hst <;> simp [inImage, hst])
  pixels_left := h.pixels_left hst
  no_trailer := h.no_trailer (.inr hst)
  no_record := h.no_record (by rcases hst with hst | hst | hst <;> simp [hst])

theorem Decoder.Inv.pastPixels (h : x.Inv c) (hst : x.dstate = .dTrl ∨ x.dstate = .dRa ∨ x.dstate = .done) :
    x.PastPixels c where
  bounded := h.bounded
  header := h.image (by rcases hst with hst | hst | hst <;> simp [inImage, hst])
  all_pixels := h.all_pixels hst
  no_run := h.no_run (by rcases hst with hst | hst | hst <;> simp [hst])
  no_record := h.no_record (by rcases hst with hst | hst | hst <;> simp [hst])

end

/-! ### The turns -/

section

variable {c : Params} {ch : ReadAhead} {fr : Nat} {x : Decoder} {b : Byte} {rest : List SourceItem}

/-- The pixel that an opcode or a repetition gives (R137). -/
theorem Decoder.InStream.afterPixel (h : x.InStream c) (p : Pixel) {reps : BitVec 6} (hreps : reps ≤ 61) :
    (x.afterPixel p reps).Inv c := by
  obtain ⟨⟨h1, h2, h3, h4, h5, h6⟩, hp, hi, ht, hn⟩ := h
  have hle : x.i + 1 ≤ x.N := by bv_omega
  by_cases hlast : x.i + 1 = x.N
  · have hr : (x.afterPixel p reps).rrem = 0 := if_pos hlast
    refine PastPixels.inv_of_dTrl ⟨⟨hle, h2, by simp [hr], h4, h5, h6⟩, hp, hlast, hr, hn⟩ (if_pos hlast) ?_
    exact (congrArg List.length ht).trans_lt (by decide)
  · have hr : (x.afterPixel p reps).rrem = reps := if_neg hlast
    have hst : (x.afterPixel p reps).dstate = if 0 < reps then .dRun else .dOp := if_neg hlast
    have hlt : x.i + 1 < x.N := by bv_omega
    have hs : (x.afterPixel p reps).InStream c := ⟨⟨hle, h2, by rwa [hr], h4, h5, h6⟩, hp, hlt, ht, hn⟩
    by_cases hpos : 0 < reps
    · rw [if_pos hpos] at hst
      exact hs.inv (.inr (.inr hst)) (by rw [hst, hr]; exact iff_of_true rfl hpos) (by simp [hst])
    · rw [if_neg hpos] at hst
      exact hs.inv (.inl hst) (by rw [hst, hr]; exact iff_of_false nofun hpos) (by simp [hst])

theorem Instr.repsLeft_le {b : Byte} {args : List Byte} {rrem : BitVec 6} (h : rrem ≤ 61) :
    Instr.repsLeft (decodeFields b args) rrem ≤ 61 := by
  cases hi : decodeFields b args with
  | rgb | rgba | index | diff | luma => exact h
  | run count =>
    have hle := run_count_le hi
    rw [repsLeft, BitVec.le_def, BitVec.toNat_ofNat]
    exact (Nat.mod_le _ _).trans (Nat.sub_le_of_le_add hle)

theorem Decoder.InStream.execute (h : x.InStream c) (b : Byte) (args : List Byte) :
    (x.execute (decodeFields b args)).Inv c := h.afterPixel _ (Instr.repsLeft_le h.bounded.rrem_le)

theorem Decoder.Inv.turn_of_dOp (h : x.Inv c) (hst : x.dstate = .dOp) (hs : x.source = .byte b :: rest) :
    (x.turn c ch fr).Inv c := by
  obtain ⟨⟨h1, h2, h3, h4, h5, h6⟩, hp, hi, ht, hn⟩ := h.inStream (.inl hst)
  have hfetch : (x.takeLeading b rest).InStream c := ⟨⟨h1, h2, h3, Nat.zero_le _, h5, h6⟩, hp, hi, ht, hn⟩
  rw [Decoder.turn_of_dOp hst hs]
  split
  case isTrue => exact hfetch.execute ..
  case isFalse hlen =>
    have hr : x.rrem = 0 := h.no_run (by simp [hst])
    have hpos := len_pos b
    refine InStream.inv ⟨⟨h1, h2, h3, Nat.zero_le _, h5, h6⟩, hp, hi, ht, hn⟩ (.inr (.inl rfl)) ?_ fun _ => ?_
    · simp [takeLeading, hr]
    · exact Nat.lt_of_le_of_ne hpos (Ne.symm hlen)

theorem Decoder.Inv.turn_of_dArg (h : x.Inv c) (hst : x.dstate = .dArg) (hs : x.source = .byte b :: rest) :
    (x.turn c ch fr).Inv c := by
  obtain ⟨⟨h1, h2, h3, h4, h5, h6⟩, hp, hi, ht, hn⟩ := h.inStream (.inr (.inl hst))
  have hopen := h.arg_open hst
  have hlen := len_le x.op
  have harg : (x.takeOperand b rest).arg.length = x.arg.length + 1 := List.length_append
  have hfetch : (x.takeOperand b rest).InStream c := ⟨⟨h1, h2, h3, by omega, h5, h6⟩, hp, hi, ht, hn⟩
  rw [Decoder.turn_of_dArg hst hs]
  split
  case isTrue => exact hfetch.execute ..
  case isFalse hmore =>
    refine hfetch.inv (.inr (.inl hst)) h.run_left fun _ => ?_
    have hop : (x.takeOperand b rest).op = x.op := rfl
    rw [harg, hop]
    omega

theorem Decoder.Inv.turn_of_dRun (h : x.Inv c) (hst : x.dstate = .dRun) : (x.turn c ch fr).Inv c := by
  have hpos := h.run_left.mp hst
  have hle := h.rrem_le
  rw [Decoder.turn_of_dRun c ch fr hst]
  exact (h.inStream (.inr (.inr hst))).afterPixel _ (by bv_omega)

/-! ### The header field by field (R127-R135) -/

/-- Storing a header field is no progress of the job. -/
theorem Decoder.InHeader.withFields (h : x.InHeader c) (W H : Word32) (SCH CS : Byte) (hbuf : Word32) :
    ({ x with W := W, H := H, SCH := SCH, CS := CS, hbuf := hbuf } : Decoder).InHeader c := by
  obtain ⟨hst, ⟨h1, h2, h3, h4, h5, h6⟩, hr, hi, hreq, ht, hn⟩ := h
  exact ⟨hst, ⟨h1, h2, h3, h4, h5, h6⟩, hr, hi, hreq, ht, hn⟩

theorem Decoder.InHeader.raise_inv {e : JobError} (h : x.InHeader c) (he : e.ofDecoder = true) (fr : Nat) :
    (x.raise e fr).Inv c := h.bounded.raise_inv he fr h.no_run

theorem Decoder.InHeader.checkMagic (h : x.InHeader c) (hk : x.hk = 4) : (x.checkMagic fr).Inv c := by
  unfold Decoder.checkMagic
  split
  case isTrue => exact (h.withFields x.W x.H x.SCH x.CS 0).inv (by simp [hk]) (by simp [FieldsPassed, hk])
  case isFalse => exact h.raise_inv rfl fr

theorem Decoder.InHeader.checkWidth (h : x.InHeader c) (hk : x.hk = 8) : (x.checkWidth c fr).Inv c := by
  have hf := h.withFields x.hbuf x.H x.SCH x.CS 0
  unfold Decoder.checkWidth
  dsimp only
  split
  case isTrue hW => exact hf.inv (by simp [hk]) (by simp [FieldsPassed, hk, hW])
  case isFalse => exact hf.raise_inv rfl fr

theorem Decoder.InHeader.checkHeight (h : x.InHeader c) (hk : x.hk = 12) (hW : dimOk c x.W = true) :
    (x.checkHeight c fr).Inv c := by
  have hf := h.withFields x.W x.hbuf x.SCH x.CS 0
  unfold Decoder.checkHeight
  dsimp only
  split
  case isTrue hH => exact hf.inv (by simp [hk]) (by simp [FieldsPassed, hk, hW, hH])
  case isFalse => exact hf.raise_inv rfl fr

theorem Decoder.InHeader.checkChannels (h : x.InHeader c) (hk : x.hk = 13) (hW : dimOk c x.W = true)
    (hH : dimOk c x.H = true) : (x.checkChannels b fr).Inv c := by
  have hf := h.withFields x.W x.H b x.CS x.hbuf
  unfold Decoder.checkChannels
  dsimp only
  split
  case isTrue hC => exact hf.inv (by simp [hk]) (by simp [FieldsPassed, hW, hH, hC])
  case isFalse => exact hf.raise_inv rfl fr

/-- An image with checked dimensions has a pixel (R135). -/
theorem pixelCount_pos {W H : Word32} (hW : dimOk c W = true) (hH : dimOk c H = true) : 0 < pixelCount W H := by
  have hpos : 0 < W.toNat * H.toNat :=
    Nat.mul_pos (Nat.pos_of_ne_zero ((dimOk_iff c W).mp hW).1) (Nat.pos_of_ne_zero ((dimOk_iff c H).mp hH).1)
  rwa [BitVec.lt_def, pixelCount_toNat]

theorem Decoder.InHeader.checkColorspace (h : x.InHeader c) (hW : dimOk c x.W = true) (hH : dimOk c x.H = true)
    (hC : channelsOk x.SCH = true) : (x.checkColorspace b fr).Inv c := by
  unfold Decoder.checkColorspace
  dsimp only
  split
  case isTrue hCS =>
    obtain ⟨-, ⟨-, h2, h3, h4, h5, h6⟩, hr, hi, hreq, ht, hn⟩ := h
    have hN : x.i < pixelCount x.W x.H := by rw [hi]; exact pixelCount_pos hW hH
    refine InStream.inv ⟨⟨BitVec.le_of_lt hN, h2, h3, h4, h5, h6⟩, ⟨hW, hH, hC, hCS, hreq, rfl, rfl⟩, hN, ht, hn⟩
      (.inl rfl) ?_ fun harg => by cases harg
    simp [hr]
  case isFalse => exact (h.withFields x.W x.H x.SCH b x.hbuf).raise_inv rfl fr

/-- `y` is the decoder after one more header byte, the field that the byte completes not yet checked. -/
theorem Decoder.InHeader.headerField {y : Decoder} (h : y.InHeader c) (hW : 9 ≤ y.hk → dimOk c y.W = true)
    (hH : 13 ≤ y.hk → dimOk c y.H = true) (hC : 14 ≤ y.hk → channelsOk y.SCH = true) :
    (y.headerField c b fr).Inv c := by
  have hle := h.bounded.hk_le
  rcases (by omega : y.hk = 4 ∨ y.hk = 8 ∨ y.hk = 12 ∨ y.hk = 13 ∨ y.hk = 14 ∨
      y.hk ≠ 4 ∧ y.hk ≠ 8 ∧ y.hk ≠ 12 ∧ y.hk ≠ 13 ∧ y.hk ≠ 14) with hk | hk | hk | hk | hk | ⟨n4, n8, n12, n13, n14⟩
  · rw [headerField_of_magic _ _ _ hk]
    exact h.checkMagic hk
  · rw [headerField_of_width _ _ _ hk]
    exact h.checkWidth hk
  · rw [headerField_of_height _ _ _ hk]
    exact h.checkHeight hk (hW (by omega))
  · rw [headerField_of_channels _ _ _ hk]
    exact h.checkChannels hk (hW (by omega)) (hH (by omega))
  · rw [headerField_of_colorspace _ _ _ hk]
    exact h.checkColorspace (hW (by omega)) (hH (by omega)) (hC (by omega))
  · rw [headerField_of_incomplete _ _ _ n4 n8 n12 n13 n14]
    exact h.inv (by omega) ⟨fun _ => hW (by omega), fun _ => hH (by omega), fun _ => hC (by omega)⟩

theorem Decoder.Inv.turn_of_dHdr (h : x.Inv c) (hst : x.dstate = .dHdr) (hs : x.source = .byte b :: rest) :
    (x.turn c ch fr).Inv c := by
  obtain ⟨-, ⟨h1, -, h3, h4, h5, h6⟩, hr, hi, hreq, ht, hn⟩ := h.inHeader hst
  obtain ⟨hopen, -, -⟩ := h.header_open hst
  obtain ⟨hW, hH, hC⟩ := h.header_checked hst
  have hbyte : (x.takeHeaderByte b rest).InHeader c := ⟨hst, ⟨h1, hopen, h3, h4, h5, h6⟩, hr, hi, hreq, ht, hn⟩
  rw [Decoder.turn_of_dHdr hst hs]
  exact hbyte.headerField (fun hk => hW (Nat.le_of_succ_le_succ hk)) (fun hk => hH (Nat.le_of_succ_le_succ hk))
    fun hk => hC (Nat.le_of_succ_le_succ hk)

/-! ### The trailer and the read-ahead (R150, R214) -/

theorem Decoder.Inv.turn_of_dTrl (h : x.Inv c) (hst : x.dstate = .dTrl) (hs : x.source = .byte b :: rest) :
    (x.turn c ch fr).Inv c := by
  obtain ⟨⟨h1, h2, h3, h4, h5, h6⟩, hp, hi, hr, hn⟩ := h.pastPixels (.inl hst)
  have hopen := h.trailer_open hst
  have hlen : (x.takeTrailerByte b rest).tbuf.length = x.tbuf.length + 1 := List.length_append
  have hbyte : (x.takeTrailerByte b rest).PastPixels c := ⟨⟨h1, h2, h3, h4, by omega, h6⟩, hp, hi, hr, hn⟩
  rw [Decoder.turn_of_dTrl hst hs]
  split
  case isFalse => exact hbyte.inv_of_dTrl hst (by omega)
  case isTrue =>
    by_cases hmatch : (x.takeTrailerByte b rest).tbuf = trailerBytes
    · obtain ⟨⟨g1, g2, g3, g4, g5, g6⟩, -⟩ := hbyte
      cases hstrict : (x.takeTrailerByte b rest).STRICT with
      | true =>
        rw [checkTrailer_of_strict hmatch hstrict]
        exact PastPixels.inv_of_matched ⟨⟨g1, g2, g3, g4, g5, g6⟩, hp, hi, hr, hn⟩ hmatch (.inl rfl)
      | false =>
        rw [checkTrailer_of_default hmatch hstrict]
        exact PastPixels.inv_of_matched ⟨⟨g1, g2, g3, g4, g5, g6⟩, hp, hi, hr, hn⟩ hmatch (.inr ⟨rfl, hstrict⟩)
    · rw [checkTrailer_of_ne hmatch]
      exact hbyte.bounded.raise_inv rfl fr hr

/-- Everything a turn in `D_RA` can do (R214). -/
theorem Decoder.readAheadStep_cases (c : Params) (ch : ReadAhead) (x : Decoder) :
    (∃ rest, x.readAheadStep c ch = { x with source := rest, dstate := .done }) ∨
    (∃ b rest, x.ra < c.raMax ∧ x.source = .byte b :: rest ∧
      x.readAheadStep c ch = { x with source := rest, inCount := x.inCount + 1, ra := x.ra + 1 }) := by
  have hcomplete : ∃ rest, x.complete = { x with source := rest, dstate := .done } := ⟨x.source, rfl⟩
  cases ch with
  | complete => exact .inl hcomplete
  | read =>
    unfold readAheadStep
    dsimp only
    split
    case isTrue hra =>
      rcases x.readByte_cases with ⟨-, hr⟩ | ⟨b, rest, hs, hr⟩ | ⟨rest, -, hr⟩ <;> rw [hr]
      · exact .inl hcomplete
      · exact .inr ⟨b, rest, hra, hs, rfl⟩
      · exact .inl ⟨rest, rfl⟩
    case isFalse => exact .inl hcomplete

theorem Decoder.Inv.turn_of_dRa (h : x.Inv c) (hst : x.dstate = .dRa) : (x.turn c ch fr).Inv c := by
  obtain ⟨⟨h1, h2, h3, h4, h5, h6⟩, hp, hi, hr, hn⟩ := h.pastPixels (.inr (.inl hst))
  have hmatch := h.trailer_matched (.inl hst)
  have hturn : x.turn c ch fr = x.readAheadStep c ch := by rw [turn, hst]
  rw [hturn]
  rcases x.readAheadStep_cases c ch with ⟨rest, hstep⟩ | ⟨b, rest, hra, -, hstep⟩ <;> rw [hstep]
  · exact PastPixels.inv_of_matched ⟨⟨h1, h2, h3, h4, h5, h6⟩, hp, hi, hr, hn⟩ hmatch (.inl rfl)
  · exact PastPixels.inv_of_matched ⟨⟨h1, h2, h3, h4, h5, hra⟩, hp, hi, hr, hn⟩ hmatch
      (.inr ⟨hst, h.default_mode hst⟩)

/-- In a state that reads the stream, a turn without a byte raises an error of R225. -/
theorem Decoder.Inv.turn_of_reading {e : JobError} (h : x.Inv c) (he : x.dstate.endError = some e)
    (hbyte : ∀ b rest, x.source = .byte b :: rest → (x.turn c ch fr).Inv c) : (x.turn c ch fr).Inv c := by
  have hr : x.rrem = 0 := h.no_run fun hrun => by rw [hrun] at he; cases he
  have hofDecoder : e.ofDecoder = true := by
    cases hst : x.dstate <;> rw [hst] at he <;> cases he <;> rfl
  rcases x.readByte_cases with ⟨hs, -⟩ | ⟨b, rest, hs, -⟩ | ⟨rest, hs, -⟩
  · rw [turn_of_ended he hs]
    exact h.bounded.raise_inv hofDecoder fr hr
  · exact hbyte b rest hs
  · rw [turn_of_source_error he hs]
    exact h.bounded.raise_inv rfl fr hr

theorem Decoder.Inv.turn (h : x.Inv c) (ch : ReadAhead) (fr : Nat) : (x.turn c ch fr).Inv c := by
  cases hst : x.dstate with
  | idle | done | err => rwa [turn_of_not_busy _ _ _ (by simp [busy, hst])]
  | dHdr => exact h.turn_of_reading (by rw [hst]; rfl) fun _ _ hs => h.turn_of_dHdr hst hs
  | dOp => exact h.turn_of_reading (by rw [hst]; rfl) fun _ _ hs => h.turn_of_dOp hst hs
  | dArg => exact h.turn_of_reading (by rw [hst]; rfl) fun _ _ hs => h.turn_of_dArg hst hs
  | dRun => exact h.turn_of_dRun hst
  | dTrl => exact h.turn_of_reading (by rw [hst]; rfl) fun _ _ hs => h.turn_of_dTrl hst hs
  | dRa => exact h.turn_of_dRa hst

end

/-! ### The host's moves (R125, R219, R261) -/

section

variable {c : Params} {x : Decoder}

theorem Decoder.initJob_bounded : x.initJob.Bounded c where
  count_le := BitVec.le_refl _
  hk_le := by simp
  rrem_le := by simp
  arg_le := by simp
  tbuf_le := by simp
  ra_le := by simp

theorem Decoder.inv_jobStart (c : Params) (fr : Nat) (x : Decoder) : (x.jobStart fr).Inv c := by
  rcases x.jobStart_cases fr with ⟨hreq, h⟩ | ⟨-, h⟩ <;> rw [h]
  · exact InHeader.inv ⟨rfl, initJob_bounded, rfl, rfl, hreq, rfl, rfl, rfl⟩ (by simp) (by simp [FieldsPassed])
  · exact initJob_bounded.raise_inv rfl fr rfl

/-- The invariant reads no register that the host writes and no port. -/
theorem Decoder.Inv.withHostFields (h : x.Inv c) (regReq : Byte) (regStrict : Bool) (source : List SourceItem)
    (pixelSink : List (List Byte)) :
    ({ x with regReq := regReq, regStrict := regStrict, source := source, pixelSink := pixelSink } :
      Decoder).Inv c := by
  cases h
  constructor <;> assumption

theorem Decoder.Inv.next {s : State} {d : Nat} {y : Decoder} (h : x.Inv Config.params) (hnext : x.Next s d y) :
    y.Inv Config.params := by
  cases hnext with
  | stay => exact h
  | turn ch => exact h.turn ch s.draws
  | start => exact x.inv_jobStart Config.params s.draws
  | writeConfig v => exact h.withHostFields _ _ x.source x.pixelSink
  | connectSource items => exact h.withHostFields x.regReq x.regStrict items x.pixelSink
  | connectPixelSink => exact h.withHostFields x.regReq x.regStrict x.source []

end

end Sys2Proof.Machine
end

section
/-! PROOFS. The invariant of an encoder (42_encoder.md R165-R186; 60_exceptions.md R226), and that every step of the
block keeps the invariant of its engines. -/

namespace Sys2Proof.Machine

/-! ### The invariant by phases -/

/-- What holds of the pixel registers from job start on, errors included (R28, R171-R183). -/
structure Encoder.PixelsOk (x : Encoder) : Prop where
  count_le : x.i ≤ x.N
  run_le : x.run ≤ 61
  run_flushed : x.i = x.N → x.run = 0
  alpha_opaque : x.CH = 3 → x.prev.a = 255

/-- What holds of a job that has raised no error, its bytes apart (R165, R226). -/
structure Encoder.JobOk (c : Params) (x : Encoder) : Prop where
  pixels : x.PixelsOk
  descriptor : dimOk c x.W = true ∧ dimOk c x.H = true ∧ channelsOk x.CH = true ∧ colorspaceOk x.CS = true ∧
    x.N = pixelCount x.W x.H
  no_record : x.errKind = 0 ∧ x.errDetail = 0

section

variable {c : Params} {x : Encoder}

/-- Raising an error discards the bytes and keeps the pixel registers (R231). -/
theorem Encoder.PixelsOk.raise_inv {e : JobError} (h : x.PixelsOk) (he : e.ofEncoder = true) (fr : Nat) :
    (x.raise e fr).Inv c := by
  obtain ⟨h1, h2, h3, h4⟩ := h
  constructor
  case count_le => exact h1
  case run_le => exact h2
  case run_flushed => exact h3
  case alpha_opaque => exact fun _ => h4
  case record => exact fun _ => ⟨e, he, rfl, rfl⟩
  all_goals simp [busy]

/-- A BUSY encoder, with what each state asks of its bytes (R169, R183, R184). -/
theorem Encoder.JobOk.inv_of_busy (h : x.JobOk c) (hbusy : x.busy = true) (hq : x.q.length ≤ 14)
    (hfifo : x.fifo.length ≤ c.outBuf) (hflush : x.estate = .eFlush → x.q = [] ∧ x.fifo = [])
    (hall : x.estate ≠ .ePix → x.i = x.N) : x.Inv c := by
  obtain ⟨⟨h1, h2, h3, h4⟩, hd, hn⟩ := h
  have hend : x.estate ≠ .done ∧ x.estate ≠ .err := by
    constructor <;> intro hst <;> simp [busy, hst] at hbusy
  constructor
  case count_le => exact h1
  case run_le => exact h2
  case run_flushed => exact h3
  case q_le => exact hq
  case fifo_le => exact hfifo
  case flush_empty => exact hflush
  case alpha_opaque => exact fun _ => h4
  case descriptor => exact fun _ => hd
  case no_record => exact fun _ => hn
  case bytes_busy => simp [hbusy]
  case all_pixels => exact fun hst => hall (by rcases hst with hst | hst | hst <;> simp [hst])
  case record => exact fun hst => absurd hst hend.2

theorem Encoder.JobOk.inv_of_done (h : x.JobOk c) (hst : x.estate = .done) (hq : x.q = []) (hfifo : x.fifo = [])
    (hall : x.i = x.N) : x.Inv c := by
  obtain ⟨⟨h1, h2, h3, h4⟩, hd, hn⟩ := h
  constructor
  case run_le => exact h2
  case alpha_opaque => exact fun _ => h4
  case descriptor => exact fun _ => hd
  case no_record => exact fun _ => hn
  case count_le => exact h1
  case run_flushed => exact h3
  all_goals simp [busy, hst, hq, hfifo, hall]

theorem Encoder.Inv.pixelsOk (h : x.Inv c) (hst : x.estate ≠ .idle) : x.PixelsOk :=
  ⟨h.count_le, h.run_le, h.run_flushed, h.alpha_opaque hst⟩

theorem Encoder.Inv.jobOk (h : x.Inv c) (hbusy : x.busy = true) : x.JobOk c where
  pixels := h.pixelsOk fun hst => by simp [busy, hst] at hbusy
  descriptor := h.descriptor (.inl hbusy)
  no_record := h.no_record fun hst => by simp [busy, hst] at hbusy

end

/-! ### The actions (R166-R186) -/

section

variable {c : Params} {fr : Nat} {x : Encoder}

/-- Everything Drain can do: the oldest byte leaves the FIFO, or the queue where the FIFO is empty (R168). -/
theorem Encoder.drain_cases (fr : Nat) (x : Encoder) :
    x.drain fr = x ∨
    (∃ answers, x.drain fr = { x with sinkAnswers := answers }.raise .ioSink fr) ∨
    ∃ b fifo q answers, fifo.length ≤ x.fifo.length ∧ q.length ≤ x.q.length ∧ x.fifo ++ x.q = b :: (fifo ++ q) ∧
      x.drain fr =
        { x with sink := x.sink ++ [b], outCount := x.outCount + 1, sinkAnswers := answers, fifo := fifo, q := q } := by
  unfold drain
  split
  case h_1 b rest hfifo =>
    rcases x.writeByte_cases b with ⟨answers, hw⟩ | ⟨answers, -, hw⟩ <;> rw [hw]
    · exact .inr (.inr ⟨b, rest, x.q, answers, by simp [hfifo], le_rfl, by simp [hfifo], rfl⟩)
    · exact .inr (.inl ⟨answers, rfl⟩)
  case h_2 b rest hfifo hq =>
    rcases x.writeByte_cases b with ⟨answers, hw⟩ | ⟨answers, -, hw⟩ <;> rw [hw]
    · exact .inr (.inr ⟨b, x.fifo, rest, answers, le_rfl, by simp [hq], by simp [hfifo, hq], rfl⟩)
    · exact .inr (.inl ⟨answers, rfl⟩)
  case h_3 => exact .inl rfl

theorem Encoder.enabled_drain_iff :
    x.enabled c .drain = true ↔ x.busy = true ∧ (x.fifo ≠ [] ∨ c.outBuf = 0 ∧ x.q ≠ []) := by
  simp [enabled]

theorem Encoder.enabled_serialize_iff :
    x.enabled c .serialize = true ↔ x.busy = true ∧ 0 < c.outBuf ∧ x.q ≠ [] ∧ x.fifo.length < c.outBuf := by
  simp [enabled, and_assoc]

theorem Encoder.Inv.all_pixels_of_busy (h : x.Inv c) (hbusy : x.busy = true) (hne : x.estate ≠ .ePix) :
    x.i = x.N := by
  cases hst : x.estate with
  | ePix => exact absurd hst hne
  | eTrl => exact h.all_pixels (.inl hst)
  | eFlush => exact h.all_pixels (.inr (.inl hst))
  | idle | done | err => simp [busy, hst] at hbusy

/-- Bytes that move within their bounds, where there are some, are no matter of the job's other registers. -/
theorem Encoder.Inv.moveBytes (h : x.Inv c) (hbusy : x.busy = true) (hbytes : x.fifo ++ x.q ≠ [])
    (sink : List Byte) (outCount : Word64) (answers : List SinkAnswer) {fifo q : List Byte} (hq : q.length ≤ 14)
    (hfifo : fifo.length ≤ c.outBuf) :
    ({ x with sink := sink, outCount := outCount, sinkAnswers := answers, fifo := fifo, q := q } : Encoder).Inv c := by
  obtain ⟨⟨h1, h2, h3, h4⟩, hd, hn⟩ := h.jobOk hbusy
  refine JobOk.inv_of_busy ⟨⟨h1, h2, h3, h4⟩, hd, hn⟩ hbusy hq hfifo (fun hst => ?_)
    fun hst => h.all_pixels_of_busy hbusy hst
  obtain ⟨hq, hfifo⟩ := h.flush_empty hst
  exact absurd (by rw [hq, hfifo]; rfl) hbytes

theorem Encoder.Inv.raise {e : JobError} (h : x.Inv c) (hbusy : x.busy = true) (he : e.ofEncoder = true)
    (fr : Nat) (answers : List SinkAnswer) : ({ x with sinkAnswers := answers }.raise e fr).Inv c := by
  obtain ⟨h1, h2, h3, h4⟩ := (h.jobOk hbusy).pixels
  have hpixels : ({ x with sinkAnswers := answers } : Encoder).PixelsOk := ⟨h1, h2, h3, h4⟩
  exact hpixels.raise_inv he fr

theorem Encoder.Inv.drain (h : x.Inv c) (hen : x.enabled c .drain = true) : (x.drain fr).Inv c := by
  obtain ⟨hbusy, -⟩ := enabled_drain_iff.mp hen
  rcases x.drain_cases fr with hd | ⟨answers, hd⟩ | ⟨b, fifo, q, answers, hfifo, hq, hbytes, hd⟩ <;> rw [hd]
  · exact h
  · exact h.raise hbusy rfl fr answers
  · exact h.moveBytes hbusy (by simp [hbytes]) _ _ answers (hq.trans h.q_le) (hfifo.trans h.fifo_le)

theorem Encoder.Inv.serialize (h : x.Inv c) (hen : x.enabled c .serialize = true) : x.serialize.Inv c := by
  obtain ⟨hbusy, -, -, hroom⟩ := enabled_serialize_iff.mp hen
  unfold Encoder.serialize
  split
  case h_1 => exact h
  case h_2 b rest hq =>
    have hrest : rest.length ≤ 14 := by have := h.q_le; rw [hq] at this; exact Nat.le_of_succ_le this
    exact h.moveBytes hbusy (by simp [hq]) _ _ _ hrest (by simpa using hroom)

/-- The pixel's opcodes take at most 6 of the queue's 14 bytes (R169). -/
theorem Encoder.Inv.selectNext (h : x.Inv c) (hst : x.estate = .ePix) (hq : x.q = []) (hmore : x.i < x.N) :
    x.selectNext.Inv c := by
  have hbusy : x.busy = true := by simp [busy, hst]
  obtain ⟨⟨h1, h2, h3, h4⟩, hd, hn⟩ := h.jobOk hbusy
  have hrun := selectNext_run_le h2
  have hlen := EncodeLoop.select_bytes_le (last := decide (x.i + 1 = x.N)) (p := x.nextPixel) (st := x.loop) (B := 5)
    (by decide) (encode_length_le _)
  rw [selectNext_eq h2] at hrun ⊢
  refine JobOk.inv_of_busy ⟨⟨?count, hrun, fun hlast => ?flushed, fun hCH => if_pos hCH⟩, hd, hn⟩ hbusy ?queue h.fifo_le
    (fun hst' => ?_) fun hne => absurd hst hne
  case count =>
    have hle : x.i + 1 ≤ x.N := by bv_omega
    exact hle
  case flushed =>
    have hzero : _ = 0 := EncodeLoop.select_run_of_last (p := x.nextPixel) (st := x.loop) (decide_eq_true hlast)
    exact congrArg (BitVec.ofNat 6) hzero
  case queue =>
    rw [hq, List.nil_append]
    dsimp only
    omega
  · rw [hst] at hst'
    cases hst'

theorem Encoder.Inv.selectStep (h : x.Inv c) (hen : x.enabled c .select = true) : (x.selectStep fr).Inv c := by
  obtain ⟨hst, hq, hmore⟩ := enabled_select_iff.mp hen
  unfold Encoder.selectStep readPixel
  by_cases hbeat : x.CH.toNat ≤ x.pixels.length
  · rw [if_pos hbeat]
    exact h.selectNext hst hq hmore
  · rw [if_neg hbeat]
    exact h.raise (by simp [busy, hst]) rfl fr x.sinkAnswers

theorem Encoder.Inv.endPixels (h : x.Inv c) (hen : x.enabled c .endPixels = true) : x.endPixels.Inv c := by
  obtain ⟨hst, hq, hall⟩ := enabled_endPixels_iff.mp hen
  obtain ⟨⟨h1, h2, h3, h4⟩, hd, hn⟩ := h.jobOk (by simp [busy, hst])
  refine JobOk.inv_of_busy ⟨⟨h1, h2, h3, h4⟩, hd, hn⟩ (by simp [busy]) ?_ h.fifo_le (by simp) fun _ => hall
  rw [endPixels_q, hq]
  decide

theorem Encoder.Inv.toFlush (h : x.Inv c) (hen : x.enabled c .toFlush = true) :
    ({ x with estate := .eFlush } : Encoder).Inv c := by
  obtain ⟨hst, hq, hfifo⟩ := enabled_toFlush_iff.mp hen
  obtain ⟨⟨h1, h2, h3, h4⟩, hd, hn⟩ := h.jobOk (by simp [busy, hst])
  exact JobOk.inv_of_busy ⟨⟨h1, h2, h3, h4⟩, hd, hn⟩ (by simp [busy]) h.q_le h.fifo_le (fun _ => ⟨hq, hfifo⟩)
    fun _ => h.all_pixels (.inl hst)

theorem Encoder.Inv.flushStep (h : x.Inv c) (hen : x.enabled c .flush = true) : (x.flushStep fr).Inv c := by
  have hst := enabled_flush_iff.mp hen
  have hbusy : x.busy = true := by simp [busy, hst]
  unfold Encoder.flushStep
  rcases x.flushPort_cases with ⟨answers, hf⟩ | ⟨answers, -, hf⟩ <;> rw [hf]
  · obtain ⟨⟨h1, h2, h3, h4⟩, hd, hn⟩ := h.jobOk hbusy
    obtain ⟨hq, hfifo⟩ := h.flush_empty hst
    exact JobOk.inv_of_done ⟨⟨h1, h2, h3, h4⟩, hd, hn⟩ rfl hq hfifo (h.all_pixels (.inr (.inl hst)))
  · exact h.raise hbusy rfl fr answers

theorem Encoder.Inv.act (h : x.Inv c) (a : EncAction) (fr : Nat) : (x.act c a fr).Inv c := by
  unfold Encoder.act
  split
  case isFalse => exact h
  case isTrue hen =>
    cases a with
    | drain => exact h.drain hen
    | serialize => exact h.serialize hen
    | select => exact h.selectStep hen
    | endPixels => exact h.endPixels hen
    | toFlush => exact h.toFlush hen
    | flush => exact h.flushStep hen

end

/-! ### The host's moves (R165, R219, R260) -/

section

variable {c : Params} {x : Encoder}

theorem Encoder.initJob_pixelsOk (x : Encoder) : x.initJob.PixelsOk where
  count_le := Nat.zero_le _
  run_le := by simp
  run_flushed := by simp
  alpha_opaque _ := rfl

theorem Encoder.inv_jobStart (c : Params) (fr : Nat) (x : Encoder) : (x.jobStart c fr).Inv c := by
  have hpixels := x.initJob_pixelsOk
  rcases x.jobStart_cases c fr with ⟨hnone, h⟩ | ⟨e, hsome, h⟩ <;> rw [h]
  · rcases x.initJob.descriptorError_cases c with ⟨-, hW, hH, hCH, hCS⟩ | ⟨e, hsome, -⟩
    · exact JobOk.inv_of_busy ⟨hpixels, ⟨hW, hH, hCH, hCS, rfl⟩, ⟨rfl, rfl⟩⟩ rfl (by simp [headerBytes]) (by simp)
        (by simp) fun hne => absurd rfl hne
    · rw [hnone] at hsome
      cases hsome
  · rcases x.initJob.descriptorError_cases c with ⟨hnone, -⟩ | ⟨e', hsome', he, -⟩
    · rw [hnone] at hsome
      cases hsome
    · obtain rfl : e' = e := Option.some.inj (hsome'.symm.trans hsome)
      exact hpixels.raise_inv he fr

/-- The invariant reads no register that the host writes and no port. -/
theorem Encoder.Inv.withHostFields (h : x.Inv c) (width height : Word32) (channels colorspace : Byte)
    (sink : List Byte) (answers : List SinkAnswer) (flushes : Nat) (pixels : List Byte) :
    ({ x with
      regWidth := width, regHeight := height, regChannels := channels, regColorspace := colorspace
      sink := sink, sinkAnswers := answers, flushes := flushes, pixels := pixels } : Encoder).Inv c := by
  cases h
  constructor <;> assumption

theorem Encoder.Inv.next {s : State} {e : Nat} {y : Encoder} (h : x.Inv Config.params) (hnext : x.Next s e y) :
    y.Inv Config.params := by
  cases hnext with
  | stay => exact h
  | turn a => exact h.act a s.draws
  | start => exact x.inv_jobStart Config.params s.draws
  | writeWidth v => exact h.withHostFields v _ _ _ x.sink x.sinkAnswers x.flushes x.pixels
  | writeHeight v => exact h.withHostFields _ v _ _ x.sink x.sinkAnswers x.flushes x.pixels
  | writeFormat v => exact h.withHostFields _ _ _ _ x.sink x.sinkAnswers x.flushes x.pixels
  | connectSink answers =>
    exact h.withHostFields x.regWidth x.regHeight x.regChannels x.regColorspace [] answers 0 x.pixels
  | connectPixels bytes =>
    exact h.withHostFields x.regWidth x.regHeight x.regChannels x.regColorspace x.sink x.sinkAnswers x.flushes bytes

end

/-! ### The block -/

/-- Settles O60: every engine after a step is made from one before it, by a turn, a START or another move of the
host. -/
theorem stepKeepsTheInvariant : Obligations.StepKeepsTheInvariant := by
  intro s t h hstep
  obtain ⟨hlenc, hldec, -, -⟩ := enginesAreIsolated.1 s t hstep
  refine ⟨fun y hy => ?encoder, fun y hy => ?decoder⟩
  case encoder =>
    obtain ⟨e, hlt, rfl⟩ := List.mem_iff_getElem.mp hy
    have hx : s.enc[e]? = some s.enc[e] := List.getElem?_eq_getElem (hlenc ▸ hlt)
    obtain ⟨y, hy, hnext⟩ := Encoder.next_of_step hstep hx
    obtain rfl : t.enc[e] = y := Option.some.inj ((List.getElem?_eq_getElem hlt).symm.trans hy)
    exact (h.enc _ (List.getElem_mem _)).next hnext
  case decoder =>
    obtain ⟨d, hlt, rfl⟩ := List.mem_iff_getElem.mp hy
    have hx : s.dec[d]? = some s.dec[d] := List.getElem?_eq_getElem (hldec ▸ hlt)
    obtain ⟨y, hy, hnext⟩ := Decoder.next_of_step hstep hx
    obtain rfl : t.dec[d] = y := Option.some.inj ((List.getElem?_eq_getElem hlt).symm.trans hy)
    exact (h.dec _ (List.getElem_mem _)).next hnext

/-- Settles O59: every engine is as after power-on reset, IDLE with empty bytes and zero counts. -/
theorem resetMeetsTheInvariant : Obligations.ResetMeetsTheInvariant := by
  intro nEnc nDec
  refine ⟨fun x hx => ?encoder, fun x hx => ?decoder⟩
  case encoder =>
    rw [List.eq_of_mem_replicate hx]
    constructor <;> simp [Encoder.reset, Encoder.busy]
  case decoder =>
    rw [List.eq_of_mem_replicate hx]
    constructor <;> simp [Decoder.reset, Decoder.inImage]

/-! ### Progress (R166, R187) -/

/-- Bytes that are held can move: into the FIFO where it has room, else to the sink. -/
theorem Encoder.exists_enabled_of_bytes {c : Params} {x : Encoder} (hbusy : x.busy = true)
    (hbytes : x.fifo ≠ [] ∨ x.q ≠ []) : ∃ a, x.enabled c a = true := by
  by_cases hfifo : x.fifo = []
  · have hq : x.q ≠ [] := hbytes.resolve_left (not_not.mpr hfifo)
    rcases Nat.eq_zero_or_pos c.outBuf with hzero | hpos
    · exact ⟨.drain, enabled_drain_iff.mpr ⟨hbusy, .inr ⟨hzero, hq⟩⟩⟩
    · exact ⟨.serialize, enabled_serialize_iff.mpr ⟨hbusy, hpos, hq, by simpa [hfifo] using hpos⟩⟩
  · exact ⟨.drain, enabled_drain_iff.mpr ⟨hbusy, .inl hfifo⟩⟩

/-- Settles O47: bytes can move, and without bytes each state has its own action. -/
theorem busyEncodersCanMove : Obligations.BusyEncodersCanMove := by
  intro c x h hbusy
  by_cases hbytes : x.fifo ≠ [] ∨ x.q ≠ []
  · exact Encoder.exists_enabled_of_bytes hbusy hbytes
  · obtain ⟨hfifo, hq⟩ : x.fifo = [] ∧ x.q = [] := by simpa using hbytes
    cases hst : x.estate with
    | ePix =>
      by_cases hall : x.i = x.N
      · exact ⟨.endPixels, Encoder.enabled_endPixels_iff.mpr ⟨hst, hq, hall⟩⟩
      · exact ⟨.select, Encoder.enabled_select_iff.mpr ⟨hst, hq, BitVec.lt_of_le_ne h.count_le hall⟩⟩
    | eTrl => exact ⟨.toFlush, Encoder.enabled_toFlush_iff.mpr ⟨hst, hq, hfifo⟩⟩
    | eFlush => exact ⟨.flush, Encoder.enabled_flush_iff.mpr hst⟩
    | idle | done | err => simp [Encoder.busy, hst] at hbusy

end Sys2Proof.Machine
end

section
/-! PROOFS. What an opcode changes and leaves unchanged, and a RUN with its repetitions (41_decoder.md R136-R146). -/

namespace Sys2Proof.Machine

/-! ### Where an opcode stops, and its frame (R136, R137, R243; log 20) -/

/-- Settles O21: an opcode's decoder executes it, and without one there is nothing to execute it. -/
theorem opcodesStopOnlyWithoutADecoder : Obligations.OpcodesStopOnlyWithoutADecoder := by
  intro i s
  rcases Nat.lt_or_ge s.cur s.dec.length with hlt | hge
  · have hexec := exec_of_decoder i (List.getElem?_eq_getElem hlt)
    rw [hexec]
    exact ⟨iff_of_true hlt ⟨_, rfl⟩, iff_of_false (Nat.not_le.mpr hlt) nofun⟩
  · rw [exec_of_no_decoder i (List.getElem?_eq_none hge)]
    exact ⟨iff_of_false (Nat.not_lt.mpr hge) nofun, iff_of_true hge rfl⟩

/-- Settles O20: the decoder afterwards is `execute` of the one before, which writes five registers and one slot. -/
theorem opcodesChangeNothingElse : Obligations.OpcodesChangeNothingElse := by
  intro i s t h
  cases hx : s.dec[s.cur]? with
  | none =>
    rw [exec_of_no_decoder i hx] at h
    cases h
  | some x =>
    rw [exec_of_decoder i hx] at h
    cases h
    refine ⟨rfl, rfl, rfl, rfl, rfl, List.length_set, fun d hd => s.putDec_of_ne _ hd.symm, x, x.execute i, rfl,
      State.putDec_self hx _, rfl, rfl, rfl, rfl, rfl, rfl, rfl, rfl, rfl, rfl, rfl, rfl, rfl, rfl, rfl, rfl, rfl, rfl,
      rfl, rfl, rfl, rfl, cacheRead_cacheWrite_self .., fun slot hslot => cacheRead_cacheWrite_of_ne _ _ hslot.symm,
      _, rfl, rfl, fun hOCH => ?_, fun hOCH hSCH => ?_, fun hOCH hSCH => ?_⟩
    · rw [hOCH, outBeat_three]
      rfl
    · rw [hOCH, hSCH, outBeat_four_four]
      rfl
    · rw [hOCH, hSCH, outBeat_four_three]
      rfl

/-! ### The repetitions of a run (R145, R146) -/

/-- The decoder after `k` pixels `p` of the `reps` that an opcode stands for. -/
def Decoder.repeated (p : Pixel) (reps k : Nat) (x : Decoder) : Decoder :=
  { x with
    cache := cacheWrite x.cache (hashOf p) p
    pixelSink := x.pixelSink ++ List.replicate k (outBeat x.OCH x.SCH p)
    prev := p
    i := x.i + BitVec.ofNat 64 k
    rrem := if x.i + BitVec.ofNat 64 k = x.N then 0 else BitVec.ofNat 6 (reps - k)
    dstate := if x.i + BitVec.ofNat 64 k = x.N then .dTrl else if k < reps then .dRun else .dOp }

section

variable {c : Params} {ch : ReadAhead} {x : Decoder} {p : Pixel} {reps k : Nat}

/-- A count of repetitions fits `rrem` (R24). -/
theorem reps_pos_iff (h : reps ≤ 62) : 0 < BitVec.ofNat 6 (reps - k) ↔ k < reps := by
  have hzero : (0 : BitVec 6).toNat = 0 := rfl
  rw [BitVec.lt_def, hzero, BitVec.toNat_ofNat]
  omega

theorem reps_pred (h : k < reps) : BitVec.ofNat 6 (reps - k) - 1 = BitVec.ofNat 6 (reps - (k + 1)) := by
  rw [show reps - k = reps - (k + 1) + 1 by omega, BitVec.ofNat_add]
  exact BitVec.add_sub_cancel ..

theorem Decoder.afterPixel_eq_repeated (h : reps ≤ 62) :
    x.afterPixel p (BitVec.ofNat 6 (reps - 1)) = x.repeated p reps 1 := by
  rw [afterPixel, if_congr (reps_pos_iff h) rfl rfl]
  rfl

theorem add_ofNat_ne_of_lt {i N : Word64} {k : Nat} (h : i.toNat + k < N.toNat) : i + BitVec.ofNat 64 k ≠ N := by
  intro heq
  have hlt := N.isLt
  rw [← heq, BitVec.toNat_add, BitVec.toNat_ofNat] at h
  omega

/-- One repetition more. -/
theorem Decoder.turn_repeated (fr : Nat) (hreps : reps ≤ 62) (hk : k < reps) (hleft : x.i.toNat + k < x.N.toNat) :
    (x.repeated p reps k).turn c ch fr = x.repeated p reps (k + 1) := by
  have hne := add_ofNat_ne_of_lt hleft
  have hst : (x.repeated p reps k).dstate = .dRun := (if_neg hne).trans (if_pos hk)
  have hrrem : (x.repeated p reps k).rrem = BitVec.ofNat 6 (reps - k) := if_neg hne
  have hi : (x.repeated p reps k).i + 1 = x.i + BitVec.ofNat 64 (k + 1) := by
    rw [BitVec.ofNat_add, ← BitVec.add_assoc]
    rfl
  rw [turn_of_dRun c ch fr hst, hrrem, reps_pred hk, afterPixel, hi, if_congr (reps_pos_iff hreps) rfl rfl]
  simp [repeated, cacheWrite_idem, List.replicate_succ']

/-- The turns that produce the repetitions. -/
theorem Decoder.turns_repeated (fr m : Nat) (hreps : reps ≤ 62) (hm : m < reps) (hleft : x.i.toNat + m < x.N.toNat) :
    Decoder.turns c ch m fr (x.repeated p reps 1) = x.repeated p reps (m + 1) := by
  induction m with
  | zero => rfl
  | succ m ih =>
    rw [turns_succ_last, ih (Nat.lt_of_succ_lt hm) (by omega), turn_repeated _ hreps hm hleft]

end

/-! ### A RUN as a whole (R145, R146) -/

theorem runByte_eq : ∀ n : Fin 62, BitVec.ofNat 8 (0xC0 + n) = 0b11#2 ++ BitVec.ofNat 6 n := by decide

/-- The byte of a RUN is one opcode and decodes to its count (R93). -/
theorem runByte_of_count {n : Nat} (hpos : 1 ≤ n) (hle : n ≤ 62) :
    len (BitVec.ofNat 8 (0xC0 + (n - 1))) = 1 ∧ decodeFields (BitVec.ofNat 8 (0xC0 + (n - 1))) [] = .run n := by
  have hbyte := runByte_eq ⟨n - 1, by omega⟩
  have hvalue : (BitVec.ofNat 6 (n - 1)).toNat = n - 1 := by
    rw [BitVec.toNat_ofNat]
    omega
  have hle61 : (BitVec.ofNat 6 (n - 1)).toNat ≤ 61 := by omega
  dsimp only at hbyte
  rw [hbyte, len, opcodeOf_runByte _ hle61, decodeFields_runByte hle61, hvalue, Nat.sub_add_cancel hpos]
  exact ⟨rfl, rfl⟩

/-- Settles O19: the turn that reads the byte produces the first pixel, and each turn after it one more. -/
theorem runProducesItsCountOrWhatIsLeft : Obligations.RunProducesItsCountOrWhatIsLeft := by
  intro s d x ch n k rest ag h hop hi hpos hle hs hk ha
  obtain ⟨hlen, hrun⟩ := runByte_of_count hpos hle
  have hleft : x.i.toNat < x.N.toNat := hi
  obtain ⟨m, rfl⟩ : ∃ m, k = m + 1 := ⟨k - 1, by omega⟩
  let y := x.takeLeading (BitVec.ofNat 8 (0xC0 + (n - 1))) rest
  have hturns : Decoder.turns Config.params ch (m + 1) s.draws x = y.repeated x.prev n (m + 1) := by
    have hfirst : x.turn Config.params ch s.draws = y.repeated x.prev n 1 := by
      rw [Decoder.turn_of_dOp hop hs, if_pos hlen, hrun, ← Decoder.afterPixel_eq_repeated hle]
      rfl
    have hmore : y.i.toNat + m < y.N.toNat := by
      have hm : x.i.toNat + m < x.N.toNat := by omega
      exact hm
    rw [Decoder.turns, hfirst, Decoder.turns_repeated _ _ hle (by omega) hmore]
  have hN := x.N.isLt
  have hcount : (x.i + BitVec.ofNat 64 (m + 1)).toNat = x.i.toNat + (m + 1) := by
    rw [BitVec.toNat_add, BitVec.toNat_ofNat]
    omega
  have hlast : x.i + BitVec.ofNat 64 (m + 1) = x.N ↔ x.i.toNat + (m + 1) = x.N.toNat := by
    rw [← BitVec.toNat_inj, hcount]
  have hsteps := runSteps_of_decoder_turns (m + 1) h ha
  rw [hturns] at hsteps
  refine ⟨_, _, hsteps, State.putDec_self h _, rfl, rfl, hcount, rfl, rfl, rfl, rfl, ?rrem, ?dstate⟩
  case rrem =>
    have hrrem : (y.repeated x.prev n (m + 1)).rrem =
        if x.i.toNat + (m + 1) = x.N.toNat then 0 else BitVec.ofNat 6 (n - (m + 1)) := if_congr hlast rfl rfl
    rw [hrrem]
    split
    · rfl
    · rw [show n - (m + 1) = 0 by omega]
      rfl
  case dstate =>
    have hst : (y.repeated x.prev n (m + 1)).dstate =
        if x.i.toNat + (m + 1) = x.N.toNat then .dTrl else if m + 1 < n then .dRun else .dOp := if_congr hlast rfl rfl
    rw [hst]
    split
    · rfl
    · rw [if_neg (by omega)]

end Sys2Proof.Machine
end

section
/-! PROOFS. The decoder's header as a whole (30_encoding.md R85; 41_decoder.md R127-R135, R155): the bytes of a field,
the turn that completes it, and the 14 turns of a header. -/

namespace Sys2Proof.Machine

/-! ### The byte source of the reference (R155) -/

/-- What stands next at the source is no byte but `End` or `Error`, which end the job with `e`. -/
def SourceFails (ended : JobError) (src : List SourceItem) (e : JobError) : Prop :=
  src = [] ∧ e = ended ∨ ∃ rest, src = .error :: rest ∧ e = .ioSource

section

variable {ended e : JobError} {n : Nat} {src rest : List SourceItem} {b : Byte} {bs : List Byte}

theorem nextByte_ok (h : nextByte ended src = .ok (b, rest)) : src = .byte b :: rest := by
  unfold nextByte at h
  split at h <;> cases h
  rfl

theorem nextByte_error (h : nextByte ended src = .error e) : SourceFails ended src e := by
  unfold nextByte at h
  split at h <;> cases h
  · exact .inl ⟨rfl, rfl⟩
  · exact .inr ⟨_, rfl, rfl⟩

theorem nextBytes_ok (h : nextBytes ended n src = .ok (bs, rest)) :
    bs.length = n ∧ src = bs.map SourceItem.byte ++ rest := by
  induction n generalizing src bs with
  | zero =>
    cases h
    exact ⟨rfl, rfl⟩
  | succ n ih =>
    unfold nextBytes at h
    split at h
    case h_1 => cases h
    case h_2 b src' hb =>
      split at h <;> cases h
      case h_2 bs' hbs =>
        obtain ⟨rfl, rfl⟩ := ih hbs
        exact ⟨rfl, nextByte_ok hb⟩

theorem nextBytes_error (h : nextBytes ended n src = .error e) :
    ∃ (bs : List Byte) (src' : List SourceItem),
      bs.length < n ∧ src = bs.map SourceItem.byte ++ src' ∧ SourceFails ended src' e := by
  induction n generalizing src with
  | zero => cases h
  | succ n ih =>
    unfold nextBytes at h
    split at h
    case h_1 e' he =>
      cases h
      exact ⟨[], src, Nat.zero_lt_succ n, rfl, nextByte_error he⟩
    case h_2 b src' hb =>
      split at h <;> cases h
      case h_1 he =>
        obtain ⟨bs, src'', hlt, rfl, hfails⟩ := ih he
        exact ⟨b :: bs, src'', Nat.succ_lt_succ hlt, nextByte_ok hb, hfails⟩

theorem nextBytes_map (ended : JobError) (bs : List Byte) (rest : List SourceItem) :
    nextBytes ended bs.length (bs.map .byte ++ rest) = .ok (bs, rest) := by
  induction bs with
  | nil => rfl
  | cons b bs ih =>
    have hb : nextByte ended (.byte b :: (bs.map .byte ++ rest)) = .ok (b, bs.map .byte ++ rest) := rfl
    rw [List.length_cons, List.map_cons, List.cons_append, nextBytes, hb]
    dsimp only
    rw [ih]

variable {good : List Byte → Bool} {bad : JobError}

theorem readField_ok (h : readField ended n good bad src = .ok (bs, rest)) :
    bs.length = n ∧ src = bs.map SourceItem.byte ++ rest ∧ good bs = true := by
  unfold readField at h
  split at h
  case h_1 => cases h
  case h_2 bs' rest' hbs =>
    split at h <;> cases h
    case isTrue hgood =>
      obtain ⟨hlen, hsrc⟩ := nextBytes_ok hbs
      exact ⟨hlen, hsrc, hgood⟩

theorem readField_error (h : readField ended n good bad src = .error e) :
    (∃ (bs : List Byte) (src' : List SourceItem),
      bs.length < n ∧ src = bs.map SourceItem.byte ++ src' ∧ SourceFails ended src' e) ∨
    (∃ (bs : List Byte) (rest : List SourceItem),
      bs.length = n ∧ src = bs.map SourceItem.byte ++ rest ∧ good bs = false ∧ e = bad) := by
  unfold readField at h
  split at h
  case h_1 e' he =>
    cases h
    exact .inl (nextBytes_error he)
  case h_2 bs rest hbs =>
    split at h <;> cases h
    case isFalse hbad =>
      obtain ⟨hlen, hsrc⟩ := nextBytes_ok hbs
      exact .inr ⟨bs, rest, hlen, hsrc, Bool.eq_false_iff.mpr hbad, rfl⟩

theorem readField_map {bs : List Byte} (hgood : good bs = true) (ended bad : JobError) (rest : List SourceItem) :
    readField ended bs.length good bad (bs.map .byte ++ rest) = .ok (bs, rest) := by
  rw [readField, nextBytes_map]
  exact if_pos hgood

end

/-! ### Where turns lead, whatever the free values (R155) -/

/-- Some number of turns makes `z` of the decoder. -/
def Decoder.Reaches (c : Params) (ch : ReadAhead) (x z : Decoder) : Prop := ∃ n, ∀ fr, Decoder.turns c ch n fr x = z

/-- In ERR with the record of `e` (R231). -/
def Decoder.FailedWith (e : JobError) (z : Decoder) : Prop :=
  z.dstate = .err ∧ z.errKind = e.kindCode ∧ z.errDetail = e.detailCode

/-- Some number of turns ends the job with error `e`. -/
def Decoder.Fails (c : Params) (ch : ReadAhead) (e : JobError) (x : Decoder) : Prop :=
  ∃ n, ∀ fr, (Decoder.turns c ch n fr x).FailedWith e

section

variable {c : Params} {ch : ReadAhead} {x y z : Decoder} {e ended : JobError}

theorem Decoder.Reaches.refl : x.Reaches c ch x := ⟨0, fun _ => rfl⟩

theorem Decoder.Reaches.trans (h : x.Reaches c ch y) (h' : y.Reaches c ch z) : x.Reaches c ch z := by
  obtain ⟨m, hm⟩ := h
  obtain ⟨n, hn⟩ := h'
  exact ⟨m + n, fun fr => by rw [turns_add, hm, hn]⟩

theorem Decoder.Reaches.fails (h : x.Reaches c ch y) (h' : y.Fails c ch e) : x.Fails c ch e := by
  obtain ⟨m, hm⟩ := h
  obtain ⟨n, hn⟩ := h'
  exact ⟨m + n, fun fr => by rw [turns_add, hm]; exact hn _⟩

theorem Decoder.turn_of_fails {fr : Nat} (hended : x.dstate.endError = some ended)
    (hfails : SourceFails ended x.source e) : x.turn c ch fr = x.raise e fr := by
  rcases hfails with ⟨hs, rfl⟩ | ⟨rest, hs, rfl⟩
  · exact turn_of_ended hended hs
  · exact turn_of_source_error hended hs

theorem Decoder.fails_of_source (hended : x.dstate.endError = some ended) (hfails : SourceFails ended x.source e) :
    x.Fails c ch e :=
  ⟨1, fun fr => by rw [turns_one, turn_of_fails hended hfails]; exact ⟨rfl, rfl, rfl⟩⟩

end

/-- What the reference computes is what the decoder's turns do: its result has `Q`, or its error ends the job. -/
def Decoder.Follows {α : Type} (c : Params) (ch : ReadAhead) (x : Decoder) (r : Except JobError α) (Q : α → Prop) :
    Prop :=
  match r with
  | .ok a => Q a
  | .error e => x.Fails c ch e

/-! ### The bytes of a header field (R127) -/

/-- Header bytes that complete no field are shifted into the assembly register. -/
def Decoder.takeHeaderBytes (bs : List Byte) (rest : List SourceItem) (x : Decoder) : Decoder :=
  { x with
    source := rest
    inCount := x.inCount + BitVec.ofNat 64 bs.length
    hk := x.hk + bs.length
    hbuf := bs.foldl shiftIn x.hbuf }

/-- A field is complete after `k` header bytes (R127). -/
def EndsField (k : Nat) : Prop := k = 4 ∨ k = 8 ∨ k = 12 ∨ k = 13 ∨ k = 14

section

variable {c : Params} {ch : ReadAhead} {x : Decoder} {b : Byte} {bs : List Byte} {rest : List SourceItem}

theorem Decoder.takeHeaderBytes_append :
    (x.takeHeaderBytes bs (.byte b :: rest)).takeHeaderByte b rest = x.takeHeaderBytes (bs ++ [b]) rest := by
  simp [takeHeaderBytes, takeHeaderByte, BitVec.ofNat_add, BitVec.add_assoc, Nat.add_assoc]

theorem Decoder.headerField_of_open {fr : Nat} (h : ¬EndsField x.hk) : x.headerField c b fr = x := by
  simp only [EndsField, not_or] at h
  obtain ⟨h4, h8, h12, h13, h14⟩ := h
  exact headerField_of_incomplete c b fr h4 h8 h12 h13 h14

theorem Decoder.turns_headerBytes (fr : Nat) (hst : x.dstate = .dHdr) (hs : x.source = bs.map .byte ++ rest)
    (hopen : ∀ j, 1 ≤ j → j ≤ bs.length → ¬EndsField (x.hk + j)) :
    Decoder.turns c ch bs.length fr x = x.takeHeaderBytes bs rest := by
  induction bs using List.reverseRecOn generalizing rest with
  | nil =>
    have hs' : rest = x.source := hs.symm
    simp [turns, takeHeaderBytes, hs']
  | append_singleton bs b ih =>
    rw [List.length_append, List.length_singleton] at hopen ⊢
    have hs' : x.source = bs.map .byte ++ .byte b :: rest := by simpa using hs
    have hlast := hopen (bs.length + 1) (Nat.le_add_left ..) le_rfl
    rw [turns_succ_last, ih hs' fun j h1 hj => hopen j h1 (Nat.le_succ_of_le hj),
      turn_of_dHdr (x := x.takeHeaderBytes bs (.byte b :: rest)) hst rfl, takeHeaderBytes_append, headerField_of_open]
    simpa [takeHeaderBytes] using hlast

/-- The turns that read a whole field. -/
theorem Decoder.turns_field (fr : Nat) (hst : x.dstate = .dHdr) (hs : x.source = (bs ++ [b]).map .byte ++ rest)
    (hopen : ∀ j, 1 ≤ j → j ≤ bs.length → ¬EndsField (x.hk + j)) :
    Decoder.turns c ch (bs.length + 1) fr x =
      (x.takeHeaderBytes (bs ++ [b]) rest).headerField c b (fr + bs.length) := by
  have hs' : x.source = bs.map .byte ++ .byte b :: rest := by simpa using hs
  rw [turns_succ_last, turns_headerBytes fr hst hs' hopen,
    turn_of_dHdr (x := x.takeHeaderBytes bs (.byte b :: rest)) hst rfl, takeHeaderBytes_append]

/-- The bytes of a field end, or fail, before its last one. -/
theorem Decoder.fails_in_field {e : JobError} (hst : x.dstate = .dHdr) (hs : x.source = bs.map .byte ++ rest)
    (hopen : ∀ j, 1 ≤ j → j ≤ bs.length → ¬EndsField (x.hk + j)) (hfails : SourceFails .truncatedHeader rest e) :
    x.Fails c ch e := by
  have hread : x.Reaches c ch (x.takeHeaderBytes bs rest) := ⟨bs.length, fun fr => turns_headerBytes fr hst hs hopen⟩
  exact hread.fails (fails_of_source (by rw [takeHeaderBytes, hst]; rfl) hfails)

end

/-! ### A field with its check (R127-R135) -/

/-- At the decoder's place in the header stands a field of `n` bytes, which is checked as `good` says and then makes
`next` of the decoder. -/
structure Decoder.AtField (c : Params) (n : Nat) (good : List Byte → Bool) (bad : JobError)
    (next : List Byte → List SourceItem → Decoder) (x : Decoder) : Prop where
  state : x.dstate = .dHdr
  pos : 0 < n
  unfinished : ∀ j, 1 ≤ j → j < n → ¬EndsField (x.hk + j)
  checked : ∀ bs b rest fr, (bs ++ [b]).length = n → ∃ y : Decoder,
    (x.takeHeaderBytes (bs ++ [b]) rest).headerField c b fr =
      if good (bs ++ [b]) then next (bs ++ [b]) rest else y.raise bad fr

section

variable {c : Params} {ch : ReadAhead} {x : Decoder} {n : Nat} {good : List Byte → Bool} {bad e : JobError}
  {next : List Byte → List SourceItem → Decoder} {bs : List Byte} {rest : List SourceItem}

/-- The turns of a field are those of its bytes, and the last one checks it. -/
theorem Decoder.AtField.turns (h : x.AtField c n good bad next) (hlen : bs.length = n)
    (hs : x.source = bs.map SourceItem.byte ++ rest) (fr : Nat) :
    ∃ init b, bs = init ++ [b] ∧
      Decoder.turns c ch n fr x = (x.takeHeaderBytes bs rest).headerField c b (fr + init.length) := by
  rcases List.eq_nil_or_concat bs with rfl | ⟨init, b, rfl⟩
  · exact absurd hlen.symm (Nat.ne_of_gt h.pos)
  · rw [List.concat_eq_append, List.length_append, List.length_singleton] at hlen
    subst hlen
    rw [List.concat_eq_append] at hs ⊢
    exact ⟨init, b, rfl, turns_field fr h.state hs fun j h1 hj => h.unfinished j h1 (Nat.lt_succ_of_le hj)⟩

/-- A field of the reference and the turns that read it, after `m` turns that have led to the field. -/
theorem Decoder.AtField.follows {α : Type} {y : Decoder} {m : Nat} {src : List SourceItem} {Q : α → Prop}
    {k : List Byte → List SourceItem → Except JobError α} (h : y.AtField c n good bad next)
    (hy : ∀ fr, Decoder.turns c ch m fr x = y) (hs : y.source = src)
    (hk : ∀ bs rest, bs.length = n → src.length = n + rest.length →
      (∀ fr, Decoder.turns c ch (m + n) fr x = next bs rest) → x.Follows c ch (k bs rest) Q) :
    x.Follows c ch
      (match readField .truncatedHeader n good bad src with
        | .error e => .error e
        | .ok (bs, rest) => k bs rest) Q := by
  have hreach : x.Reaches c ch y := ⟨m, hy⟩
  subst hs
  cases hr : readField .truncatedHeader n good bad y.source with
  | ok p =>
    obtain ⟨bs, rest⟩ := p
    obtain ⟨hlen, hs, hgood⟩ := readField_ok hr
    refine hk bs rest hlen (by rw [hs, List.length_append, List.length_map, hlen]) fun fr => ?_
    obtain ⟨init, b, rfl, hturns⟩ := h.turns (ch := ch) hlen hs (fr + m)
    obtain ⟨z, hchecked⟩ := h.checked init b rest (fr + m + init.length) hlen
    rw [turns_add, hy, hturns, hchecked, if_pos hgood]
  | error e =>
    refine hreach.fails ?_
    rcases readField_error hr with ⟨bs, src, hlt, hs, hfails⟩ | ⟨bs, rest, hlen, hs, hbad, rfl⟩
    · exact fails_in_field h.state hs (fun j h1 hj => h.unfinished j h1 (Nat.lt_of_le_of_lt hj hlt)) hfails
    · refine ⟨n, fun fr => ?_⟩
      obtain ⟨init, b, rfl, hturns⟩ := h.turns (ch := ch) hlen hs fr
      obtain ⟨z, hchecked⟩ := h.checked init b rest (fr + init.length) hlen
      rw [hturns, hchecked, if_neg (Bool.eq_false_iff.mp hbad)]
      exact ⟨rfl, rfl, rfl⟩

end

/-! ### The five fields (R128-R135) -/

/-- Four header bytes are a big-endian word, whatever stood in the register (R66, R127). -/
theorem foldl_shiftIn_eq_be32 (v : Word32) {bs : List Byte} (h : bs.length = 4) : bs.foldl shiftIn v = be32 bs := by
  obtain ⟨w, rest, rfl⟩ := List.exists_cons_of_length_eq_add_one h
  obtain ⟨a, b, d, rfl⟩ := List.length_eq_three.mp (Nat.succ.inj h)
  have hword := shiftIn_word v (be32 [w, a, b, d])
  have h0 : (be32 [w, a, b, d]).extractLsb' 0 8 = d := BitVec.extractLsb'_append_eq_right
  have h8 : (be32 [w, a, b, d]).extractLsb' 8 8 = b := by
    simp only [be32, List.getD_cons_zero, List.getD_cons_succ]
    rw [BitVec.extractLsb'_append_eq_of_le le_rfl, BitVec.extractLsb'_append_eq_right]
  have h16 : (be32 [w, a, b, d]).extractLsb' 16 8 = a := by
    simp only [be32, List.getD_cons_zero, List.getD_cons_succ]
    rw [BitVec.extractLsb'_append_eq_of_le (by decide), BitVec.extractLsb'_append_eq_of_le le_rfl,
      BitVec.extractLsb'_append_eq_right]
  have h24 : (be32 [w, a, b, d]).extractLsb' 24 8 = w := by
    simp only [be32, List.getD_cons_zero, List.getD_cons_succ]
    rw [BitVec.extractLsb'_append_eq_of_le (by decide), BitVec.extractLsb'_append_eq_of_le (by decide),
      BitVec.extractLsb'_append_eq_left]
  rw [h0, h8, h16, h24] at hword
  exact hword

section

variable {c : Params} {x : Decoder} {bs : List Byte}

/-- The assembly register after a field of four bytes. -/
theorem Decoder.takeHeaderBytes_word (h : bs.length = 4) (rest : List SourceItem) :
    (x.takeHeaderBytes bs rest).hbuf = be32 bs ∧ (x.takeHeaderBytes bs rest).hk = x.hk + 4 :=
  ⟨foldl_shiftIn_eq_be32 x.hbuf h, congrArg (x.hk + ·) h⟩

theorem Decoder.atField_magic (hst : x.dstate = .dHdr) (hk : x.hk = 0) :
    x.AtField c 4 (fun m => decide (be32 m = magicWord)) .formatMagic
      fun bs rest => { x.takeHeaderBytes bs rest with hbuf := 0 } where
  state := hst
  pos := by decide
  unfinished j _ _ := by unfold EndsField; omega
  checked bs b rest fr hlen := by
    obtain ⟨hbuf, hend⟩ := takeHeaderBytes_word (x := x) hlen rest
    rw [headerField_of_magic _ _ _ (by rw [hend, hk]), checkMagic, hbuf]
    exact ⟨_, if_congr decide_eq_true_iff.symm rfl rfl⟩

theorem Decoder.atField_width (hst : x.dstate = .dHdr) (hk : x.hk = 4) :
    x.AtField c 4 (fun w => dimOk c (be32 w)) .formatWidth
      fun bs rest => { x.takeHeaderBytes bs rest with W := be32 bs, hbuf := 0 } where
  state := hst
  pos := by decide
  unfinished j _ _ := by unfold EndsField; omega
  checked bs b rest fr hlen := by
    obtain ⟨hbuf, hend⟩ := takeHeaderBytes_word (x := x) hlen rest
    rw [headerField_of_width _ _ _ (by rw [hend, hk]), checkWidth, hbuf]
    exact ⟨_, rfl⟩

theorem Decoder.atField_height (hst : x.dstate = .dHdr) (hk : x.hk = 8) :
    x.AtField c 4 (fun h => dimOk c (be32 h)) .formatHeight
      fun bs rest => { x.takeHeaderBytes bs rest with H := be32 bs, hbuf := 0 } where
  state := hst
  pos := by decide
  unfinished j _ _ := by unfold EndsField; omega
  checked bs b rest fr hlen := by
    obtain ⟨hbuf, hend⟩ := takeHeaderBytes_word (x := x) hlen rest
    rw [headerField_of_height _ _ _ (by rw [hend, hk]), checkHeight, hbuf]
    exact ⟨_, rfl⟩

theorem Decoder.atField_channels (hst : x.dstate = .dHdr) (hk : x.hk = 12) :
    x.AtField c 1 (fun v => channelsOk (v.getD 0 0)) .formatChannels
      fun bs rest => { x.takeHeaderBytes bs rest with SCH := bs.getD 0 0 } where
  state := hst
  pos := by decide
  unfinished j _ _ := by omega
  checked bs b rest fr hlen := by
    obtain rfl : bs = [] := by simpa using hlen
    rw [headerField_of_channels _ _ _ (congrArg (· + 1) hk)]
    exact ⟨_, rfl⟩

theorem Decoder.atField_colorspace (hst : x.dstate = .dHdr) (hk : x.hk = 13) :
    x.AtField c 1 (fun v => colorspaceOk (v.getD 0 0)) .formatColorspace
      fun bs rest => { x.takeHeaderBytes bs rest with
        CS := bs.getD 0 0
        N := pixelCount x.W x.H
        OCH := outChannels x.REQ x.SCH
        dstate := .dOp } where
  state := hst
  pos := by decide
  unfinished j _ _ := by omega
  checked bs b rest fr hlen := by
    obtain rfl : bs = [] := by simpa using hlen
    rw [headerField_of_colorspace _ _ _ (congrArg (· + 1) hk)]
    exact ⟨_, rfl⟩

/-! ### The header (R85, R155) -/

/-- The decoder once the header `hd` has been read and has passed its checks (R135). -/
def Decoder.pastHeader (hd : Header) (rest : List SourceItem) (x : Decoder) : Decoder :=
  { x with
    source := rest
    inCount := x.inCount + 14
    hk := 14
    hbuf := shiftIn (shiftIn 0 hd.channels) hd.colorSpace
    W := hd.width
    H := hd.height
    SCH := hd.channels
    CS := hd.colorSpace
    N := pixelCount hd.width hd.height
    OCH := outChannels x.REQ hd.channels
    dstate := .dOp }

end

section

variable {c : Params} {x : Decoder} {ch : ReadAhead}

/-- The turns of a header follow the reference field by field. -/
theorem Decoder.follows_decodeHeader (hst : x.dstate = .dHdr) (hk : x.hk = 0) :
    x.Follows c ch (decodeHeader c x.source)
      fun (hd, rest) => x.source.length = 14 + rest.length ∧
        ∀ fr, Decoder.turns c ch 14 fr x = x.pastHeader hd rest := by
  refine AtField.follows (m := 0) (atField_magic hst hk) (fun _ => rfl) rfl fun m src1 hm s1 t1 => ?_
  have k1 : x.hk + m.length = 4 := by rw [hk, hm]
  refine AtField.follows (atField_width (by exact hst) (by exact k1)) t1 rfl fun w src2 hw s2 t2 => ?_
  have k2 : x.hk + m.length + w.length = 8 := by rw [k1, hw]
  refine AtField.follows (atField_height (by exact hst) (by exact k2)) t2 rfl fun h src3 hh s3 t3 => ?_
  have k3 : x.hk + m.length + w.length + h.length = 12 := by rw [k2, hh]
  refine AtField.follows (atField_channels (by exact hst) (by exact k3)) t3 rfl fun cb src4 hcb s4 t4 => ?_
  have k4 : x.hk + m.length + w.length + h.length + cb.length = 13 := by rw [k3, hcb]
  refine AtField.follows (atField_colorspace (by exact hst) (by exact k4)) t4 rfl fun csb src5 hcsb s5 t5 => ?_
  refine ⟨by omega, fun fr => ?_⟩
  obtain ⟨cbyte, rfl⟩ := List.length_eq_one_iff.mp hcb
  obtain ⟨csbyte, rfl⟩ := List.length_eq_one_iff.mp hcsb
  rw [t5]
  simp [pastHeader, takeHeaderBytes, hm, hw, hh, hk, BitVec.add_assoc]

/-- The bytes of a big-endian word (R66, R85). -/
def wordBytes (V : Word32) : List Byte :=
  [V.extractLsb' 24 8, V.extractLsb' 16 8, V.extractLsb' 8 8, V.extractLsb' 0 8]

theorem be32_wordBytes (V : Word32) : be32 (wordBytes V) = V :=
  (foldl_shiftIn_eq_be32 0 rfl).symm.trans (shiftIn_word 0 V)

/-- A legal header passes every check of the reference. -/
theorem decodeHeader_headerBytes {W H : Word32} {CH CS : Byte} (hW : dimOk c W = true) (hH : dimOk c H = true)
    (hCH : channelsOk CH = true) (hCS : colorspaceOk CS = true) (rest : List SourceItem) :
    decodeHeader c ((headerBytes W H CH CS).map .byte ++ rest) = .ok (⟨W, H, CH, CS⟩, rest) := by
  let src4 : List SourceItem := .byte CS :: rest
  let src3 : List SourceItem := .byte CH :: src4
  let src2 : List SourceItem := (wordBytes H).map .byte ++ src3
  let src1 : List SourceItem := (wordBytes W).map .byte ++ src2
  have hsrc : (headerBytes W H CH CS).map SourceItem.byte ++ rest =
      [(0x71 : Byte), 0x6F, 0x69, 0x66].map SourceItem.byte ++ src1 := rfl
  have hmagic : readField .truncatedHeader 4 (fun m => decide (be32 m = magicWord)) .formatMagic _ = _ :=
    readField_map (bs := [0x71, 0x6F, 0x69, 0x66]) (by decide) .truncatedHeader .formatMagic src1
  have hwidth : readField .truncatedHeader 4 (fun w => dimOk c (be32 w)) .formatWidth src1 = _ :=
    readField_map (bs := wordBytes W) (by rw [be32_wordBytes]; exact hW) .truncatedHeader .formatWidth src2
  have hheight : readField .truncatedHeader 4 (fun h => dimOk c (be32 h)) .formatHeight src2 = _ :=
    readField_map (bs := wordBytes H) (by rw [be32_wordBytes]; exact hH) .truncatedHeader .formatHeight src3
  have hchannels : readField .truncatedHeader 1 (fun v => channelsOk (v.getD 0 0)) .formatChannels src3 = _ :=
    readField_map (bs := [CH]) hCH .truncatedHeader .formatChannels src4
  have hcolorspace : readField .truncatedHeader 1 (fun v => colorspaceOk (v.getD 0 0)) .formatColorspace src4 = _ :=
    readField_map (bs := [CS]) hCS .truncatedHeader .formatColorspace rest
  rw [hsrc, decodeHeader, hmagic]
  dsimp only
  rw [hwidth]
  dsimp only
  rw [hheight]
  dsimp only
  rw [hchannels]
  dsimp only
  rw [hcolorspace]
  simp only [be32_wordBytes, List.getD_cons_zero]

end

/-- Settles O25: the reference accepts the header's bytes, and 14 turns are the turns of a header that it accepts. -/
theorem legalHeaderOpensTheOpcodeStream : Obligations.LegalHeaderOpensTheOpcodeStream := by
  intro s d x W H CH CS ch rest ag h hst hk hW hH hCH hCS hs ha
  have hfollows := Decoder.follows_decodeHeader (c := Config.params) (ch := ch) hst hk
  rw [hs, decodeHeader_headerBytes hW hH hCH hCS] at hfollows
  have hturns : Decoder.turns Config.params ch 14 s.draws x = x.pastHeader ⟨W, H, CH, CS⟩ rest := hfollows.2 s.draws
  have hsteps := runSteps_of_decoder_turns 14 h ha
  rw [hturns] at hsteps
  exact ⟨_, _, hsteps, State.putDec_self h _, rfl, rfl, rfl, rfl, rfl, rfl, rfl, pixelCount_toNat W H, rfl, rfl, rfl,
    rfl, rfl, rfl⟩

end Sys2Proof.Machine
end

section
/-! PROOFS. A decoder job as a whole (41_decoder.md R137-R156): the opcode stream and the trailer of the reference are
what the decoder's turns do. -/

namespace Sys2Proof.Machine

/-! ### One round of the pixel loop (R155) -/

theorem reconstruct_reps (prev : Pixel) (cache : Cache) (i : Instr) : (reconstruct prev cache i).2 = repeats i := by
  cases i <;> rfl

theorem repeats_of_wellFormed {i : Instr} (h : i.WellFormed) : 1 ≤ repeats i ∧ repeats i ≤ 62 := by
  cases i with
  | run count => simpa [Instr.WellFormed, Instr.wf, repeats] using h
  | rgb | rgba | index | diff | luma => exact ⟨le_rfl, Nat.le_of_ble_eq_true rfl⟩

theorem repeats_decodeFields (b : Byte) (args : List Byte) :
    1 ≤ repeats (decodeFields b args) ∧ repeats (decodeFields b args) ≤ 62 :=
  repeats_of_wellFormed (wellFormed_decodeFields b args)

section

variable {prev : Pixel} {cache : Cache} {left fuel : Nat} {src src1 src2 rest : List SourceItem} {b : Byte}
  {args : List Byte} {ps : List Pixel}

/-- One round that reads an opcode: it stands for `k` of the pixels left. -/
theorem decodeLoop_succ (hleft : left ≠ 0) (hb : nextByte .truncatedOpcode src = .ok (b, src1))
    (hargs : nextBytes .truncatedOpcode (len b - 1) src1 = .ok (args, src2)) :
    let p := (reconstruct prev cache (decodeFields b args)).1
    let k := min (repeats (decodeFields b args)) left
    decodeLoop (fuel + 1) left prev cache src =
      match decodeLoop fuel (left - k) p (cacheWrite cache (hashOf p) p) src2 with
      | .error e => .error e
      | .ok (ps, rest) => .ok (List.replicate k p ++ ps, rest) := by
  rw [decodeLoop, if_neg hleft, hb]
  dsimp only
  rw [hargs]
  dsimp only
  rw [reconstruct_reps] <;> rfl

/-- The loop produces the pixels that are left. -/
theorem decodeLoop_length (hfuel : left ≤ fuel) (h : decodeLoop fuel left prev cache src = .ok (ps, rest)) :
    ps.length = left := by
  induction fuel generalizing left prev cache src ps with
  | zero =>
    cases h
    exact (Nat.le_zero.mp hfuel).symm
  | succ fuel ih =>
    by_cases hleft : left = 0
    · rw [decodeLoop, if_pos hleft] at h
      cases h
      exact hleft.symm
    · cases hb : nextByte .truncatedOpcode src with
      | error e => rw [decodeLoop, if_neg hleft, hb] at h; cases h
      | ok p =>
        obtain ⟨b, src1⟩ := p
        cases hargs : nextBytes .truncatedOpcode (len b - 1) src1 with
        | error e =>
          rw [decodeLoop, if_neg hleft, hb] at h
          dsimp only at h
          rw [hargs] at h
          cases h
        | ok p =>
          obtain ⟨args, src2⟩ := p
          have hpos := (repeats_decodeFields b args).1
          rw [decodeLoop_succ hleft hb hargs] at h
          split at h <;> cases h
          case h_2 ps' _ hrest =>
            have hlen := ih (by omega) hrest
            rw [List.length_append, List.length_replicate, hlen]
            omega

end

/-! ### One opcode of the stream (R137-R146) -/

section

variable {c : Params} {ch : ReadAhead} {x : Decoder} {b : Byte} {args : List Byte} {rest : List SourceItem}

/-- An opcode's execution is its first pixel. -/
theorem Decoder.execute_eq_repeated (hr : x.rrem = 0) :
    x.execute (decodeFields b args) =
      x.repeated (reconstruct x.prev x.cache (decodeFields b args)).1 (repeats (decodeFields b args)) 1 := by
  have hle := (repeats_decodeFields b args).2
  have hreps : Instr.repsLeft (decodeFields b args) x.rrem = BitVec.ofNat 6 (repeats (decodeFields b args) - 1) := by
    cases decodeFields b args with
    | run => rfl
    | rgb | rgba | index | diff | luma => exact hr
  rw [execute, hreps, afterPixel_eq_repeated hle]

/-- The turns of an opcode: its bytes, then the repetitions. -/
theorem Decoder.reaches_repeated (hst : x.dstate = .dOp) (hr : x.rrem = 0) (hi : x.i.toNat < x.N.toNat)
    (hlen : args.length = len b - 1) (hs : x.source = (b :: args).map .byte ++ rest) :
    x.Reaches c ch ((x.fetched (b :: args) rest).repeated (reconstruct x.prev x.cache (decodeFields b args)).1
      (repeats (decodeFields b args)) (min (repeats (decodeFields b args)) (x.N.toNat - x.i.toNat))) := by
  obtain ⟨hpos, hle⟩ := repeats_decodeFields b args
  obtain ⟨m, hm⟩ : ∃ m, min (repeats (decodeFields b args)) (x.N.toNat - x.i.toNat) = m + 1 :=
    ⟨min (repeats (decodeFields b args)) (x.N.toNat - x.i.toNat) - 1, by omega⟩
  have hfetch : x.Reaches c ch ((x.fetched (b :: args) rest).execute (decodeFields b args)) :=
    ⟨(b :: args).length, fun fr => turns_fetched fr hst hlen hs⟩
  rw [execute_eq_repeated (x := x.fetched (b :: args) rest) hr] at hfetch
  have hmore : (x.fetched (b :: args) rest).i.toNat + m < (x.fetched (b :: args) rest).N.toNat := by
    have hsum : x.i.toNat + m < x.N.toNat := by omega
    exact hsum
  rw [hm]
  exact hfetch.trans ⟨m, fun fr => turns_repeated fr m hle (by omega) hmore⟩

/-- The bytes of an opcode end, or fail, before its last one. -/
theorem Decoder.fails_in_opcode {bs : List Byte} {src : List SourceItem} {e : JobError} (hst : x.dstate = .dOp)
    (hlt : bs.length < len b - 1) (hs : x.source = (b :: bs).map .byte ++ src)
    (hfails : SourceFails .truncatedOpcode src e) : x.Fails c ch e := by
  have hread : x.Reaches c ch (x.awaiting (b :: bs) src) :=
    ⟨bs.length + 1, fun fr => turns_awaiting fr hst (by omega) hs⟩
  exact hread.fails (fails_of_source rfl hfails)

end

/-! ### The opcode stream (R155) -/

/-- The decoder once the pixels `ps` of the stream have been produced from `bytes`; the last opcode was `op`, `arg`. -/
def Decoder.pastStream (ps : List Pixel) (bytes : List Byte) (rest : List SourceItem) (op : Byte) (arg : List Byte)
    (x : Decoder) : Decoder :=
  { x with
    source := rest
    inCount := x.inCount + BitVec.ofNat 64 bytes.length
    op := op
    arg := arg
    cache := ps.foldl (fun cache p => cacheWrite cache (hashOf p) p) x.cache
    pixelSink := x.pixelSink ++ beatsOf x.OCH x.SCH ps
    prev := ps.getLast?.getD x.prev
    i := x.i + BitVec.ofNat 64 ps.length
    rrem := 0
    dstate := .dTrl }

/-- A decoder between opcodes, or past the last pixel. -/
structure Decoder.BetweenOpcodes (x : Decoder) : Prop where
  no_run : x.rrem = 0
  count_le : x.i.toNat ≤ x.N.toNat
  state : x.dstate = if x.i.toNat = x.N.toNat then .dTrl else .dOp

section

variable {c : Params} {ch : ReadAhead} {x : Decoder} {b : Byte} {args : List Byte} {rest : List SourceItem}

/-- After all the pixels of an opcode, or all that are left. -/
theorem Decoder.betweenOpcodes_repeated {p : Pixel} {reps : Nat} (hle : reps ≤ 62) (hi : x.i.toNat ≤ x.N.toNat) :
    (x.repeated p reps (min reps (x.N.toNat - x.i.toNat))).BetweenOpcodes ∧
      (x.repeated p reps (min reps (x.N.toNat - x.i.toNat))).i.toNat =
        x.i.toNat + min reps (x.N.toNat - x.i.toNat) := by
  generalize hk : min reps (x.N.toNat - x.i.toNat) = k
  have hN := x.N.isLt
  have hcount : (x.i + BitVec.ofNat 64 k).toNat = x.i.toNat + k := by
    rw [BitVec.toNat_add, BitVec.toNat_ofNat]
    omega
  have hlast : x.i + BitVec.ofNat 64 k = x.N ↔ x.i.toNat + k = x.N.toNat := by
    rw [← BitVec.toNat_inj, hcount]
  refine ⟨⟨?run, ?count, ?state⟩, hcount⟩
  case run =>
    have hr : (x.repeated p reps k).rrem = if x.i.toNat + k = x.N.toNat then 0 else BitVec.ofNat 6 (reps - k) :=
      if_congr hlast rfl rfl
    rw [hr]
    split
    · rfl
    · rw [show reps - k = 0 by omega]
      rfl
  case count =>
    have hle' : (x.i + BitVec.ofNat 64 k).toNat ≤ x.N.toNat := by omega
    exact hle'
  case state =>
    have hst : (x.repeated p reps k).dstate =
        if x.i.toNat + k = x.N.toNat then .dTrl else if k < reps then .dRun else .dOp := if_congr hlast rfl rfl
    have hi' : (x.repeated p reps k).i.toNat = x.i.toNat + k := hcount
    have hN' : (x.repeated p reps k).N = x.N := rfl
    rw [hst, hi', hN']
    split
    · rfl
    · rw [if_neg (by omega)]

theorem foldl_cacheWrite_replicate (cache : Cache) (p : Pixel) {k : Nat} (hk : 1 ≤ k) :
    (List.replicate k p).foldl (fun cache p => cacheWrite cache (hashOf p) p) cache =
      cacheWrite cache (hashOf p) p := by
  induction k, hk using Nat.le_induction with
  | base => rfl
  | succ k _ ih => rw [List.replicate_succ', List.foldl_append, ih]; exact cacheWrite_idem ..

/-- The pixels of an opcode and those after it are the pixels of the stream. -/
theorem Decoder.pastStream_repeated {p : Pixel} {reps k : Nat} {ps : List Pixel} {bytes : List Byte}
    {src : List SourceItem} {op : Byte} {arg : List Byte} (hk : 1 ≤ k) :
    ((x.fetched (b :: args) src).repeated p reps k).pastStream ps bytes rest op arg =
      x.pastStream (List.replicate k p ++ ps) (b :: args ++ bytes) rest op arg := by
  have hlast : ps.getLast?.getD p = (List.replicate k p ++ ps).getLast?.getD x.prev := by
    rw [List.getLast?_append, List.getLast?_replicate, if_neg (Nat.ne_of_gt hk)]
    cases ps.getLast? <;> rfl
  simp only [pastStream, repeated, fetched, ← hlast, List.foldl_append, foldl_cacheWrite_replicate _ p hk, beatsOf,
    List.map_append, List.map_replicate, List.append_assoc, List.length_append, List.length_replicate,
    BitVec.ofNat_add, BitVec.add_assoc]

theorem Decoder.pastStream_nil (h : x.BetweenOpcodes) (hend : x.i.toNat = x.N.toNat) :
    x.pastStream [] [] x.source x.op x.arg = x := by
  have hst : x.dstate = .dTrl := by rw [h.state, if_pos hend]
  simp [pastStream, beatsOf, ← hst, ← h.no_run]

/-- The pixels `ps` come from some bytes of the source, and the turns produce them. -/
def Decoder.Streams (c : Params) (ch : ReadAhead) (x : Decoder) (ps : List Pixel) (rest : List SourceItem) : Prop :=
  ∃ (bytes : List Byte) (op : Byte) (arg : List Byte), x.source = bytes.map SourceItem.byte ++ rest ∧
    x.Reaches c ch (x.pastStream ps bytes rest op arg)

theorem Decoder.streams_nil (h : x.BetweenOpcodes) (hend : x.N.toNat - x.i.toNat = 0) :
    x.Streams c ch [] x.source :=
  ⟨[], x.op, x.arg, rfl, by
    rw [pastStream_nil h (Nat.le_antisymm h.count_le (Nat.sub_eq_zero_iff_le.mp hend))]; exact .refl⟩

/-- An opcode in front of a stream. -/
theorem Decoder.Streams.cons {p : Pixel} {reps k : Nat} {ps : List Pixel} {src : List SourceItem} (hk : 1 ≤ k)
    (hs : x.source = (b :: args).map .byte ++ src)
    (hreach : x.Reaches c ch ((x.fetched (b :: args) src).repeated p reps k))
    (h : ((x.fetched (b :: args) src).repeated p reps k).Streams c ch ps rest) :
    x.Streams c ch (List.replicate k p ++ ps) rest := by
  obtain ⟨bytes, op, arg, hsrc, hrest⟩ := h
  have hsrc' : src = bytes.map .byte ++ rest := hsrc
  refine ⟨b :: args ++ bytes, op, arg, by rw [hs, hsrc', List.map_append, List.append_assoc], ?_⟩
  rw [← pastStream_repeated hk]
  exact hreach.trans hrest

/-- The decoder after an opcode's pixels, or after as many of them as are left. -/
def Decoder.afterOpcode (b : Byte) (args : List Byte) (src : List SourceItem) (x : Decoder) : Decoder :=
  (x.fetched (b :: args) src).repeated (reconstruct x.prev x.cache (decodeFields b args)).1
    (repeats (decodeFields b args)) (min (repeats (decodeFields b args)) (x.N.toNat - x.i.toNat))

/-- One round of the reference, where what follows the opcode is followed. -/
theorem Decoder.follows_round {fuel : Nat} {src : List SourceItem} (hst : x.dstate = .dOp) (hr : x.rrem = 0)
    (hi : x.i.toNat < x.N.toNat) (hlen : args.length = len b - 1) (hs : x.source = (b :: args).map .byte ++ src)
    (hrest : let y := x.afterOpcode b args src
      y.Follows c ch (decodeLoop fuel (y.N.toNat - y.i.toNat) y.prev y.cache y.source) fun (ps, rest) =>
        y.Streams c ch ps rest) :
    let p := (reconstruct x.prev x.cache (decodeFields b args)).1
    let k := min (repeats (decodeFields b args)) (x.N.toNat - x.i.toNat)
    x.Follows c ch
      (match decodeLoop fuel (x.N.toNat - x.i.toNat - k) p (cacheWrite x.cache (hashOf p) p) src with
        | .error e => .error e
        | .ok (ps, rest) => .ok (List.replicate k p ++ ps, rest))
      fun (ps, rest) => x.Streams c ch ps rest := by
  intro p k
  obtain ⟨hpos, hle⟩ := repeats_decodeFields b args
  have hreach : x.Reaches c ch (x.afterOpcode b args src) := reaches_repeated hst hr hi hlen hs
  have hcount : (x.afterOpcode b args src).i.toNat = x.i.toNat + k :=
    (betweenOpcodes_repeated (x := x.fetched (b :: args) src) (p := p) hle hi.le).2
  have hleft : (x.afterOpcode b args src).N.toNat - (x.afterOpcode b args src).i.toNat =
      x.N.toNat - x.i.toNat - k := by
    rw [hcount, Nat.sub_sub]
    rfl
  dsimp only at hrest
  rw [hleft] at hrest
  cases hloop : decodeLoop fuel (x.N.toNat - x.i.toNat - k) p (cacheWrite x.cache (hashOf p) p) src with
  | error e =>
    have hfails : (x.afterOpcode b args src).Follows c ch (decodeLoop fuel (x.N.toNat - x.i.toNat - k) p
      (cacheWrite x.cache (hashOf p) p) src) _ := hrest
    rw [hloop] at hfails
    exact hreach.fails hfails
  | ok r =>
    have hstreams : (x.afterOpcode b args src).Follows c ch (decodeLoop fuel (x.N.toNat - x.i.toNat - k) p
      (cacheWrite x.cache (hashOf p) p) src) _ := hrest
    rw [hloop] at hstreams
    exact Streams.cons (by omega) hs hreach hstreams

/-- The turns of the opcode stream follow the pixel loop of the reference. -/
theorem Decoder.follows_decodeLoop {fuel left : Nat} (h : x.BetweenOpcodes) (hleft : x.N.toNat - x.i.toNat = left)
    (hfuel : left ≤ fuel) :
    x.Follows c ch (decodeLoop fuel left x.prev x.cache x.source) fun (ps, rest) => x.Streams c ch ps rest := by
  induction fuel generalizing left x with
  | zero => exact streams_nil h (hleft.trans (Nat.le_zero.mp hfuel))
  | succ fuel ih =>
    by_cases hzero : left = 0
    · rw [decodeLoop, if_pos hzero]
      exact streams_nil h (hleft.trans hzero)
    · have hi : x.i.toNat < x.N.toNat := by omega
      have hst : x.dstate = .dOp := by rw [h.state, if_neg hi.ne]
      cases hb : nextByte .truncatedOpcode x.source with
      | error e =>
        rw [decodeLoop, if_neg hzero, hb]
        exact fails_of_source (by rw [hst]; rfl) (nextByte_error hb)
      | ok r =>
        obtain ⟨b, src1⟩ := r
        have hs1 := nextByte_ok hb
        cases hargs : nextBytes .truncatedOpcode (len b - 1) src1 with
        | error e =>
          obtain ⟨bs, src, hlt, rfl, hfails⟩ := nextBytes_error hargs
          rw [decodeLoop, if_neg hzero, hb]
          dsimp only
          rw [hargs]
          exact fails_in_opcode hst hlt hs1 hfails
        | ok r =>
          obtain ⟨args, src2⟩ := r
          obtain ⟨hlen, rfl⟩ := nextBytes_ok hargs
          obtain ⟨hpos, hle⟩ := repeats_decodeFields b args
          obtain ⟨hbetween, hcount⟩ := betweenOpcodes_repeated (x := x.fetched (b :: args) src2)
            (p := (reconstruct x.prev x.cache (decodeFields b args)).1) hle hi.le
          rw [decodeLoop_succ hzero hb hargs, ← hleft]
          refine follows_round hst h.no_run hi hlen hs1 (ih hbetween rfl ?_)
          have hN : (x.afterOpcode b args src2).N = x.N := rfl
          have hcount' : (x.afterOpcode b args src2).i.toNat = _ := hcount
          have hsame : (x.fetched (b :: args) src2).i = x.i ∧ (x.fetched (b :: args) src2).N = x.N := ⟨rfl, rfl⟩
          rw [hN, hcount', hsame.1, hsame.2]
          omega

/-! ### The trailer (R150) -/

/-- Trailer bytes short of the eighth are kept. -/
def Decoder.takeTrailerBytes (bs : List Byte) (rest : List SourceItem) (x : Decoder) : Decoder :=
  { x with source := rest, inCount := x.inCount + BitVec.ofNat 64 bs.length, tbuf := x.tbuf ++ bs }

theorem Decoder.takeTrailerBytes_append {bs : List Byte} :
    (x.takeTrailerBytes bs (.byte b :: rest)).takeTrailerByte b rest = x.takeTrailerBytes (bs ++ [b]) rest := by
  simp [takeTrailerBytes, takeTrailerByte, BitVec.ofNat_add, BitVec.add_assoc]

theorem Decoder.turns_trailerBytes {bs : List Byte} (fr : Nat) (hst : x.dstate = .dTrl) (ht : x.tbuf = [])
    (hs : x.source = bs.map .byte ++ rest) (hlt : bs.length < 8) :
    Decoder.turns c ch bs.length fr x = x.takeTrailerBytes bs rest := by
  induction bs using List.reverseRecOn generalizing rest with
  | nil =>
    have hs' : rest = x.source := hs.symm
    simp [turns, takeTrailerBytes, hs']
  | append_singleton bs b ih =>
    rw [List.length_append, List.length_singleton] at hlt ⊢
    have hs' : x.source = bs.map .byte ++ .byte b :: rest := by simpa using hs
    rw [turns_succ_last, ih hs' (by omega),
      turn_of_dTrl (x := x.takeTrailerBytes bs (.byte b :: rest)) hst rfl, takeTrailerBytes_append, if_neg]
    simp only [takeTrailerBytes, ht, List.nil_append]
    omega

/-- The decoder once the trailer has matched, in strict mode or with the read-ahead completed at once (R150, R214). -/
def Decoder.pastTrailer (rest : List SourceItem) (x : Decoder) : Decoder :=
  { x with source := rest, inCount := x.inCount + 8, tbuf := trailerBytes, dstate := .done }

/-- The eighth byte starts the comparison. -/
theorem Decoder.turns_trailer {bs : List Byte} (fr : Nat) (hst : x.dstate = .dTrl) (ht : x.tbuf = [])
    (hs : x.source = bs.map .byte ++ rest) (hlen : bs.length = 8) :
    Decoder.turns c ch 8 fr x = (x.takeTrailerBytes bs rest).checkTrailer (fr + 7) := by
  obtain ⟨init, b, rfl⟩ : ∃ init b, bs = init ++ [b] :=
    ⟨_, _, (List.dropLast_append_getLast (List.ne_nil_of_length_eq_add_one hlen)).symm⟩
  have hinit : init.length = 7 := by simpa using hlen
  have hs' : x.source = init.map .byte ++ .byte b :: rest := by simpa using hs
  have hread := turns_trailerBytes (c := c) (ch := ch) fr hst ht hs' (by omega)
  rw [hinit] at hread
  rw [turns_succ_last, hread, turn_of_dTrl (x := x.takeTrailerBytes init (.byte b :: rest)) hst rfl,
    takeTrailerBytes_append, if_pos]
  simp [takeTrailerBytes, ht, hinit]

/-- The turns of the trailer follow the reference, and the job completes. -/
theorem Decoder.follows_trailer (hst : x.dstate = .dTrl) (ht : x.tbuf = []) :
    x.Follows c .complete
      (readField .truncatedTrailer 8 (fun t => decide (t = trailerBytes)) .formatTrailer x.source)
      fun (bs, rest) => x.source = bs.map SourceItem.byte ++ rest ∧ bs.length = 8 ∧
        x.Reaches c .complete (x.pastTrailer rest) := by
  cases hr : readField .truncatedTrailer 8 (fun t => decide (t = trailerBytes)) .formatTrailer x.source with
  | ok r =>
    obtain ⟨bs, rest⟩ := r
    obtain ⟨hlen, hs, hgood⟩ := readField_ok hr
    obtain rfl : bs = trailerBytes := of_decide_eq_true hgood
    have hmatch : (x.takeTrailerBytes trailerBytes rest).tbuf = trailerBytes := by rw [takeTrailerBytes, ht]; rfl
    have hdone : (x.takeTrailerBytes trailerBytes rest).complete = x.pastTrailer rest := by
      rw [takeTrailerBytes, ht]
      rfl
    refine ⟨hs, hlen, ?_⟩
    cases hstrict : (x.takeTrailerBytes trailerBytes rest).STRICT with
    | true => exact ⟨8, fun fr => by rw [turns_trailer fr hst ht hs hlen, checkTrailer_of_strict hmatch hstrict, hdone]⟩
    | false =>
      refine ⟨9, fun fr => ?_⟩
      rw [turns_succ_last, turns_trailer fr hst ht hs hlen, checkTrailer_of_default hmatch hstrict, ← hdone]
      rfl
  | error e =>
    rcases readField_error hr with ⟨bs, src, hlt, hs, hfails⟩ | ⟨bs, rest, hlen, hs, hbad, rfl⟩
    · have hread : x.Reaches c .complete (x.takeTrailerBytes bs src) :=
        ⟨bs.length, fun fr => turns_trailerBytes fr hst ht hs hlt⟩
      exact hread.fails (fails_of_source (by rw [takeTrailerBytes, hst]; rfl) hfails)
    · refine ⟨8, fun fr => ?_⟩
      rw [turns_trailer fr hst ht hs hlen, checkTrailer_of_ne]
      · exact ⟨rfl, rfl, rfl⟩
      · rw [takeTrailerBytes, ht]
        exact of_decide_eq_false hbad

end

/-! ### The job (R155) -/

theorem Decoder.Inv.turns {c : Params} {x : Decoder} (h : x.Inv c) (ch : ReadAhead) (n fr : Nat) :
    (Decoder.turns c ch n fr x).Inv c := by
  induction n generalizing x fr with
  | zero => exact h
  | succ n ih => exact ih (h.turn ch fr) (fr + 1)

theorem Decoder.Reaches.inv {c : Params} {ch : ReadAhead} {x z : Decoder} (h : x.Reaches c ch z) (hx : x.Inv c) :
    z.Inv c := by
  obtain ⟨n, hn⟩ := h
  exact hn 0 ▸ hx.turns ch n 0

/-- The decoder at the end of the job that `y` starts, where the reference gives `hd`, `ps` and `rest`; the `bytes` of
the opcode stream have been read between header and trailer. -/
def Decoder.jobEnd (hd : Header) (ps : List Pixel) (bytes : List Byte) (rest : List SourceItem) (op : Byte)
    (arg : List Byte) (y : Decoder) : Decoder :=
  ((y.initJob.pastHeader hd []).pastStream ps bytes [] op arg).pastTrailer rest

theorem Decoder.inv_initJob {c : Params} {y : Decoder} (hreq : requestOk y.regReq = true) : y.initJob.Inv c :=
  InHeader.inv ⟨rfl, initJob_bounded, rfl, rfl, hreq, rfl, rfl, rfl⟩ (by simp) (by simp [FieldsPassed])

section

variable {c : Params} {y : Decoder} {hd : Header} {src : List SourceItem}

/-- The decoder whose header is complete has all its pixels to produce. -/
theorem Decoder.follows_pixels {ch : ReadAhead} (hpixels : 0 < hd.width.toNat * hd.height.toNat) :
    (y.initJob.pastHeader hd src).Follows c ch
      (decodeLoop (hd.width.toNat * hd.height.toNat) (hd.width.toNat * hd.height.toNat) Pixel.start Cache.initial src)
      fun (ps, rest) => (y.initJob.pastHeader hd src).Streams c ch ps rest := by
  have hN : (y.initJob.pastHeader hd src).N.toNat = hd.width.toNat * hd.height.toNat := pixelCount_toNat ..
  have hi : (y.initJob.pastHeader hd src).i.toNat = 0 := rfl
  refine follows_decodeLoop ⟨rfl, by omega, ?_⟩ (by omega) le_rfl
  rw [hi, hN, if_neg hpixels.ne]
  rfl

/-- A job follows the reference: its turns lead to the result or to the error. -/
theorem Decoder.follows_decodeStream (hreq : requestOk y.regReq = true) :
    y.initJob.Follows c .complete (decodeStream c y.regReq y.source) fun (hd, ps, rest) =>
      ps.length = hd.width.toNat * hd.height.toNat ∧
      ∃ (bytes : List Byte) (op : Byte) (arg : List Byte),
        y.source.length = 14 + bytes.length + 8 + rest.length ∧
          y.initJob.Reaches c .complete (y.jobEnd hd ps bytes rest op arg) := by
  have hheader := follows_decodeHeader (c := c) (ch := .complete) y.initJob_dstate y.initJob_hk
  rw [initJob_source] at hheader
  rw [decodeStream, if_pos hreq]
  cases hh : decodeHeader c y.source with
  | error e => rw [hh] at hheader; exact hheader
  | ok r =>
    obtain ⟨hd, src1⟩ := r
    rw [hh] at hheader
    obtain ⟨hlen1, hturns1⟩ := hheader
    have hreach1 : y.initJob.Reaches c .complete (y.initJob.pastHeader hd src1) := ⟨14, hturns1⟩
    have hpixels : 0 < hd.width.toNat * hd.height.toNat := by
      have hlt := (hreach1.inv (inv_initJob hreq)).pixels_left (.inl rfl)
      rwa [pastHeader, BitVec.lt_def, pixelCount_toNat] at hlt
    have hstream := follows_pixels (c := c) (ch := .complete) (y := y) (src := src1) hpixels
    dsimp only
    cases hl : decodeLoop (hd.width.toNat * hd.height.toNat) (hd.width.toNat * hd.height.toNat) Pixel.start
        Cache.initial src1 with
    | error e => rw [hl] at hstream; exact hreach1.fails hstream
    | ok r =>
      obtain ⟨ps, src2⟩ := r
      rw [hl] at hstream
      obtain ⟨bytes, op, arg, hs1, hreach2⟩ := hstream
      have hreach := hreach1.trans hreach2
      have htrailer := follows_trailer (c := c)
        (x := (y.initJob.pastHeader hd src1).pastStream ps bytes src2 op arg) rfl rfl
      dsimp only [pastStream] at htrailer ⊢
      cases ht : readField .truncatedTrailer 8 (fun t => decide (t = trailerBytes)) .formatTrailer src2 with
      | error e => rw [ht] at htrailer; exact hreach.fails htrailer
      | ok r =>
        obtain ⟨tb, rest⟩ := r
        rw [ht] at htrailer
        obtain ⟨hs2, hlen2, hreach3⟩ := htrailer
        refine ⟨decodeLoop_length le_rfl hl, bytes, op, arg, ?_, hreach.trans hreach3⟩
        have hlen1' : src1.length = bytes.length + src2.length := by
          rw [show src1 = _ from hs1, List.length_append, List.length_map]
        have hlen2' : src2.length = 8 + rest.length := by
          rw [hs2, List.length_append, List.length_map, hlen2]
        dsimp only at hlen1 ⊢
        omega

/-- What the host sees of a finished job (R32, R33, R48, R152). -/
theorem Decoder.status_of_done {x : Decoder} (h : x.dstate = .done) : x.status = 2 ∧ x.irq = true := by
  have hstatus : x.status = statusWord false true false x.errKind x.errDetail := by
    simp [status, busy, isDone, isErr, h]
  rw [hstatus, statusWord, irq, isDone, h]
  simp only [Bool.false_eq_true, if_false]
  exact ⟨by decide, rfl⟩

end

/-- Settles O29: the decoder's turns follow the reference, and its registers at the end are those of `jobEnd`. -/
theorem decoderComputesDecodeStream : Obligations.DecoderComputesDecodeStream := by
  intro y d hreq
  have hfollows := Decoder.follows_decodeStream (c := Config.params) (y := y) hreq
  cases hr : decodeStream Config.params y.regReq y.source with
  | error e =>
    rw [hr] at hfollows
    obtain ⟨n, hfails⟩ := hfollows
    exact ⟨n, fun s ag h ha => ⟨_, _, runSteps_of_decoder_turns n h ha, State.putDec_self h _, hfails _⟩⟩
  | ok r =>
    obtain ⟨hd, ps, rest⟩ := r
    rw [hr] at hfollows
    obtain ⟨hps, bytes, op, arg, hlen, n, hturns⟩ := hfollows
    have hreach : y.initJob.Reaches Config.params .complete (y.jobEnd hd ps bytes rest op arg) := ⟨n, hturns⟩
    refine ⟨n, fun s ag h ha => ?_⟩
    have hsteps := runSteps_of_decoder_turns n h ha
    rw [hturns] at hsteps
    obtain ⟨hstatus, hirq⟩ := Decoder.status_of_done (x := y.jobEnd hd ps bytes rest op arg) rfl
    have hN : (y.jobEnd hd ps bytes rest op arg).N.toNat = hd.width.toNat * hd.height.toNat := pixelCount_toNat ..
    have hall := (hreach.inv (Decoder.inv_initJob hreq)).all_pixels (.inr (.inr rfl))
    refine ⟨_, _, hsteps, State.putDec_self h _, rfl, hstatus, hirq, rfl, rfl, rfl, rfl, rfl, rfl, ?image, hps, rfl,
      rfl, by rw [hall, hN], rfl, ?count⟩
    case image =>
      have hbeats : (y.jobEnd hd ps bytes rest op arg).jobBeats =
          beatsOf (outChannels y.regReq hd.channels) hd.channels ps :=
        Decoder.jobBeats_of_append (old := y.pixelSink) rfl (by rw [hN, beatsOf, List.length_map, hps])
      rw [Decoder.image, hbeats]
      rfl
    case count =>
      have hcount : (y.jobEnd hd ps bytes rest op arg).inCount = 14 + BitVec.ofNat 64 bytes.length + 8 := rfl
      rw [hcount, hlen, Nat.add_sub_cancel, BitVec.ofNat_add, BitVec.ofNat_add]
      rfl

end Sys2Proof.Machine
end

section
/-! PROOFS. What the encoder emits is well-formed (30_encoding.md R97, 42_encoder.md R178), and the two caches keep
in step (40_color_cache.md R116-R118). -/

namespace Sys2Proof.Machine

/-! ### Well-formed opcodes (R172, R178) -/

theorem missOpcode_wellFormed (prev p : Pixel) : (missOpcode prev p).WellFormed := by
  rw [missOpcode_eq]
  split_ifs with ha hdiff hluma
  · simpa [Instr.WellFormed, Instr.wf, inRange_iff, and_assoc] using hdiff
  · simpa [Instr.WellFormed, Instr.wf, inRange_iff, and_assoc] using hluma
  · rfl
  · rfl

theorem run_wellFormed {n : Nat} (hpos : 1 ≤ n) (hle : n ≤ 62) : (Instr.run n).WellFormed := by
  simp [Instr.WellFormed, Instr.wf, hpos, hle]

theorem pendingRun_wellFormed {n : Nat} (h : n ≤ 61) : ∀ i ∈ pendingRun n, i.WellFormed := by
  unfold pendingRun
  split
  case isTrue hpos => exact List.forall_mem_singleton.mpr (run_wellFormed hpos (by omega))
  case isFalse => exact List.forall_mem_nil _

theorem EncodeLoop.select_wellFormed {last : Bool} {p : Pixel} {st : EncodeLoop} (hr : st.run ≤ 61) :
    ∀ i ∈ (st.select last p).1, i.WellFormed := by
  rcases st.select_cases last p with h | ⟨-, -, h⟩ | ⟨op, _, hop, h⟩ <;> rw [h]
  · exact List.forall_mem_singleton.mpr (run_wellFormed (by omega) (by omega))
  · exact List.forall_mem_nil _
  · refine List.forall_mem_append.mpr ⟨pendingRun_wellFormed hr, List.forall_mem_singleton.mpr ?_⟩
    rcases hop with rfl | rfl
    · rfl
    · exact missOpcode_wellFormed st.prev p

theorem encodeOps_wellFormed {st : EncodeLoop} (hr : st.run ≤ 61) (ps : List Pixel) :
    ∀ i ∈ encodeOps st ps, i.WellFormed := by
  induction ps generalizing st with
  | nil => exact List.forall_mem_nil _
  | cons p rest ih =>
    exact List.forall_mem_append.mpr ⟨EncodeLoop.select_wellFormed hr, ih (EncodeLoop.select_run_le hr)⟩

/-- Settles O51, by induction on the pixels: a pending run stays below 62. -/
theorem emittedOpcodesAreWellFormed : Obligations.EmittedOpcodesAreWellFormed :=
  ⟨missOpcode_wellFormed, encodeOps_wellFormed (Nat.zero_le 61)⟩

/-! ### The two caches (R116-R118) -/

/-- The encoder's cache `E` and the decoder's `D` with the previous pixel `prev`: slot 53 alone may differ, as long as
the encoder has not written it, and the previous pixel stands in the encoder's cache but at job start. -/
structure CachesAgree (prev : Pixel) (E D : Cache) : Prop where
  slots : ∀ s : BitVec 6, cacheRead E s = cacheRead D s ∨
    s = 53 ∧ cacheRead E s = ⟨0, 0, 0, 0⟩ ∧ cacheRead D s = ⟨0, 0, 0, 255⟩
  prev_cached : cacheRead E (hashOf prev) = prev ∨ prev = Pixel.start ∧ cacheRead E 53 = ⟨0, 0, 0, 0⟩

theorem cachesAgree_initial : CachesAgree Pixel.start Cache.initial Cache.initial where
  slots _ := .inl rfl
  prev_cached := .inr ⟨rfl, cacheRead_initial 53⟩

theorem cacheRead_cacheWrite (cache : Cache) (s t : BitVec 6) (p : Pixel) :
    cacheRead (cacheWrite cache s p) t = if s = t then p else cacheRead cache t := by
  split
  case isTrue h => rw [h, cacheRead_cacheWrite_self]
  case isFalse h => exact cacheRead_cacheWrite_of_ne cache p h

/-- A pixel in the encoder's cache is in the decoder's. -/
theorem CachesAgree.hit {prev p : Pixel} {E D : Cache} (h : CachesAgree prev E D) (hit : cacheRead E (hashOf p) = p) :
    cacheRead D (hashOf p) = p := by
  rcases h.slots (hashOf p) with heq | ⟨h53, hzero, -⟩
  · rw [← heq, hit]
  · obtain rfl : p = ⟨0, 0, 0, 0⟩ := hit.symm.trans hzero
    exact absurd h53 (by decide)

/-- One pixel, by the rules of the two engines (R116, R117). -/
theorem CachesAgree.step {prev p : Pixel} {E D : Cache} (h : CachesAgree prev E D) :
    CachesAgree p (encoderCacheStep (prev, E) p).2 (cacheWrite D (hashOf p) p) := by
  have hkeep (hE : cacheRead E (hashOf p) = p ∨ p = Pixel.start ∧ cacheRead E 53 = ⟨0, 0, 0, 0⟩) :
      CachesAgree p E (cacheWrite D (hashOf p) p) := by
    refine ⟨fun s => ?_, hE⟩
    rw [cacheRead_cacheWrite]
    split
    case isTrue hs =>
      subst hs
      rcases hE with hE | ⟨rfl, hzero⟩
      · exact .inl hE
      · exact .inr ⟨rfl, hzero, rfl⟩
    case isFalse => exact h.slots s
  unfold encoderCacheStep
  split_ifs with heq hit
  · exact hkeep (heq ▸ h.prev_cached)
  · exact hkeep (.inl hit)
  · refine ⟨fun s => ?_, .inl (cacheRead_cacheWrite_self ..)⟩
    rw [cacheRead_cacheWrite, cacheRead_cacheWrite]
    split
    · exact .inl rfl
    · exact h.slots s

theorem cachesAgree_pixels (ps : List Pixel) : CachesAgree (lastPixel ps) (encoderCache ps) (decoderCache ps) := by
  induction ps using List.reverseRecOn with
  | nil => exact cachesAgree_initial
  | append_singleton ps p ih =>
    rw [lastPixel_append, encoderCache_append, decoderCache_append]
    exact ih.step

/-- The image begins with the initial previous pixel, and no pixel of slot 53 has differed from its predecessor. -/
def SlotUnwritten (ps : List Pixel) : Prop :=
  ps.head? = some ⟨0, 0, 0, 255⟩ ∧
    ∀ (j : Nat) (p q : Pixel), ps[j]? = some p → ps[j + 1]? = some q → hashOf q = 53 → q = p

theorem slotUnwritten_singleton (p : Pixel) : SlotUnwritten [p] ↔ p = Pixel.start := by
  simp [SlotUnwritten, Pixel.start]

theorem lastPixel_of_getElem? {ps : List Pixel} {j : Nat} {p : Pixel} (h : ps[j]? = some p)
    (hlast : j + 1 = ps.length) : lastPixel ps = p := by
  rw [lastPixel, List.getLast?_eq_getElem?, ← hlast, Nat.add_sub_cancel, h, Option.getD_some]

theorem slotUnwritten_append {ps : List Pixel} (hne : ps ≠ []) (p : Pixel) :
    SlotUnwritten (ps ++ [p]) ↔ SlotUnwritten ps ∧ (hashOf p = 53 → p = lastPixel ps) := by
  have hpos : 0 < ps.length := List.length_pos_iff.mpr hne
  have hold {j : Nat} {q : Pixel} (h : ps[j]? = some q) : (ps ++ [p])[j]? = some q := by
    rw [List.getElem?_append_left (List.getElem?_eq_some_iff.mp h).1, h]
  have hhead : (ps ++ [p]).head? = ps.head? := List.head?_append_of_ne_nil _ hne
  constructor
  · rintro ⟨hstart, hpairs⟩
    refine ⟨⟨hhead ▸ hstart, fun j q r hq hr => hpairs j q r (hold hq) (hold hr)⟩, fun h53 => ?_⟩
    have hlast : ps[ps.length - 1]? = some ps[ps.length - 1] := List.getElem?_eq_getElem (by omega)
    rw [lastPixel_of_getElem? hlast (by omega)]
    refine hpairs _ _ _ (hold hlast) ?_ h53
    rw [Nat.sub_add_cancel hpos, List.getElem?_concat_length]
  · rintro ⟨⟨hstart, hpairs⟩, hnew⟩
    refine ⟨hhead.trans hstart, fun j q r hq hr h53 => ?_⟩
    have hj : j + 1 < (ps ++ [p]).length := (List.getElem?_eq_some_iff.mp hr).1
    rw [List.length_append, List.length_singleton] at hj
    rw [List.getElem?_append_left (by omega)] at hq
    rcases Nat.lt_or_ge (j + 1) ps.length with hin | hout
    · rw [List.getElem?_append_left hin] at hr
      exact hpairs j q r hq hr h53
    · have hlen : j + 1 = ps.length := by omega
      rw [hlen, List.getElem?_concat_length, Option.some.injEq] at hr
      subst hr
      rw [hnew h53, lastPixel_of_getElem? hq hlen]

/-- The decoder has written the last pixel. -/
theorem cacheRead_decoderCache_last {ps : List Pixel} (hne : ps ≠ []) :
    cacheRead (decoderCache ps) (hashOf (lastPixel ps)) = lastPixel ps := by
  rcases List.eq_nil_or_concat ps with rfl | ⟨init, p, rfl⟩
  · exact absurd rfl hne
  · rw [List.concat_eq_append, lastPixel_append, decoderCache_append, cacheRead_cacheWrite_self]

section

variable {prev p : Pixel} {E : Cache} {s : BitVec 6}

theorem encoderCacheStep_self : (encoderCacheStep (p, E) p).2 = E := by simp [encoderCacheStep]

theorem cacheRead_encoderCacheStep_of_ne (h : p ≠ prev) :
    cacheRead (encoderCacheStep (prev, E) p).2 (hashOf p) = p := by
  rw [encoderCacheStep, if_neg h]
  split
  case isTrue hit => exact hit
  case isFalse => exact cacheRead_cacheWrite_self ..

theorem cacheRead_encoderCacheStep_other (h : hashOf p ≠ s) :
    cacheRead (encoderCacheStep (prev, E) p).2 s = cacheRead E s := by
  unfold encoderCacheStep
  split_ifs
  · rfl
  · rfl
  · exact cacheRead_cacheWrite_of_ne E p h

/-- After one pixel the two caches differ in its slot only where it repeats the previous one, which the encoder's slot
does not hold; in the other slots they differ as before (R116, R117). -/
theorem caches_differ_step (D : Cache) :
    cacheRead (encoderCacheStep (prev, E) p).2 s ≠ cacheRead (cacheWrite D (hashOf p) p) s ↔
      if hashOf p = s then p = prev ∧ cacheRead E s ≠ p else cacheRead E s ≠ cacheRead D s := by
  rw [cacheRead_cacheWrite]
  split_ifs with hs
  · by_cases hprev : p = prev
    · subst hprev
      rw [encoderCacheStep_self]
      exact (and_iff_right rfl).symm
    · simp only [← hs, cacheRead_encoderCacheStep_of_ne hprev, ne_eq, not_true_eq_false, hprev, false_and]
  · rw [cacheRead_encoderCacheStep_other hs]

end

theorem slot53_differs_iff (ps : List Pixel) :
    cacheRead (encoderCache ps) 53 ≠ cacheRead (decoderCache ps) 53 ↔ SlotUnwritten ps := by
  induction ps using List.reverseRecOn with
  | nil => simp [SlotUnwritten]
  | append_singleton ps p ih =>
    rw [encoderCache_append, decoderCache_append, caches_differ_step]
    rcases eq_or_ne ps [] with rfl | hne
    · rw [List.nil_append, slotUnwritten_singleton, lastPixel_nil, encoderCache_nil, decoderCache_nil,
        cacheRead_initial]
      constructor
      · intro h
        split_ifs at h
        · exact h.1
        · exact absurd rfl h
      · rintro rfl
        decide
    · rw [slotUnwritten_append hne, ← ih]
      split_ifs with h53
      · rw [forall_prop_of_true h53, and_comm (a := p = _)]
        refine and_congr_left fun hlast => ?_
        rw [← h53, hlast, cacheRead_decoderCache_last hne]
      · exact (and_iff_left fun h => absurd h h53).symm

/-- Settles O11, by induction on the pixels, the last one apart. -/
theorem cachesAgreeButForSlot53 : Obligations.CachesAgreeButForSlot53 := fun ps =>
  ⟨(cachesAgree_pixels ps).slots, slot53_differs_iff ps⟩

end Sys2Proof.Machine
end

section
/-! PROOFS. The pixel loop of `DecodeStream` on the bytes that the encoder emits (42_encoder.md R190-R194): each opcode
gives back the pixels that the encoder spent it on. -/

namespace Sys2Proof.Machine

/-! ### What an emitted opcode stands for (R155, R172) -/

/-- A delta added to the byte it was taken from. -/
theorem wrap8_add_delta (x y : Byte) : wrap8 (x.toNat + (y - x).toInt) = y := by
  rw [wrap8, BitVec.ofInt_add, BitVec.ofInt_toInt, BitVec.ofInt_natCast, BitVec.ofNat_toNat, BitVec.setWidth_eq]
  bv_omega

/-- A delta taken against the green one, and added to it. -/
theorem wrap8_add_green_delta (x y g : Byte) : wrap8 (x.toNat + (g.toInt + (y - x - g).toInt)) = y := by
  rw [wrap8, BitVec.ofInt_add, BitVec.ofInt_add, BitVec.ofInt_toInt, BitVec.ofInt_toInt, BitVec.ofInt_natCast,
    BitVec.ofNat_toNat, BitVec.setWidth_eq]
  bv_omega

/-- The opcode of a miss gives back the pixel it was chosen for. -/
theorem reconstruct_missOpcode (prev p : Pixel) (D : Cache) : reconstruct prev D (missOpcode prev p) = (p, 1) := by
  rw [missOpcode_eq]
  split_ifs with ha
  · rw [reconstruct, wrap8_add_delta, wrap8_add_delta, wrap8_add_delta, ← ha]
  · rw [reconstruct, wrap8_add_green_delta, wrap8_add_delta, wrap8_add_green_delta, ← ha]
  · rw [reconstruct, ← ha]
  · rfl

/-- The opcode of a pixel unlike the previous one (R175-R180). -/
def pixelOpcode (prev : Pixel) (E : Cache) (p : Pixel) : Instr :=
  if cacheRead E (hashOf p) = p then .index (hashOf p) else missOpcode prev p

theorem pixelOpcode_wellFormed (prev : Pixel) (E : Cache) (p : Pixel) : (pixelOpcode prev E p).WellFormed := by
  unfold pixelOpcode
  split
  · rfl
  · exact missOpcode_wellFormed prev p

theorem reconstruct_pixelOpcode {prev : Pixel} {E D : Cache} (p : Pixel)
    (h : cacheRead E (hashOf p) = p → cacheRead D (hashOf p) = p) :
    reconstruct prev D (pixelOpcode prev E p) = (p, 1) := by
  unfold pixelOpcode
  split
  case isTrue hit => rw [reconstruct, h hit]
  case isFalse => exact reconstruct_missOpcode prev p D

theorem repeats_pixelOpcode (prev : Pixel) (E : Cache) (p : Pixel) : repeats (pixelOpcode prev E p) = 1 := by
  rw [← reconstruct_reps prev E, reconstruct_pixelOpcode p id]

/-- A pixel unlike the previous one: the pending run, its own opcode, and the encoder's update rule. -/
theorem EncodeLoop.select_of_ne {p : Pixel} {st : EncodeLoop} (last : Bool) (h : p ≠ st.prev) :
    st.select last p = (pendingRun st.run ++ [pixelOpcode st.prev st.cache p],
      ⟨p, (encoderCacheStep (st.prev, st.cache) p).2, 0⟩) := by
  rw [encoderCacheStep, if_neg h, pixelOpcode]
  by_cases hit : cacheRead st.cache (hashOf p) = p
  · rw [EncodeLoop.select_of_hit h hit, if_pos hit, if_pos hit]
  · rw [EncodeLoop.select_of_miss h hit, if_neg hit, if_neg hit]

/-! ### The pixel loop on emitted bytes (R155) -/

/-- From the previous pixel `prev`, with a decoder's cache that agrees with the encoder's `E`, the bytes of `ops`
decode to the pixels `ps`, and what follows them is untouched. -/
def Decodes (prev : Pixel) (E : Cache) (ops : List Instr) (ps : List Pixel) : Prop :=
  ∀ (D : Cache) (fuel : Nat) (rest : List SourceItem), CachesAgree prev E D → ps.length ≤ fuel →
    decodeLoop fuel ps.length prev D ((encodeAll ops).map .byte ++ rest) = .ok (ps, rest)

section

variable {prev p : Pixel} {E : Cache} {ops : List Instr} {ps : List Pixel}

theorem Decodes.nil : Decodes prev E [] [] := by
  intro D fuel rest _ _
  cases fuel with
  | zero => rfl
  | succ fuel => rfl

/-- One opcode that stands for `k` pixels `p`. -/
theorem Decodes.cons {i : Instr} {k : Nat} (hwf : i.WellFormed)
    (hp : ∀ D, CachesAgree prev E D → reconstruct prev D i = (p, k))
    (h : Decodes p (encoderCacheStep (prev, E) p).2 ops ps) :
    Decodes prev E (i :: ops) (List.replicate k p ++ ps) := by
  intro D fuel rest hD hfuel
  obtain ⟨b, args, hlen, rfl⟩ := exists_fields_of_wellFormed hwf
  have hrec := hp D hD
  have hk : repeats (decodeFields b args) = k := by rw [← reconstruct_reps prev D, hrec]
  have hpos : 1 ≤ k := hk ▸ (repeats_decodeFields b args).1
  rw [List.length_append, List.length_replicate] at hfuel ⊢
  obtain ⟨fuel, rfl⟩ : ∃ n, fuel = n + 1 := ⟨fuel - 1, by omega⟩
  have hbytes : (encodeAll (decodeFields b args :: ops)).map SourceItem.byte ++ rest =
      .byte b :: (args.map .byte ++ ((encodeAll ops).map .byte ++ rest)) := by
    simp [encodeAll, encode_decodeFields hlen]
  rw [hbytes, decodeLoop_succ (by omega) rfl (hlen ▸ nextBytes_map .truncatedOpcode args _), hk, hrec,
    Nat.min_eq_left (Nat.le_add_right ..), Nat.add_sub_cancel_left, h _ _ rest hD.step (by omega)]

/-- A RUN repeats the previous pixel and leaves the encoder's cache. -/
theorem Decodes.run {k : Nat} (hpos : 1 ≤ k) (hle : k ≤ 62) (h : Decodes prev E ops ps) :
    Decodes prev E (.run k :: ops) (List.replicate k prev ++ ps) :=
  .cons (run_wellFormed hpos hle) (fun _ _ => rfl) (by rwa [encoderCacheStep_self])

theorem Decodes.pendingRun {k : Nat} (hle : k ≤ 61) (h : Decodes prev E ops ps) :
    Decodes prev E (pendingRun k ++ ops) (List.replicate k prev ++ ps) := by
  unfold Machine.pendingRun
  split
  case isTrue hpos => exact h.run hpos (by omega)
  case isFalse hzero =>
    obtain rfl : k = 0 := by omega
    exact h

end

/-- Whatever the encoder emits for the pixels `ps` with a run pending decodes to that run and `ps`. -/
theorem decodes_encodeOps {st : EncodeLoop} {ps : List Pixel} (hr : st.run ≤ 61) (hend : ps = [] → st.run = 0) :
    Decodes st.prev st.cache (encodeOps st ps) (List.replicate st.run st.prev ++ ps) := by
  induction ps generalizing st with
  | nil =>
    rw [hend rfl]
    exact .nil
  | cons p rest ih =>
    rw [encodeOps]
    by_cases hp : p = st.prev
    · have hrun : List.replicate st.run st.prev ++ p :: rest = List.replicate (st.run + 1) st.prev ++ rest := by
        rw [List.replicate_succ', List.append_assoc, hp, List.singleton_append]
      rw [hrun, EncodeLoop.select_of_eq hp]
      split_ifs with hflush
      · exact .run (Nat.le_add_left ..) (by omega) (hp ▸ ih (st := ⟨p, st.cache, 0⟩) (Nat.zero_le _) fun _ => rfl)
      · rw [not_or, List.isEmpty_iff] at hflush
        have htail := ih (st := ⟨p, st.cache, st.run + 1⟩) (by dsimp only; omega) fun hnil => absurd hnil hflush.2
        rwa [hp] at htail ⊢
    · rw [EncodeLoop.select_of_ne _ hp, List.append_assoc]
      exact (Decodes.cons (pixelOpcode_wellFormed ..) (fun _ hD => reconstruct_pixelOpcode p hD.hit)
        (ih (st := ⟨p, _, 0⟩) (Nat.zero_le _) fun _ => rfl)).pendingRun hr

/-! ### The whole stream (R190, R193) -/

theorem decodeLoop_encodeOps (ps : List Pixel) (rest : List SourceItem) :
    decodeLoop ps.length ps.length Pixel.start Cache.initial ((encodeAll (encodeOps .start ps)).map .byte ++ rest) =
      .ok (ps, rest) :=
  decodes_encodeOps (st := .start) (Nat.zero_le _) (fun _ => rfl) Cache.initial ps.length rest cachesAgree_initial
    le_rfl

theorem decodeStream_encodeStream {c : Params} {W H : Word32} {CH CS REQ : Byte} (hW : dimOk c W = true)
    (hH : dimOk c H = true) (hCH : channelsOk CH = true) (hCS : colorspaceOk CS = true) (hREQ : requestOk REQ = true)
    (bytes : List Byte) (rest : List SourceItem) :
    decodeStream c REQ ((encodeStream W H CH CS bytes).map .byte ++ rest) =
      .ok (⟨W, H, CH, CS⟩, takePixels CH (W.toNat * H.toNat) bytes, rest) := by
  have hloop := decodeLoop_encodeOps (takePixels CH (W.toNat * H.toNat) bytes) (trailerBytes.map .byte ++ rest)
  have htrailer : readField .truncatedTrailer 8 (fun t => decide (t = trailerBytes)) .formatTrailer
      (trailerBytes.map .byte ++ rest) = .ok (trailerBytes, rest) := readField_map (bs := trailerBytes) rfl ..
  rw [takePixels_length] at hloop
  rw [encodeStream, List.map_append, List.map_append, List.append_assoc, List.append_assoc, decodeStream, if_pos hREQ,
    decodeHeader_headerBytes hW hH hCH hCS]
  dsimp only
  rw [hloop]
  dsimp only
  rw [htrailer]

/-! ### The beats (R136, R194) -/

/-- A decoded pixel's beat is the pixel in the requested channels: a 3-channel image has no alpha but 255. -/
theorem outBeat_eq_pixelBytes {SCH : Byte} {p : Pixel} (OCH : Byte) (h : SCH = 3 → p.a = 255) :
    outBeat OCH SCH p = pixelBytes OCH p := by
  unfold outBeat pixelBytes
  split_ifs with _ hS
  · rfl
  · rw [h hS]
  · rfl

theorem beatsOf_takePixels (OCH CH : Byte) (n : Nat) (bytes : List Byte) :
    beatsOf OCH CH (takePixels CH n bytes) = (takePixels CH n bytes).map (pixelBytes OCH) := by
  refine List.map_congr_left fun p hp => outBeat_eq_pixelBytes OCH fun hCH => ?_
  subst hCH
  exact takePixels_three_alpha p hp

theorem pixelBytes_formPixel {CH : Byte} (hCH : channelsOk CH = true) {beat : List Byte}
    (hlen : beat.length = CH.toNat) : pixelBytes CH (formPixel CH beat) = beat := by
  rw [channelsOk, Bool.or_eq_true, decide_eq_true_eq, decide_eq_true_eq] at hCH
  rcases hCH with rfl | rfl
  · obtain ⟨r, g, b, rfl⟩ := List.length_eq_three.mp hlen
    rfl
  · obtain ⟨r, g, b, a, rfl⟩ := List.length_eq_four.mp hlen
    rfl

/-- The pixels of a buffer hold its bytes. -/
theorem flatten_pixelBytes_takePixels {CH : Byte} (hCH : channelsOk CH = true) {n : Nat} {bytes : List Byte}
    (hlen : bytes.length = n * CH.toNat) : ((takePixels CH n bytes).map (pixelBytes CH)).flatten = bytes := by
  induction n generalizing bytes with
  | zero =>
    rw [Nat.zero_mul, List.length_eq_zero_iff] at hlen
    subst hlen
    rfl
  | succ n ih =>
    have hbeat : pixelBytes CH (formPixel CH (bytes.take CH.toNat)) = bytes.take CH.toNat :=
      pixelBytes_formPixel hCH (List.length_take_of_le (by rw [hlen, Nat.succ_mul]; omega))
    rw [takePixels, List.map_cons, List.flatten_cons, hbeat, ih (by rw [List.length_drop, hlen, Nat.succ_mul]; omega),
      List.take_append_drop]

/-- Settles O58: the pixel loop on the emitted bytes, and the beats of the pixels of a buffer. -/
theorem decodingAnEncodedImageGivesItBack : Obligations.DecodingAnEncodedImageGivesItBack := by
  intro c W H CH CS REQ bytes rest hW hH hCH hCS hREQ hlen ps beats
  have hbeats : beats = ps.map (pixelBytes (outChannels REQ CH)) := beatsOf_takePixels ..
  refine ⟨decodeStream_encodeStream hW hH hCH hCS hREQ bytes rest, ?_, congrArg List.flatten hbeats, fun hOCH => ?_⟩
  · rw [hbeats, List.length_map, takePixels_length]
  · rw [hbeats, hOCH, flatten_pixelBytes_takePixels hCH hlen]

end Sys2Proof.Machine
end

section
/-! PROOFS. Which opcodes the encoder emits where (30_encoding.md R101, 42_encoder.md R173-R183, R195). -/

namespace Sys2Proof.Machine

/-! ### One opcode (R101) -/

/-- The channel deltas are in the ranges of DIFF (R178). -/
def DiffFits (prev p : Pixel) : Prop :=
  (-2 ≤ (p.r - prev.r).toInt ∧ (p.r - prev.r).toInt ≤ 1) ∧ (-2 ≤ (p.g - prev.g).toInt ∧ (p.g - prev.g).toInt ≤ 1) ∧
    (-2 ≤ (p.b - prev.b).toInt ∧ (p.b - prev.b).toInt ≤ 1)

/-- The green delta and the other two against it are in the ranges of LUMA (R178). -/
def LumaFits (prev p : Pixel) : Prop :=
  (-32 ≤ (p.g - prev.g).toInt ∧ (p.g - prev.g).toInt ≤ 31) ∧
    (-8 ≤ ((p.r - prev.r) - (p.g - prev.g)).toInt ∧ ((p.r - prev.r) - (p.g - prev.g)).toInt ≤ 7) ∧
    (-8 ≤ ((p.b - prev.b) - (p.g - prev.g)).toInt ∧ ((p.b - prev.b) - (p.g - prev.g)).toInt ≤ 7)

/-- The rows of R101 about one opcode `i` for the pixel `p`, where `prev` and `E` are the encoder's before it. -/
structure Canonical (prev p : Pixel) (E : Cache) (i : Instr) : Prop where
  diff_moves : i ≠ .diff 0 0 0
  run_of_eq : (∀ m, i ≠ .run m) → p ≠ prev
  luma_needed : ∀ x y z, i = .luma x y z → ¬DiffFits prev p ∧ i ≠ .luma 0 0 0
  rgb_needed : ∀ r g b, i = .rgb r g b → ¬DiffFits prev p ∧ ¬LumaFits prev p
  rgba_needed : ∀ r g b a, i = .rgba r g b a → p.a ≠ prev.a
  miss_uncached : (∀ m, i ≠ .run m) → (∀ s, i ≠ .index s) → cacheRead E (hashOf p) ≠ p
  index_hash : ∀ s, i = .index s → s = hashOf p

section

variable {prev p : Pixel} {E : Cache}

theorem canonical_run (m : Nat) : Canonical prev p E (.run m) := by
  constructor <;> simp

theorem canonical_index (h : p ≠ prev) : Canonical prev p E (.index (hashOf p)) := by
  constructor <;> simp [h]

/-- A miss emits no opcode that gives the previous pixel back. -/
theorem missOpcode_ne {i : Instr} (h : p ≠ prev) (hi : (reconstruct prev E i).1 = prev) : missOpcode prev p ≠ i := by
  rintro rfl
  rw [reconstruct_missOpcode] at hi
  exact h hi

/-- The priority of a miss: an opcode is chosen where those before it do not fit (R177-R180). -/
theorem missOpcode_cases (prev p : Pixel) :
    (∃ x y z, missOpcode prev p = .diff x y z) ∨
    (∃ x y z, missOpcode prev p = .luma x y z ∧ ¬DiffFits prev p) ∨
    (∃ r g b, missOpcode prev p = .rgb r g b ∧ ¬DiffFits prev p ∧ ¬LumaFits prev p) ∨
    ∃ r g b a, missOpcode prev p = .rgba r g b a ∧ p.a ≠ prev.a := by
  rw [missOpcode_eq]
  split_ifs with ha hdiff hluma
  · exact .inl ⟨_, _, _, rfl⟩
  · exact .inr (.inl ⟨_, _, _, rfl, hdiff⟩)
  · exact .inr (.inr (.inl ⟨_, _, _, rfl, hdiff, hluma⟩))
  · exact .inr (.inr (.inr ⟨_, _, _, _, rfl, ha⟩))

theorem canonical_miss (h : p ≠ prev) (hmiss : cacheRead E (hashOf p) ≠ p) :
    Canonical prev p E (missOpcode prev p) := by
  have hdiff : missOpcode prev p ≠ .diff 0 0 0 := missOpcode_ne (E := E) h (by simp [reconstruct, wrap8])
  have hluma : missOpcode prev p ≠ .luma 0 0 0 := missOpcode_ne (E := E) h (by simp [reconstruct, wrap8])
  rcases missOpcode_cases prev p with ⟨x, y, z, hop⟩ | ⟨x, y, z, hop, hfit⟩ | ⟨r, g, b, hop, hfits⟩ |
    ⟨r, g, b, a, hop, ha⟩ <;> rw [hop] at hdiff hluma ⊢
  case inl => exact ⟨hdiff, fun _ => h, nofun, nofun, nofun, fun _ _ => hmiss, nofun⟩
  case inr.inl =>
    exact ⟨hdiff, fun _ => h, fun _ _ _ _ => ⟨hfit, hluma⟩, nofun, nofun, fun _ _ => hmiss, nofun⟩
  case inr.inr.inl => exact ⟨hdiff, fun _ => h, nofun, fun _ _ _ _ => hfits, nofun, fun _ _ => hmiss, nofun⟩
  case inr.inr.inr => exact ⟨hdiff, fun _ => h, nofun, nofun, fun _ _ _ _ _ => ha, fun _ _ => hmiss, nofun⟩

theorem canonical_pixelOpcode (h : p ≠ prev) : Canonical prev p E (pixelOpcode prev E p) := by
  unfold pixelOpcode
  split
  case isTrue => exact canonical_index h
  case isFalse hmiss => exact canonical_miss h hmiss

theorem pixelOpcode_ne_run (h : p ≠ prev) (m : Nat) : pixelOpcode prev E p ≠ .run m := by
  intro hrun
  have hrec := reconstruct_pixelOpcode (prev := prev) (E := E) p id
  rw [hrun] at hrec
  exact h (congrArg Prod.fst hrec).symm

end

/-! ### One opcode in its place -/

/-- What R101 says of the opcode `i` before which `n` pixels of the image `ps` stand, and which `after` follows. -/
structure CanonicalAt (ps : List Pixel) (n : Nat) (i : Instr) (after : List Instr) : Prop where
  pixel : ∃ p, ps[n]? = some p ∧ (reconstruct (lastPixel (ps.take n)) (encoderCache (ps.take n)) i).1 = p ∧
    Canonical (lastPixel (ps.take n)) p (encoderCache (ps.take n)) i
  run_full : ∀ m m', i = .run m → after.head? = some (.run m') → m = 62
  run_within : ∀ m, i = .run m → n + m ≤ ps.length

/-- Every opcode of `ops` is emitted as R101 says, where `n` pixels of the image `ps` stand before `ops`. -/
def AllCanonical (ps : List Pixel) : Nat → List Instr → Prop
  | _, [] => True
  | n, i :: after => CanonicalAt ps n i after ∧ AllCanonical ps (n + repeats i) after

theorem AllCanonical.canonicalAt {ps : List Pixel} {n : Nat} {i : Instr} {before after : List Instr}
    (h : AllCanonical ps n (before ++ i :: after)) : CanonicalAt ps (n + (before.map repeats).sum) i after := by
  induction before generalizing n with
  | nil => exact h.1
  | cons j before ih =>
    rw [List.map_cons, List.sum_cons, ← Nat.add_assoc]
    exact ih h.2

/-- No RGBA where every alpha is 255: the previous pixel's is 255 too. -/
theorem CanonicalAt.ne_rgba {ps : List Pixel} {n : Nat} {i : Instr} {after : List Instr} (h : CanonicalAt ps n i after)
    (hopaque : ∀ q ∈ ps, q.a = 255) (r g b a : Byte) : i ≠ .rgba r g b a := by
  obtain ⟨p, hp, -, hcan⟩ := h.pixel
  intro hi
  refine hcan.rgba_needed r g b a hi ?_
  have hprev : (lastPixel (ps.take n)).a = 255 := by
    unfold lastPixel
    cases hlast : (ps.take n).getLast? with
    | none => rfl
    | some q => exact hopaque q (List.mem_of_mem_take (List.mem_of_getLast? hlast))
  rw [hprev, hopaque p (List.mem_of_getElem? hp)]

/-! ### The selector's runs (R173, R174) -/

@[simp] theorem lastPixel_append_replicate (ps : List Pixel) (k : Nat) :
    lastPixel (ps ++ List.replicate k (lastPixel ps)) = lastPixel ps := by
  cases k with
  | zero => rw [List.replicate_zero, List.append_nil]
  | succ k => rw [List.replicate_succ', ← List.append_assoc, lastPixel_append]

/-- Pixels equal to the previous one leave the encoder's cache (R117). -/
@[simp] theorem encoderCache_append_replicate (ps : List Pixel) (k : Nat) :
    encoderCache (ps ++ List.replicate k (lastPixel ps)) = encoderCache ps := by
  induction k with
  | zero => rw [List.replicate_zero, List.append_nil]
  | succ k ih =>
    rw [List.replicate_succ', ← List.append_assoc, encoderCache_append, lastPixel_append_replicate,
      encoderCacheStep_self, ih]

section

variable {done todo : List Pixel} {p : Pixel} {r : Nat} {ops after : List Instr} {i : Instr}

/-- A RUN of the pixels after `done` that repeat its last one. -/
theorem canonicalAt_run (hpos : 1 ≤ r) (hfull : ∀ m', after.head? = some (.run m') → r = 62) :
    CanonicalAt (done ++ List.replicate r (lastPixel done) ++ todo) done.length (.run r) after := by
  have htake : (done ++ List.replicate r (lastPixel done) ++ todo).take done.length = done := by
    rw [List.append_assoc, List.take_left']
    rfl
  refine ⟨⟨lastPixel done, ?_, ?_, canonical_run r⟩, ?_, ?_⟩
  · rw [List.append_assoc, List.getElem?_append_right le_rfl, Nat.sub_self,
      List.getElem?_append_left (by rwa [List.length_replicate]), List.getElem?_replicate_of_lt hpos]
  · rw [htake]
    rfl
  · rintro m m' hm h
    cases hm
    exact hfull m' h
  · rintro m hm
    cases hm
    rw [List.length_append, List.length_append, List.length_replicate]
    exact Nat.le_add_right ..

/-- One opcode that is no RUN, of the pixel after `done`. -/
theorem canonicalAt_pixel (hrec : (reconstruct (lastPixel done) (encoderCache done) i).1 = p)
    (hcan : Canonical (lastPixel done) p (encoderCache done) i) (hrun : ∀ m, i ≠ .run m) :
    CanonicalAt (done ++ p :: todo) done.length i after := by
  have htake : (done ++ p :: todo).take done.length = done := List.take_left' rfl
  refine ⟨⟨p, ?_, ?_, ?_⟩, fun m _ h => absurd h (hrun m), fun m h => absurd h (hrun m)⟩
  · rw [List.getElem?_append_right le_rfl, Nat.sub_self, List.getElem?_cons_zero]
  · rw [htake, hrec]
  · rw [htake]
    exact hcan

end

/-! ### The opcodes of an image -/

theorem AllCanonical.pendingRun {done todo : List Pixel} {r : Nat} {ops : List Instr}
    (h : AllCanonical (done ++ List.replicate r (lastPixel done) ++ todo) (done.length + r) ops)
    (hhead : ∀ m, ops.head? ≠ some (.run m)) :
    AllCanonical (done ++ List.replicate r (lastPixel done) ++ todo) done.length (pendingRun r ++ ops) := by
  unfold Machine.pendingRun
  split
  case isTrue hpos => exact ⟨canonicalAt_run hpos fun m' hm' => absurd hm' (hhead m'), h⟩
  case isFalse hzero =>
    obtain rfl : r = 0 := by omega
    exact h

/-- The pending run and the opcode of a pixel unlike the previous one. -/
theorem AllCanonical.pixel {done todo : List Pixel} {p : Pixel} {r : Nat} {ops : List Instr} (hp : p ≠ lastPixel done)
    (h : AllCanonical (done ++ List.replicate r (lastPixel done) ++ p :: todo)
      ((done ++ List.replicate r (lastPixel done)).length + 1) ops) :
    AllCanonical (done ++ List.replicate r (lastPixel done) ++ p :: todo) done.length
      (Machine.pendingRun r ++ [pixelOpcode (lastPixel done) (encoderCache done) p] ++ ops) := by
  rw [List.append_assoc (Machine.pendingRun r), List.singleton_append]
  refine AllCanonical.pendingRun ?_ fun m hm => pixelOpcode_ne_run hp m (Option.some.inj hm)
  have hlen : (done ++ List.replicate r (lastPixel done)).length = done.length + r := by
    rw [List.length_append, List.length_replicate]
  rw [← hlen]
  refine ⟨canonicalAt_pixel ?_ ?_ (pixelOpcode_ne_run hp), ?_⟩
  · rw [lastPixel_append_replicate, encoderCache_append_replicate, reconstruct_pixelOpcode p id]
  · rw [lastPixel_append_replicate, encoderCache_append_replicate]
    exact canonical_pixelOpcode hp
  · rwa [repeats_pixelOpcode]

/-- After the pixels `done`, with `r` pixels more pending that repeat the last one. -/
theorem allCanonical_encodeOps {done todo : List Pixel} {r : Nat} (hr : r ≤ 61) (hend : todo = [] → r = 0) :
    AllCanonical (done ++ List.replicate r (lastPixel done) ++ todo) done.length
      (encodeOps ⟨lastPixel done, encoderCache done, r⟩ todo) := by
  induction todo generalizing done r with
  | nil => trivial
  | cons p rest ih =>
    rw [encodeOps]
    by_cases hp : p = lastPixel done
    · have hrun : done ++ List.replicate r (lastPixel done) ++ p :: rest =
          done ++ List.replicate (r + 1) (lastPixel done) ++ rest := by
        rw [List.replicate_succ', hp]
        simp
      rw [hrun, EncodeLoop.select_of_eq hp]
      split_ifs with hflush
      · have htail := ih (done := done ++ List.replicate (r + 1) (lastPixel done)) (r := 0) (Nat.zero_le _) fun _ => rfl
        refine ⟨canonicalAt_run (Nat.le_add_left ..) fun m' hm' => ?_, ?_⟩
        · rcases hflush with h61 | hlast
          · exact congrArg Nat.succ h61
          · rw [List.isEmpty_iff.mp hlast] at hm'
            cases hm'
        · simpa [hp, repeats] using htail
      · rw [not_or, List.isEmpty_iff] at hflush
        rw [hp]
        exact ih (by dsimp only at hflush; omega) fun hnil => absurd hnil hflush.2
    · have htail := ih (done := done ++ List.replicate r (lastPixel done) ++ [p]) (r := 0) (Nat.zero_le _) fun _ => rfl
      rw [lastPixel_append, encoderCache_append, lastPixel_append_replicate, encoderCache_append_replicate,
        List.replicate_zero, List.append_nil, List.append_assoc _ [p], List.length_append (bs := [p])] at htail
      rw [EncodeLoop.select_of_ne _ hp]
      exact AllCanonical.pixel hp htail

/-- Settles O52, by induction on the pixels still to come. -/
theorem nonCanonicalFormsAreNeverEmitted : Obligations.NonCanonicalFormsAreNeverEmitted := by
  intro ps before after i hops n prev cache
  have hall := allCanonical_encodeOps (done := []) (todo := ps) (Nat.zero_le 61) fun _ => rfl
  have hat : CanonicalAt ps n i after := by
    have h := AllCanonical.canonicalAt (hops ▸ hall)
    rwa [List.length_nil, Nat.zero_add] at h
  obtain ⟨p, hp, hrec, hcan⟩ := hat.pixel
  exact ⟨p, hp, hrec, hcan.diff_moves, hcan.run_of_eq, hcan.luma_needed, hcan.rgb_needed, hcan.rgba_needed,
    hcan.miss_uncached, hcan.index_hash, hat.run_full, hat.run_within, hat.ne_rgba⟩

/-! ### The longest run (R173, R195) -/

/-- A run that reaches 62 pixels is emitted at once. -/
theorem encodeOps_full_run {st : EncodeLoop} {k : Nat} (hk : k ≠ 0) (h62 : st.run + k = 62) (rest : List Pixel) :
    encodeOps st (List.replicate k st.prev ++ rest) = .run 62 :: encodeOps ⟨st.prev, st.cache, 0⟩ rest := by
  induction k generalizing st with
  | zero => exact absurd rfl hk
  | succ k ih =>
    rw [List.replicate_succ, List.cons_append, encodeOps, EncodeLoop.select_of_eq rfl]
    rcases Nat.eq_zero_or_pos k with rfl | hpos
    · have h61 : st.run = 61 := by omega
      rw [if_pos (.inl h61), h61]
      rfl
    · have hmore : (List.replicate k st.prev ++ rest).isEmpty = false := by
        obtain ⟨m, rfl⟩ := Nat.exists_eq_add_of_lt hpos
        rw [Nat.zero_add, List.replicate_succ]
        rfl
      have hpend : ¬(st.run = 61 ∨ false = true) := by simp only [Bool.false_eq_true, or_false]; omega
      rw [hmore, if_neg hpend]
      exact ih (st := ⟨st.prev, st.cache, st.run + 1⟩) (by omega) (by dsimp only; omega)

/-- Settles O57: 62 of the pixels are one RUN, before the last one or after the first one. -/
theorem runBoundaryDependsOnTheInitialPixel : Obligations.RunBoundaryDependsOnTheInitialPixel := by
  refine ⟨encodeOps_full_run (st := .start) (k := 62) (by omega) rfl [Pixel.start], fun c hc => ?_⟩
  refine ⟨_, pixelOpcode_ne_run (E := Cache.initial) hc, ?_⟩
  have htail := encodeOps_full_run (st := ⟨c, (encoderCacheStep (Pixel.start, Cache.initial) c).2, 0⟩) (k := 62)
    (by omega) rfl []
  rw [List.append_nil] at htail
  rw [List.replicate_succ, encodeOps, EncodeLoop.select_of_ne _ hc]
  exact congrArg _ htail

end Sys2Proof.Machine
end

section
/-! PROOFS. The decoder's read modes and its read-ahead (43_byte_io.md R211-R215). -/

namespace Sys2Proof.Machine

/-! ### A turn in the other mode (R211) -/

/-- Decoder `x` with the mode bit `v`. -/
def Decoder.withMode (v : Bool) (x : Decoder) : Decoder := { x with STRICT := v }

/-- From a decoder in the state `st`, a turn gives `y` in one mode and `y'` in the mode `v`: only the trailer's match
tells them apart. -/
def AgreeButMode (v : Bool) (st : DState) (y y' : Decoder) : Prop :=
  y' = { y with STRICT := v, dstate := y'.dstate } ∧
    (y'.dstate = y.dstate ∨
      st = .dTrl ∧ y.tbuf = trailerBytes ∧ (y.dstate = .done ∧ y'.dstate = .dRa ∨ y.dstate = .dRa ∧ y'.dstate = .done))

section

variable {c : Params} {ch : ReadAhead} {fr : Nat} {x : Decoder} {v : Bool}

theorem agreeButMode_withMode (v : Bool) (st : DState) (y : Decoder) : AgreeButMode v st y (y.withMode v) :=
  ⟨rfl, .inl rfl⟩

/-- In a state that reads the stream, both modes see the same answer of the source, and raise the same error. -/
theorem Decoder.agreeButMode_of_byte {e : JobError} (he : x.dstate.endError = some e)
    (hbyte : ∀ b rest, x.source = .byte b :: rest →
      AgreeButMode v x.dstate (x.turn c ch fr) ((x.withMode v).turn c ch fr)) :
    AgreeButMode v x.dstate (x.turn c ch fr) ((x.withMode v).turn c ch fr) := by
  rcases x.readByte_cases with ⟨hs, -⟩ | ⟨b, rest, hs, -⟩ | ⟨rest, hs, -⟩
  · rw [turn_of_ended he hs, turn_of_ended (x := x.withMode v) he hs]
    exact agreeButMode_withMode ..
  · exact hbyte b rest hs
  · rw [turn_of_source_error he hs, turn_of_source_error (x := x.withMode v) he hs]
    exact agreeButMode_withMode ..

theorem Decoder.headerField_withMode (b : Byte) :
    (x.withMode v).headerField c b fr = (x.headerField c b fr).withMode v := by
  simp only [headerField, checkMagic, checkWidth, checkHeight, checkChannels, checkColorspace, apply_ite (withMode v)]
  rfl

theorem Decoder.checkTrailer_of_match (h : x.tbuf = trailerBytes) :
    ∃ st, (st = .done ∨ st = .dRa) ∧ x.checkTrailer fr = { x with dstate := st } := by
  rcases Bool.eq_false_or_eq_true x.STRICT with hs | hs
  · exact ⟨_, .inl rfl, checkTrailer_of_strict h hs⟩
  · exact ⟨_, .inr rfl, checkTrailer_of_default h hs⟩

/-- Only here the mode decides (R150). -/
theorem Decoder.agreeButMode_checkTrailer (x : Decoder) :
    AgreeButMode v .dTrl (x.checkTrailer fr) ((x.withMode v).checkTrailer fr) := by
  by_cases hmatch : x.tbuf = trailerBytes
  · obtain ⟨st, hst, h⟩ := checkTrailer_of_match (fr := fr) hmatch
    obtain ⟨st', hst', h'⟩ := checkTrailer_of_match (fr := fr) (x := x.withMode v) hmatch
    rw [h, h']
    rcases hst with rfl | rfl <;> rcases hst' with rfl | rfl
    · exact ⟨rfl, .inl rfl⟩
    · exact ⟨rfl, .inr ⟨rfl, hmatch, .inl ⟨rfl, rfl⟩⟩⟩
    · exact ⟨rfl, .inr ⟨rfl, hmatch, .inr ⟨rfl, rfl⟩⟩⟩
    · exact ⟨rfl, .inl rfl⟩
  · rw [checkTrailer_of_ne hmatch, checkTrailer_of_ne (x := x.withMode v) hmatch]
    exact agreeButMode_withMode ..

theorem Decoder.agreeButMode_turn (hra : x.dstate ≠ .dRa) :
    AgreeButMode v x.dstate (x.turn c ch fr) ((x.withMode v).turn c ch fr) := by
  cases h : x.dstate with
  | idle | done | err =>
    have hbusy : x.busy = false := by simp [busy, h]
    rw [turn_of_not_busy c ch fr hbusy, turn_of_not_busy c ch fr (x := x.withMode v) hbusy]
    exact agreeButMode_withMode ..
  | dHdr =>
    rw [← h]
    refine agreeButMode_of_byte (by rw [h]; rfl) fun b rest hs => ?_
    rw [turn_of_dHdr h hs, turn_of_dHdr (x := x.withMode v) h hs]
    have hmode : (x.withMode v).takeHeaderByte b rest = (x.takeHeaderByte b rest).withMode v := rfl
    rw [hmode, headerField_withMode]
    exact agreeButMode_withMode ..
  | dOp =>
    rw [← h]
    refine agreeButMode_of_byte (by rw [h]; rfl) fun b rest hs => ?_
    rw [turn_of_dOp h hs, turn_of_dOp (x := x.withMode v) h hs]
    split <;> exact agreeButMode_withMode ..
  | dArg =>
    rw [← h]
    refine agreeButMode_of_byte (by rw [h]; rfl) fun b rest hs => ?_
    rw [turn_of_dArg h hs, turn_of_dArg (x := x.withMode v) h hs]
    have hlast : (x.withMode v).arg.length + 1 = len (x.withMode v).op - 1 ↔ x.arg.length + 1 = len x.op - 1 := Iff.rfl
    rw [if_congr hlast rfl rfl]
    split <;> exact agreeButMode_withMode ..
  | dRun =>
    rw [turn_of_dRun c ch fr h, turn_of_dRun c ch fr (x := x.withMode v) h]
    exact agreeButMode_withMode ..
  | dTrl =>
    rw [← h]
    refine agreeButMode_of_byte (by rw [h]; rfl) fun b rest hs => ?_
    have heighth : (x.withMode v).tbuf.length = 7 ↔ x.tbuf.length = 7 := Iff.rfl
    rw [turn_of_dTrl h hs, turn_of_dTrl (x := x.withMode v) h hs, if_congr heighth rfl rfl, h]
    split
    · exact agreeButMode_checkTrailer (x.takeTrailerByte b rest)
    · exact agreeButMode_withMode ..
  | dRa => exact absurd h hra

end

/-- Settles O28: of the turns outside `D_RA`, only the comparison of the trailer reads the mode. -/
theorem readModesAgreeBeforeReadAhead : Obligations.ReadModesAgreeBeforeReadAhead := by
  intro s t d x y v ch ag h hra ha hstep hy
  rw [step_of_decoder_turn h ha] at hstep
  cases hstep
  obtain rfl : x.turn Config.params ch s.draws = y := by
    rw [State.putDec_self (s := { s with cur := _, agenda := ag, draws := _ }) h] at hy
    exact Option.some.inj hy
  have h' : (s.putDec d (x.withMode v)).dec[d]? = some (x.withMode v) := State.putDec_self h _
  exact ⟨_, _, step_of_decoder_turn h' ha, State.putDec_self (x := x.withMode v) h' _, Decoder.agreeButMode_turn hra⟩

/-! ### Read-ahead (R214) -/

/-- Settles O27: the draw, `RA_MAX` and the source's answer decide what the turn is. -/
theorem readAheadDiscardsOrCompletes : Obligations.ReadAheadDiscardsOrCompletes := by
  intro c s d x ch fr h hra
  have hturn : decoderTurn c d ch fr s = .next (s.putDec d (x.readAheadStep c ch)) := by
    rw [decoderTurn_of_decoder c ch fr h, curAfter, if_neg (by simp [hra]), Decoder.turn, hra]
  rw [hturn]
  refine ⟨?complete, fun hread hlt => ?read, fun ag ha => ?step⟩
  case complete =>
    rintro (rfl | hmax)
    · rfl
    · cases ch with
      | complete => rfl
      | read =>
        rw [Decoder.readAheadStep, if_neg (by omega)]
        rfl
  case read =>
    subst hread
    rw [Decoder.readAheadStep, if_pos hlt]
    refine ⟨fun hs => ?_, fun rest hs => ?_, fun b rest hs => ?_⟩
    · rw [Decoder.readByte_ended hs]
      rfl
    · rw [Decoder.readByte_error hs]
      rfl
    · rw [Decoder.readByte_byte hs]
  case step =>
    rw [step_of_move (State.nextMove_cons ha), takeMove, takeTurn]
    simp [State.drawn, ha]

end Sys2Proof.Machine
end

section
/-! PROOFS. An encoder whose sink accepts and whose pixels suffice comes to DONE (42_encoder.md R165-R186): whatever
action is enabled, less work is left after it. -/

namespace Sys2Proof.Machine

/-! ### The work left -/

/-- What a state of the job has still to do, in byte moves: `E_PIX` has the trailer to emit. -/
def EState.workLeft : EState → Nat
  | .ePix => 30
  | .eTrl => 2
  | .eFlush => 1
  | .idle => 0
  | .done => 0
  | .err => 0

/-- A byte of the queue moves twice at most, one of the FIFO once, and a pixel emits at most six. -/
def Encoder.workLeft (x : Encoder) : Nat :=
  20 * (x.N.toNat - x.i.toNat) + 2 * x.q.length + x.fifo.length + x.estate.workLeft

/-- Encoder `z` stands where `y` can bring it without an error, with less work left. -/
structure Encoder.Advances (y z : Encoder) : Prop where
  total : z.N = y.N
  answers : z.sinkAnswers = []
  job : z.busy = true ∨ z.estate = .done
  less : z.workLeft < y.workLeft

section

variable {c : Params} {fr : Nat} {y : Encoder}

theorem Encoder.writeByte_of_accepting (hs : y.sinkAnswers = []) (b : Byte) :
    y.writeByte b = (.ok, { y with sink := y.sink ++ [b], outCount := y.outCount + 1 }) := by
  rw [writeByte, hs]

theorem Encoder.advances_drain (hs : y.sinkAnswers = []) (hbusy : y.busy = true) (hbytes : y.fifo ≠ [] ∨ y.q ≠ []) :
    y.Advances (y.drain fr) := by
  unfold drain
  split
  case h_1 b rest hfifo =>
    rw [writeByte_of_accepting hs]
    exact ⟨rfl, hs, .inl hbusy, by simp [workLeft, hfifo]⟩
  case h_2 b rest hfifo hq =>
    rw [writeByte_of_accepting hs]
    exact ⟨rfl, hs, .inl hbusy, by simp [workLeft, hfifo, hq]⟩
  case h_3 hfifo hq => simp [hfifo, hq] at hbytes

theorem Encoder.advances_serialize (hs : y.sinkAnswers = []) (hbusy : y.busy = true) (hq : y.q ≠ []) :
    y.Advances y.serialize := by
  unfold serialize
  split
  case h_1 hnil => exact absurd hnil hq
  case h_2 b rest hq => exact ⟨rfl, hs, .inl hbusy, by simp [workLeft, hq]; omega⟩

/-- A pixel's opcodes are at most six bytes (R169). -/
theorem Encoder.advances_selectNext (hs : y.sinkAnswers = []) (hst : y.estate = .ePix) (hq : y.q = [])
    (hmore : y.i < y.N) (hr : y.run ≤ 61) : y.Advances y.selectNext := by
  have hlen := EncodeLoop.select_bytes_le (last := decide (y.i + 1 = y.N)) (p := y.nextPixel) (st := y.loop) (B := 5)
    (by decide) (encode_length_le _)
  have hi := toNat_succ_of_lt hmore
  have hlt : y.i.toNat < y.N.toNat := hmore
  rw [selectNext_eq hr]
  refine ⟨rfl, hs, .inl (by simp [busy, hst]), ?_⟩
  simp only [workLeft, hi, hq, List.nil_append, List.length_nil]
  omega

theorem Encoder.selectStep_of_beat (hbeat : y.CH.toNat ≤ y.pixels.length) : y.selectStep fr = y.selectNext := by
  rw [selectStep, readPixel, if_pos hbeat]
  rfl

/-- Whatever action is enabled, the job goes on with less work left. -/
theorem Encoder.advances_act (hs : y.sinkAnswers = []) (hr : y.run ≤ 61)
    (hbeat : y.i < y.N → y.CH.toNat ≤ y.pixels.length) {a : EncAction} (hen : y.enabled c a = true) :
    y.Advances (y.act c a fr) := by
  rw [act, if_pos hen]
  cases a with
  | drain =>
    obtain ⟨hbusy, hbytes⟩ := enabled_drain_iff.mp hen
    exact advances_drain hs hbusy (hbytes.imp_right And.right)
  | serialize =>
    obtain ⟨hbusy, -, hq, -⟩ := enabled_serialize_iff.mp hen
    exact advances_serialize hs hbusy hq
  | select =>
    obtain ⟨hst, hq, hmore⟩ := enabled_select_iff.mp hen
    rw [perform, selectStep_of_beat (hbeat hmore)]
    exact advances_selectNext hs hst hq hmore hr
  | endPixels =>
    obtain ⟨hst, hq, -⟩ := enabled_endPixels_iff.mp hen
    exact ⟨rfl, hs, .inl rfl, by
      simp [perform, endPixels, workLeft, hst, hq, trailerBytes, EState.workLeft]
      omega⟩
  | toFlush =>
    obtain ⟨hst, -, -⟩ := enabled_toFlush_iff.mp hen
    exact ⟨rfl, hs, .inl rfl, by simp [perform, workLeft, hst, EState.workLeft]⟩
  | flush =>
    have hst := enabled_flush_iff.mp hen
    rw [perform, flushStep, flushPort, hs]
    exact ⟨rfl, rfl, .inr rfl, by simp [complete, workLeft, hst, EState.workLeft]⟩

end

/-! ### The job -/

/-- A point `z` of the job that START begins on encoder `x`, with no error so far and none to come from the sink. -/
structure Encoder.Unhindered (c : Params) (x z : Encoder) : Prop where
  inv : z.Inv c
  processed : x.Processed z
  total : z.N = pixelCount x.regWidth x.regHeight
  answers : z.sinkAnswers = []
  job : z.busy = true ∨ z.estate = .done

section

variable {c : Params} {x z : Encoder}

theorem Encoder.Unhindered.act (h : x.Unhindered c z) (fr : Nat)
    (hpixels : x.regWidth.toNat * x.regHeight.toNat * x.regChannels.toNat ≤ x.pixels.length)
    {a : EncAction} (hen : z.enabled c a = true) :
    x.Unhindered c (z.act c a fr) ∧ (z.act c a fr).workLeft < z.workLeft := by
  have hbeat (hmore : z.i < z.N) : z.CH.toNat ≤ z.pixels.length := by
    have hlt : z.i.toNat < x.regWidth.toNat * x.regHeight.toNat := by
      rw [← pixelCount_toNat, ← h.total]
      exact hmore
    have hfit : (z.i.toNat + 1) * x.regChannels.toNat ≤ x.pixels.length := (Nat.mul_le_mul_right _ hlt).trans hpixels
    rw [h.processed.channels, h.processed.unread, List.length_drop]
    rw [Nat.succ_mul] at hfit
    omega
  obtain ⟨htotal, hanswers, hjob, hless⟩ := Encoder.advances_act (fr := fr) h.answers h.processed.run_le hbeat hen
  exact ⟨⟨h.inv.act a fr, h.processed.of_effect (z.effect_act c a fr), htotal.trans h.total, hanswers, hjob⟩, hless⟩

/-- Whatever the order of enabled actions, they end in DONE. -/
theorem Encoder.Unhindered.exists_done
    (hpixels : x.regWidth.toNat * x.regHeight.toNat * x.regChannels.toNat ≤ x.pixels.length)
    (h : x.Unhindered c z) : ∃ acts, (Encoder.actAll c acts z).estate = .done := by
  induction hwork : z.workLeft using Nat.strong_induction_on generalizing z with
  | _ n ih =>
    rcases h.job with hbusy | hdone
    · obtain ⟨a, hen⟩ := busyEncodersCanMove c z h.inv hbusy
      obtain ⟨hnext, hless⟩ := h.act 0 hpixels hen
      obtain ⟨acts, hacts⟩ := ih _ (hwork ▸ hless) hnext rfl
      exact ⟨(a, 0) :: acts, hacts⟩
    · exact ⟨[], hdone⟩

end

/-- An accepted START on a legal descriptor (R165). -/
theorem Encoder.jobStart_of_legal {c : Params} {x : Encoder} {fr : Nat} (hW : dimOk c x.regWidth = true)
    (hH : dimOk c x.regHeight = true) (hCH : channelsOk x.regChannels = true)
    (hCS : colorspaceOk x.regColorspace = true) : x.jobStart c fr = x.initJob := by
  have hnone : x.initJob.descriptorError c = none := by simp [descriptorError, hW, hH, hCH, hCS]
  rw [jobStart, hnone]

/-- Settles O55: a legal START leaves nothing in the way, and every enabled action leaves less work. -/
theorem encoderJobsCanReachDone : Obligations.EncoderJobsCanReachDone := by
  intro c x fr hW hH hCH hCS hanswers hpixels
  have hinv := x.inv_jobStart c fr
  rw [Encoder.jobStart_of_legal hW hH hCH hCS] at hinv ⊢
  have hstart : x.Unhindered c x.initJob := ⟨hinv, x.processed_initJob, rfl, hanswers, .inl rfl⟩
  exact hstart.exists_done hpixels

end Sys2Proof.Machine
end

section
/-! PROOFS. The encoder's actions one by one (42_encoder.md R166-R171, R183-R186). -/

namespace Sys2Proof.Machine

/-! ### The sink's answers (R63) -/

section

variable {x : Encoder} {more : List SinkAnswer}

theorem Encoder.writeByte_of_ok (h : x.sinkAnswers = .ok :: more) (b : Byte) :
    x.writeByte b = (.ok, { x with sink := x.sink ++ [b], outCount := x.outCount + 1, sinkAnswers := more }) := by
  rw [writeByte, h]

theorem Encoder.writeByte_of_error (h : x.sinkAnswers = .error :: more) (b : Byte) :
    x.writeByte b = (.error, { x with sinkAnswers := more }) := by
  rw [writeByte, h]

theorem Encoder.flushPort_of_ok (h : x.sinkAnswers = .ok :: more) :
    x.flushPort = (.ok, { x with flushes := x.flushes + 1, sinkAnswers := more }) := by
  rw [flushPort, h]

theorem Encoder.flushPort_of_error (h : x.sinkAnswers = .error :: more) :
    x.flushPort = (.error, { x with sinkAnswers := more }) := by
  rw [flushPort, h]

end

/-! ### The actions -/

/-- Settles O46: the turn is `act`, and each entry of the table has its own `iff`. -/
theorem encoderTakesOneEnabledAction : Obligations.EncoderTakesOneEnabledAction := by
  intro s e x a ag h ha
  exact ⟨step_of_encoder_turn h ha, Encoder.enabled_drain_iff, Encoder.enabled_serialize_iff,
    Encoder.enabled_select_iff, Encoder.enabled_endPixels_iff, Encoder.enabled_toFlush_iff, Encoder.enabled_flush_iff⟩

/-- Settles O48: the byte offered is the FIFO's head, or the queue's, and the sink's answer decides. -/
theorem serializerKeepsTheByteOrder : Obligations.SerializerKeepsTheByteOrder := by
  intro x fr b rest
  refine ⟨fun hq => ?_, fun hfifo more => ⟨fun hok => ?_, fun herr => ?_⟩,
    fun hfifo hq more => ⟨fun hok => ?_, fun herr => ?_⟩⟩
  · simp only [Encoder.perform, Encoder.serialize, hq]
  · simp only [Encoder.perform, Encoder.drain, hfifo, Encoder.writeByte_of_ok hok]
  · simp only [Encoder.perform, Encoder.drain, hfifo, Encoder.writeByte_of_error herr]
  · simp only [Encoder.perform, Encoder.drain, hfifo, hq, Encoder.writeByte_of_ok hok]
  · simp only [Encoder.perform, Encoder.drain, hfifo, hq, Encoder.writeByte_of_error herr]

/-- Settles O49: a beat is fetched where the buffer has one, and formed by the channel count. -/
theorem pixelFetchFormsThePixel : Obligations.PixelFetchFormsThePixel := by
  intro x fr
  refine ⟨fun r g b rest hCH hpixels => ?_, fun r g b a rest hCH hpixels => ?_, fun hshort => ?_⟩
  · rw [Encoder.perform, Encoder.selectStep_of_beat (by simp [hCH, hpixels]), Encoder.selectNext, Encoder.nextPixel,
      hCH, hpixels]
    rfl
  · rw [Encoder.perform, Encoder.selectStep_of_beat (by simp [hCH, hpixels]), Encoder.selectNext, Encoder.nextPixel,
      hCH, hpixels]
    rfl
  · rw [Encoder.perform, Encoder.selectStep, Encoder.readPixel, if_neg (by omega)]

/-- Settles O53: the trailer and the flush are queued and asked for whatever the encoder; the sink's answer decides the
rest. -/
theorem endOfImageFlushesTheSink : Obligations.EndOfImageFlushesTheSink := by
  intro x fr
  refine ⟨rfl, rfl, fun more => ⟨fun hok => ?_, fun herr => ?_⟩⟩
  · rw [Encoder.perform, Encoder.flushStep, Encoder.flushPort_of_ok hok]
    rfl
  · rw [Encoder.perform, Encoder.flushStep, Encoder.flushPort_of_error herr]

end Sys2Proof.Machine
end

section
/-! PROOFS. The host's view of the engines: STATUS and the error codes, the register map, START on an encoder, the state
after reset, and the ports (10_state.md R32-R55; 60_exceptions.md R226-R231; 70_reset_and_hazards.md R255-R262). -/

namespace Sys2Proof.Machine

/-! ### Words made of fields -/

theorem toNat_append_eq_mul_add {n m : Nat} (x : BitVec n) (y : BitVec m) :
    (x ++ y).toNat = 2 ^ m * x.toNat + y.toNat := by
  rw [BitVec.toNat_append, Nat.shiftLeft_eq, Nat.mul_comm, ← Nat.two_pow_add_eq_or_of_lt y.isLt]

/-- The STATUS word as a number: its fields at their places (R42, R48). -/
theorem statusWord_toNat (busy done err : Bool) (kind : BitVec 4) (detail : BitVec 8) :
    (statusWord busy done err kind detail).toNat = busy.toNat + 2 * done.toNat + 4 * err.toNat +
      16 * (if err then kind else 0).toNat + 256 * (if err then detail else 0).toNat := by
  simp only [statusWord, toNat_append_eq_mul_add, BitVec.toNat_ofBool, BitVec.toNat_ofNat]
  omega

/-- Bit `i` of a word is the bit `b` of a number that is known. -/
theorem getLsbD_eq_of_toNat {w : Word32} {i : Nat} {b : Bool} (h : w.toNat / 2 ^ i % 2 = b.toNat) :
    w.getLsbD i = b := by
  rw [← BitVec.testBit_toNat, Nat.testBit_eq_decide_div_mod_eq, h]
  cases b <;> rfl

theorem extractLsb'_eq_of_toNat {w : Word32} {i n : Nat} {f : BitVec n} (h : w.toNat / 2 ^ i % 2 ^ n = f.toNat) :
    w.extractLsb' i n = f := by
  rw [← BitVec.toNat_inj, BitVec.extractLsb'_toNat, Nat.shiftRight_eq_div_pow, h]

theorem statusWord_fields (busy done err : Bool) (kind : BitVec 4) (detail : BitVec 8) :
    let w := statusWord busy done err kind detail
    w.getLsbD 0 = busy ∧ w.getLsbD 1 = done ∧ w.getLsbD 2 = err ∧ w.getLsbD 3 = false ∧
      w.extractLsb' 4 4 = (if err then kind else 0) ∧ w.extractLsb' 8 8 = (if err then detail else 0) ∧
      w.extractLsb' 16 16 = 0#16 := by
  intro w
  have hw : w.toNat = _ := statusWord_toNat ..
  have hbusy := Bool.toNat_le busy
  have hdone := Bool.toNat_le done
  have herr := Bool.toNat_le err
  have hkind := (if err then kind else 0).isLt
  have hdetail := (if err then detail else 0).isLt
  have hfalse : false.toNat = 0 := rfl
  have hzero : (0#16).toNat = 0 := rfl
  refine ⟨getLsbD_eq_of_toNat ?_, getLsbD_eq_of_toNat ?_, getLsbD_eq_of_toNat ?_, getLsbD_eq_of_toNat ?_,
    extractLsb'_eq_of_toNat ?_, extractLsb'_eq_of_toNat ?_, extractLsb'_eq_of_toNat ?_⟩ <;> rw [hw] <;> omega

/-! ### Flags (R32, R33) -/

theorem Decoder.not_ended_of_busy {x : Decoder} (h : x.busy = true) : x.dstate ≠ .done ∧ x.dstate ≠ .err := by
  constructor <;> intro hst <;> simp [busy, hst] at h

theorem Encoder.not_ended_of_busy {x : Encoder} (h : x.busy = true) : x.estate ≠ .done ∧ x.estate ≠ .err := by
  constructor <;> intro hst <;> simp [busy, hst] at h

/-- Settles O39: the fields of the STATUS word, and `irq` as the or of its two ending flags. -/
theorem statusWordShowsTheFlags : Obligations.StatusWordShowsTheFlags := by
  refine ⟨fun x => ?decoder, fun x => ?encoder⟩
  case decoder =>
    obtain ⟨hbusy, hdone, herr, hzero, hkind, hdetail, hupper⟩ :=
      statusWord_fields x.busy x.isDone x.isErr x.errKind x.errDetail
    simp only [Decoder.isErr, decide_eq_true_eq] at hkind hdetail
    exact ⟨⟨hbusy, hdone, herr, hzero, hkind, hdetail, hupper⟩, (congrArg₂ or hdone herr).symm,
      Decoder.not_ended_of_busy⟩
  case encoder =>
    obtain ⟨hbusy, hdone, herr, hzero, hkind, hdetail, hupper⟩ :=
      statusWord_fields x.busy x.isDone x.isErr x.errKind x.errDetail
    simp only [Encoder.isErr, decide_eq_true_eq] at hkind hdetail
    exact ⟨⟨hbusy, hdone, herr, hzero, hkind, hdetail, hupper⟩, (congrArg₂ or hdone herr).symm,
      Encoder.not_ended_of_busy⟩

/-! ### Errors (R226-R231) -/

/-- Settles O31: the codes are the tables', error by error. -/
theorem errorCodesAreTheTables : Obligations.ErrorCodesAreTheTables := by
  refine ⟨rfl, rfl, rfl, rfl, fun e => ?_⟩
  cases e <;> decide

theorem statusWord_error_toNat (kind : BitVec 4) (detail : BitVec 8) :
    (statusWord false false true kind detail).toNat = 4 + 16 * kind.toNat + 256 * detail.toNat :=
  statusWord_toNat ..

/-- Settles O30: the STATUS word of ERR with the codes recorded; the other registers are not written. -/
theorem raisingAnErrorRecordsAndHalts : Obligations.RaisingAnErrorRecordsAndHalts :=
  ⟨fun e _ _ => ⟨rfl, rfl, rfl, rfl, statusWord_error_toNat e.kindCode e.detailCode, rfl⟩,
    fun e _ _ => ⟨rfl, rfl, rfl, rfl, statusWord_error_toNat e.kindCode e.detailCode, rfl, rfl, rfl⟩⟩

/-! ### The register maps (R40-R53) -/

section

variable {s : State} {ag : List Move} {off : Nat}

theorem step_of_encoder_read {e : Nat} {x : Encoder} (h : s.enc[e]? = some x) (hword : off % 4 = 0)
    (ha : s.agenda = .hostRead ⟨.enc e, off, 4⟩ :: ag) :
    step s = .next { s with agenda := ag, draws := s.draws + 1, hostData := x.readReg off } := by
  rw [step_of_move (State.nextMove_cons ha)]
  simp [takeMove, State.hostRead, HostAddr.isWord, hword, h, State.drawn, ha]

theorem step_of_decoder_read {d : Nat} {x : Decoder} (h : s.dec[d]? = some x) (hword : off % 4 = 0)
    (ha : s.agenda = .hostRead ⟨.dec d, off, 4⟩ :: ag) :
    step s = .next { s with agenda := ag, draws := s.draws + 1, hostData := x.readReg off } := by
  rw [step_of_move (State.nextMove_cons ha)]
  simp [takeMove, State.hostRead, HostAddr.isWord, hword, h, State.drawn, ha]

theorem Encoder.readReg_of_unlisted {x : Encoder} (h : off = 0x00 ∨ 0x18 < off) : x.readReg off = 0 := by
  unfold readReg
  iterate 6 rw [if_neg (by omega)]

theorem Decoder.readReg_of_unlisted {x : Decoder} (h : off = 0x00 ∨ 0x1C < off) : x.readReg off = 0 := by
  unfold readReg
  iterate 7 rw [if_neg (by omega)]

theorem low_word_toNat (v : Word64) : (v.extractLsb' 0 32).toNat = v.toNat % 2 ^ 32 := by
  rw [BitVec.extractLsb'_toNat, Nat.shiftRight_zero]

theorem high_word_toNat (v : Word64) : (v.extractLsb' 32 32).toNat = v.toNat / 2 ^ 32 := by
  have hv := v.isLt
  rw [BitVec.extractLsb'_toNat, Nat.shiftRight_eq_div_pow]
  omega

end

/-- Settles O36: the step is the read of a register, and each register's word is as listed. -/
theorem hostReadsTheRegisterMap : Obligations.HostReadsTheRegisterMap := by
  refine ⟨fun s e x off ag h hword ha => ?encoder, fun s d x off ag h hword ha => ?decoder⟩
  case encoder =>
    refine ⟨_, step_of_encoder_read h hword ha, ?_, ?_, ?_, ?format, ?low, ?high, Encoder.readReg_of_unlisted⟩
    case format =>
      rintro rfl
      change (0#16 ++ x.regColorspace ++ x.regChannels).toNat = _
      simp only [toNat_append_eq_mul_add, BitVec.toNat_ofNat]
      omega
    case low => rintro rfl; exact low_word_toNat x.outCount
    case high => rintro rfl; exact high_word_toNat x.outCount
    all_goals rintro rfl; rfl
  case decoder =>
    refine ⟨_, step_of_decoder_read h hword ha, ?_, ?config, ?_, ?_, ?format, ?low, ?high, Decoder.readReg_of_unlisted⟩
    case config =>
      rintro rfl
      change (0#23 ++ BitVec.ofBool x.regStrict ++ x.regReq).toNat = _
      simp only [toNat_append_eq_mul_add, BitVec.toNat_ofNat, BitVec.toNat_ofBool]
      omega
    case format =>
      rintro rfl
      change (0#8 ++ x.OCH ++ x.CS ++ x.SCH).toNat = _
      simp only [toNat_append_eq_mul_add, BitVec.toNat_ofNat]
      omega
    case low => rintro rfl; exact low_word_toNat x.inCount
    case high => rintro rfl; exact high_word_toNat x.inCount
    all_goals rintro rfl; rfl

theorem extractLsb'_zero_eq_ofNat (v : Word32) : v.extractLsb' 0 8 = BitVec.ofNat 8 v.toNat := rfl

theorem extractLsb'_eight_eq_ofNat (v : Word32) : v.extractLsb' 8 8 = BitVec.ofNat 8 (v.toNat / 256) := by
  rw [BitVec.extractLsb', Nat.shiftRight_eq_div_pow]

section

variable {off : Nat} {v : Word32} {fr : Nat}

theorem Encoder.writeReg_ignored {c : Params} {x : Encoder}
    (h : off = 0x00 ∧ v.getLsbD 0 = false ∨ off = 0x04 ∨ 0x10 < off) : x.writeReg c off v fr = x := by
  rcases x.writeReg_cases c off v fr with hw | ⟨-, ⟨hoff, hstart, -⟩ | ⟨hoff, -⟩ | ⟨hoff, -⟩ | ⟨hoff, -⟩⟩
  · exact hw
  · rcases h with ⟨-, hclear⟩ | hother
    · rw [hstart] at hclear
      cases hclear
    · omega
  all_goals omega

theorem Decoder.writeReg_ignored {x : Decoder} (h : off = 0x00 ∧ v.getLsbD 0 = false ∨ off = 0x04 ∨ 0x08 < off) :
    x.writeReg off v fr = x := by
  rcases x.writeReg_cases off v fr with hw | ⟨-, ⟨hoff, hstart, -⟩ | ⟨hoff, -⟩⟩
  · exact hw
  · rcases h with ⟨-, hclear⟩ | hother
    · rw [hstart] at hclear
      cases hclear
    · omega
  · omega

end

/-- Settles O37: the step is the write of a register, which stores a parameter or is ignored. -/
theorem hostWritesTheParameterRegisters : Obligations.HostWritesTheParameterRegisters := by
  refine ⟨fun s e x off v ag h hidle hword ha => ?encoder, fun s d x off v ag h hidle hword ha => ?decoder⟩
  case encoder =>
    dsimp only
    rw [step_of_encoder_write h rfl (by simp [HostAddr.isWord, hword]) ha]
    refine ⟨fun hoff hstart => ?_, ?_, ?_, ?_, fun hoff => ?_⟩
    · rw [Encoder.writeReg_ignored (.inl ⟨hoff, hstart⟩)]
    · rintro rfl; simp [Encoder.writeReg, hidle]
    · rintro rfl; simp [Encoder.writeReg, hidle]
    · rintro rfl; simp [Encoder.writeReg, hidle, extractLsb'_zero_eq_ofNat, extractLsb'_eight_eq_ofNat]
    · rw [Encoder.writeReg_ignored (.inr hoff)]
  case decoder =>
    dsimp only
    rw [step_of_decoder_write h rfl (by simp [HostAddr.isWord, hword]) ha]
    refine ⟨fun hoff hstart => ?_, ?_, fun hoff => ?_⟩
    · rw [Decoder.writeReg_ignored (.inl ⟨hoff, hstart⟩)]
    · rintro rfl; simp [Decoder.writeReg, hidle, extractLsb'_zero_eq_ofNat]
    · rw [Decoder.writeReg_ignored (.inr hoff)]

/-! ### START on an encoder (R165) -/

theorem Encoder.writeReg_start {c : Params} {x : Encoder} {v : Word32} (fr : Nat) (hidle : x.busy = false)
    (hstart : v.getLsbD 0 = true) : x.writeReg c 0x00 v fr = x.jobStart c fr := by
  simp only [writeReg, hidle, hstart, if_true]
  rfl

theorem Encoder.status_initJob (x : Encoder) : x.initJob.status = 1 := by
  have hflags : x.initJob.status = statusWord true false false 0 0 := rfl
  rw [hflags]
  decide

/-- The descriptor's checks in their order, each with its error. -/
theorem Encoder.jobStart_eq (c : Params) (fr : Nat) (x : Encoder) :
    x.jobStart c fr =
      if dimOk c x.regWidth then
        if dimOk c x.regHeight then
          if channelsOk x.regChannels then
            if colorspaceOk x.regColorspace then x.initJob else x.initJob.raise .argColorspace fr
          else x.initJob.raise .argChannels fr
        else x.initJob.raise .argHeight fr
      else x.initJob.raise .argWidth fr := by
  have hchecks : x.initJob.descriptorError c =
      if !dimOk c x.regWidth then some .argWidth
      else if !dimOk c x.regHeight then some .argHeight
      else if !channelsOk x.regChannels then some .argChannels
      else if !colorspaceOk x.regColorspace then some .argColorspace
      else none := rfl
  rw [jobStart, hchecks]
  cases dimOk c x.regWidth
  · rfl
  cases dimOk c x.regHeight
  · rfl
  cases channelsOk x.regChannels
  · rfl
  cases colorspaceOk x.regColorspace <;> rfl

theorem params_legal : Config.params.Legal := by
  unfold Params.Legal Config.params
  cases Config.maxDimIsU32
  · exact .inl rfl
  · exact .inr rfl

/-- Settles O35: the write starts a job, and the descriptor is checked by value. -/
theorem startOnAnEncoder : Obligations.StartOnAnEncoder := by
  refine ⟨params_legal, ?_⟩
  intro s e x v ag h hidle hstart ha y
  have hy : y = x.initJob := by
    dsimp only [y]
    rw [← pixelCount_eq_ofNat]
    rfl
  rw [hy]
  refine ⟨x.status_initJob, ?_⟩
  rw [step_of_encoder_write h rfl rfl ha, Encoder.writeReg_start _ hidle hstart, Encoder.jobStart_eq, ite_dimOk,
    ite_dimOk, ite_not, ite_not, if_congr (channelsOk_iff x.regChannels) rfl rfl,
    if_congr (colorspaceOk_iff x.regColorspace) rfl rfl]

/-! ### After reset (R255, R256, R259) -/

/-- Where no engine is BUSY, no turn changes an engine (log 13). -/
theorem takeTurn_engines_of_idle {c : Params} {tn : Turn} {fr : Nat} {s t : State} (henc : ∀ x ∈ s.enc, x.busy = false)
    (hdec : ∀ x ∈ s.dec, x.busy = false) (h : takeTurn c tn fr s = .next t) : t.enc = s.enc ∧ t.dec = s.dec := by
  cases tn with
  | enc e a =>
    cases hx : s.enc[e]? with
    | none =>
      simp only [takeTurn, encoderTurn, hx] at h
      cases h
      exact ⟨rfl, rfl⟩
    | some x =>
      simp only [takeTurn, encoderTurn, hx] at h
      cases h
      rw [Encoder.act_of_not_busy _ _ _ (henc x (List.mem_of_getElem? hx)), State.putEnc_same hx]
      exact ⟨rfl, rfl⟩
  | dec d ch =>
    cases hx : s.dec[d]? with
    | none =>
      rw [takeTurn, decoderTurn_of_no_decoder c ch fr hx] at h
      cases h
      exact ⟨rfl, rfl⟩
    | some x =>
      rw [takeTurn, decoderTurn_of_decoder c ch fr hx,
        Decoder.turn_of_not_busy _ _ _ (hdec x (List.mem_of_getElem? hx))] at h
      cases h
      exact ⟨rfl, list_set_self hx⟩

/-- Settles O43: every engine is as after power-on reset, and with an empty agenda some engine takes a turn. -/
theorem resetLeavesTheEnginesIdle : Obligations.ResetLeavesTheEnginesIdle := by
  intro nEnc nDec
  have henc (x : Encoder) (hx : x ∈ (State.resetWith nEnc nDec).enc) : x = Encoder.reset := List.eq_of_mem_replicate hx
  have hdec (x : Decoder) (hx : x ∈ (State.resetWith nEnc nDec).dec) : x = Decoder.reset := List.eq_of_mem_replicate hx
  refine ⟨List.length_replicate, List.length_replicate, fun x hx => ?encoder, fun x hx => ?decoder, fun t ht => ?step⟩
  case encoder =>
    rw [henc x hx]
    decide
  case decoder =>
    rw [hdec x hx]
    decide
  case step =>
    rw [step_of_move (m := .turn (Config.freeTurn 0)) rfl] at ht
    exact takeTurn_engines_of_idle (s := (State.resetWith nEnc nDec).drawn) (fun x hx => by rw [henc x hx]; rfl)
      (fun x hx => by rw [hdec x hx]; rfl) ht

/-- Settles O44: both writes start a job on an engine as after power-on reset. -/
theorem startRightAfterReset : Obligations.StartRightAfterReset := by
  intro ag
  refine ⟨?encoder, ?decoder⟩
  case encoder =>
    refine ⟨_, _, step_of_encoder_write (x := .reset) rfl rfl rfl rfl, rfl, ?_⟩
    rw [Encoder.writeReg_start _ rfl (by decide), Encoder.jobStart_eq, ite_dimOk, if_pos (.inl rfl)]
    have hstatus : statusWord false false true 1 2 = 0x214 := by decide
    exact ⟨hstatus, rfl⟩
  case decoder =>
    refine ⟨_, _, step_of_decoder_write (x := .reset) rfl rfl rfl rfl, rfl, ?_⟩
    rw [Decoder.writeReg_start _ rfl (by decide), Decoder.jobStart, if_pos (by decide)]
    decide

/-! ### Ports (R260-R262) -/

section

variable {s : State} {ag : List Move} {m : Move}

theorem connectDec_of_decoder {d : Nat} {x : Decoder} (h : s.dec[d]? = some x) (f : Decoder → Decoder) :
    s.connectDec d f = if x.busy then .refused .hostDuty else .next (s.putDec d (f x)) := by
  simp [State.connectDec, h]

theorem connectEnc_of_encoder {e : Nat} {x : Encoder} (h : s.enc[e]? = some x) (f : Encoder → Encoder) :
    s.connectEnc e f = if x.busy then .refused .hostDuty else .next (s.putEnc e (f x)) := by
  simp [State.connectEnc, h]

theorem State.drawn_of_agenda (h : s.agenda = m :: ag) : s.drawn = { s with agenda := ag, draws := s.draws + 1 } := by
  simp [State.drawn, h]

end

/-- Settles O45: the connection's one condition is that the engine is not BUSY. -/
theorem portsAreConnectedBetweenJobs : Obligations.PortsAreConnectedBetweenJobs := by
  intro s ag s'
  have hmove {m : Move} (ha : s.agenda = m :: ag) : step s = takeMove Config.params m s.draws s' := by
    rw [step_of_move (State.nextMove_cons ha), State.drawn_of_agenda ha]
  refine ⟨fun d x h => ⟨fun hidle => ?_, fun hbusy => ?_⟩, fun e x h => ⟨fun hidle => ?_, fun hbusy => ?_⟩⟩
  · have hconnect (f : Decoder → Decoder) : s'.connectDec d f = .next (s'.putDec d (f x)) := by
      rw [connectDec_of_decoder (s := s') h, if_neg (by simp [hidle])]
    exact ⟨fun _ ha => (hmove ha).trans (hconnect _), fun ha => (hmove ha).trans (hconnect _)⟩
  · have hconnect (f : Decoder → Decoder) : s'.connectDec d f = .refused .hostDuty := by
      rw [connectDec_of_decoder (s := s') h, if_pos hbusy]
    exact ⟨fun _ ha => (hmove ha).trans (hconnect _), fun ha => (hmove ha).trans (hconnect _)⟩
  · have hconnect (f : Encoder → Encoder) : s'.connectEnc e f = .next (s'.putEnc e (f x)) := by
      rw [connectEnc_of_encoder (s := s') h, if_neg (by simp [hidle])]
    exact ⟨fun _ ha => (hmove ha).trans (hconnect _), fun _ ha => (hmove ha).trans (hconnect _)⟩
  · have hconnect (f : Encoder → Encoder) : s'.connectEnc e f = .refused .hostDuty := by
      rw [connectEnc_of_encoder (s := s') h, if_pos hbusy]
    exact ⟨fun _ ha => (hmove ha).trans (hconnect _), fun _ ha => (hmove ha).trans (hconnect _)⟩

end Sys2Proof.Machine
end
